-- ==== Sys2Proof/Word.lean ====
section
/-! DEFINITION. The units every file counts in: the byte (R8, R11), the 4-bit field, and the masking key, which is four bytes
in wire order and not a number (R55). -/

namespace Sys2Proof

/-- A byte is 8 bits; bit 7 is its most significant bit (R11). -/
abbrev Byte := BitVec 8

/-- A 4-bit field: `OPCODE` (R81), `P.OPCODE` and `P.BYTEOFFSET` (R20). -/
abbrev Nibble := BitVec 4

/-- A masking key: "the next 4 bytes verbatim", `k0` the first of the four on the wire (R55, R88). -/
structure Key where
  k0 : Byte
  k1 : Byte
  k2 : Byte
  k3 : Byte
deriving DecidableEq, Repr

end Sys2Proof
end

