-- ==== Sys2Proof/Config.lean ====
section
/-! DEFINITION. The parameters R8 leaves OPEN. They are configuration, not state: "they do not change while an instance lives"
(R33). A State carries one record of them, no operation writes it, and a statement about every state is a statement about every
value of them. -/

namespace Sys2Proof

/-- The open parameters of R8, each with the default that R8 gives it (notes/assumptions/4.md). -/
structure Config where
  /-- `PAYLOAD_CAP`: the largest payloadLen the reassembly buffer can hold (D9). -/
  payloadCap : Nat := 4294967295
  /-- `QUEUE_CAP`: the largest number of Frames `Q` can hold; `none` is unbounded (D10). -/
  queueCap : Option Nat := none
  /-- `CHUNK_MAX`: the largest chunk one FEED or DECODE accepts; `none` is unbounded (D11). -/
  chunkMax : Option Nat := none
  /-- `PROTOCOL_ERROR_CLOSE_CODE`: the spec gives no number, default "none (caller's)"; no rule reads it (R210, D12). -/
  protocolErrorCloseCode : Option Nat := none
  /-- `ENC_PRESENT`: whether the encoder unit exists (D14). -/
  encPresent : Bool := true
deriving DecidableEq, Repr

end Sys2Proof
end

