-- ==== Sys2Proof/Syntax.lean ====
section
/-! DEFINITION. The instructions, one constructor for each of the 39 rows of spec/opcode_table.json (R100):
six header formats, sixteen opcodes, four illegal encodings, four encoder byte-0 rows and nine host operations. -/

namespace Sys2Proof

/-- What follows byte 0 of a legal header: one of the six formats of R83 with the fields R84 gives it.
`len7` is at most 125 in the S7 formats; the 64-bit formats keep only `lo`, since their upper half is 0 (R93). -/
inductive HdrForm where
  | s7u (len7 : BitVec 7)
  | s7m (len7 : BitVec 7) (key : Key)
  | e16u (len : BitVec 16)
  | e16m (len : BitVec 16) (key : Key)
  | e64u (lo : BitVec 32)
  | e64m (lo : BitVec 32) (key : Key)
deriving DecidableEq, Repr

/-- The instruction set. A frame header on the wire is read in two ways: by its format (`hdr…`, with the opcode as a field) or by
its opcode (`frame…`, with the format as a field); R100 lists both groups of rows. -/
inductive Instr where
  -- group (1): header formats, R83
  | hdrS7U (fin : Bool) (opcode : Nibble) (len7 : BitVec 7)
  | hdrS7M (fin : Bool) (opcode : Nibble) (len7 : BitVec 7) (key : Key)
  | hdrE16U (fin : Bool) (opcode : Nibble) (len : BitVec 16)
  | hdrE16M (fin : Bool) (opcode : Nibble) (len : BitVec 16) (key : Key)
  | hdrE64U (fin : Bool) (opcode : Nibble) (lo : BitVec 32)
  | hdrE64M (fin : Bool) (opcode : Nibble) (lo : BitVec 32) (key : Key)
  -- group (2): opcodes, R90, R91
  | frameCont (fin : Bool) (form : HdrForm)
  | frameText (fin : Bool) (form : HdrForm)
  | frameBin (fin : Bool) (form : HdrForm)
  | frameRsvd3 (fin : Bool) (form : HdrForm)
  | frameRsvd4 (fin : Bool) (form : HdrForm)
  | frameRsvd5 (fin : Bool) (form : HdrForm)
  | frameRsvd6 (fin : Bool) (form : HdrForm)
  | frameRsvd7 (fin : Bool) (form : HdrForm)
  | frameClose (fin : Bool) (form : HdrForm)
  | framePing (fin : Bool) (form : HdrForm)
  | framePong (fin : Bool) (form : HdrForm)
  | frameRsvdB (fin : Bool) (form : HdrForm)
  | frameRsvdC (fin : Bool) (form : HdrForm)
  | frameRsvdD (fin : Bool) (form : HdrForm)
  | frameRsvdE (fin : Bool) (form : HdrForm)
  | frameRsvdF (fin : Bool) (form : HdrForm)
  -- group (3): illegal encodings, R92, R93
  | illRsv1 (b0 : Byte)
  | illRsv2 (b0 : Byte)
  | illRsv3 (b0 : Byte)
  | illE64Hi (fin : Bool) (opcode : Nibble) (mask : Bool) (hi lo : BitVec 32)
  -- group (4): the encoder's byte 0, R176
  | encTextFin (payload : List Byte)
  | encTextNonfin (payload : List Byte)
  | encBinFin (payload : List Byte)
  | encBinNonfin (payload : List Byte)
  -- group (4): host operations, R14, R166
  | reset
  | feed (chunk : List Byte)
  | decode (chunk : List Byte)
  | qread
  | qclear
  | drain
  | status
  | unmask (rawPayload : List Byte) (payloadLen : BitVec 32) (maskingKey : Key)
  | createFrame (payload : List Byte) (opcode : Nibble) (fin : Bool)
deriving DecidableEq, Repr

/-- A transaction the host issues on one of the four ports (R62); R166 lists all nine. A step of the machine is one of them (R9). -/
inductive HostOp where
  | reset
  | feed (chunk : List Byte)
  | decode (chunk : List Byte)
  | qread
  | qclear
  | drain
  | status
  | unmask (rawPayload : List Byte) (payloadLen : BitVec 32) (maskingKey : Key)
  | createFrame (payload : List Byte) (opcode : Nibble) (fin : Bool)
deriving DecidableEq, Repr

end Sys2Proof
end

