-- ==== Sys2Proof/Machine/State.lean ====
section
/-! DEFINITION. The state of one decoder instance (R20), the configuration it was built with (R8), what stands on its ports, and
the state after reset (R38). -/

namespace Sys2Proof.Machine

open Sys2Proof

/-- `ST`, the decoder state (R21). -/
inductive DecState where
  | idle
  | awaitHdr
  | awaitPay
  | error
deriving DecidableEq, Repr

/-- `ERR`, the latched error (R30). -/
inductive ErrCode where
  | none
  | protocol
  | unsupportedLength
  | queueOverflow
deriving DecidableEq, Repr

/-- A parsed header: what ParseHeader returns (R112). `hl` is doc00's byteOffset (R89). -/
structure Header where
  fin : Bool
  rsv1 : Bool
  rsv2 : Bool
  rsv3 : Bool
  opcode : Nibble
  mask : Bool
  payloadLen : BitVec 32
  key : Key
  hl : Nibble
deriving DecidableEq, Repr

/-- The PendingPartialFrame: the P registers of R22 and the raw bytes so far, `RB` (R25). -/
structure PPF where
  fin : Bool
  rsv1 : Bool
  rsv2 : Bool
  rsv3 : Bool
  opcode : Nibble
  mask : Bool
  payloadLen : BitVec 32
  key : Key
  byteOffset : Nibble
  rb : List Byte
deriving DecidableEq, Repr

/-- A Frame, an element of `Q` (R28). The masking key is not a field of it. -/
structure Frame where
  fin : Bool
  rsv1 : Bool
  rsv2 : Bool
  rsv3 : Bool
  opcode : Nibble
  mask : Bool
  payloadLen : BitVec 32
  payload : List Byte
  frameLen : BitVec 33
deriving DecidableEq, Repr

/-- An error with the information returned beside it (R200, R210): byte 0 and the closure status code of the configuration,
the two length halves, or the code only. -/
inductive ErrorInfo where
  | protocol (b0 : Byte) (closeCode : Option Nat)
  | unsupportedLength (hi lo : BitVec 32)
  | queueOverflow
deriving DecidableEq, Repr

/-- The refusals of R219: results of an operation that changes no state. -/
inductive RefuseReason where
  | dead
  | chunkTooLong
  | shortInput
  | encodeOpcodeUnsupported
  | encodeLengthUnsupported
deriving DecidableEq, Repr

/-- The result of the last operation, as its port delivers it (R62). `noneYet` stands before the first operation. -/
inductive Result where
  | noneYet
  | done
  | ok
  | remainder (rem : List Byte)
  | frames (fs : List Frame)
  | status (st : BitVec 2) (err : BitVec 2) (qcount : Nat)
  | bytes (out : List Byte)
  | error (e : ErrorInfo)
  | refused (why : RefuseReason)
deriving DecidableEq, Repr

/-- Why the machine stops. Neither is reached from a state that meets the invariant of R34 (Sys2Proof/Safety.lean). -/
inductive Fault where
  /-- Raised by DECODE and FEED in `ST` = AWAIT_PAY with the P registers absent: R24 lets no operation read an absent register and
  R34 rules the state out. Safe: a stop where no hardware state exists (notes/assumptions/10.md). -/
  | ppfAbsent
  /-- Raised by FEED if its loop outlasted its bound, which R122 shows it never does. Safe (notes/assumptions/11.md). -/
  | feedBound
deriving DecidableEq, Repr

/-- Why an instruction has no meaning. -/
inductive Refusal where
  /-- An arm of exec with no meaning yet. Safe. No arm of this model is in that case. -/
  | notModelled (mnemonic : String)
  /-- Raised by CREATEFRAME and the ENC rows when `ENC_PRESENT` is false: R166 has the operation only "when ENC_PRESENT". Safe
  (notes/assumptions/12.md). -/
  | encoderAbsent
deriving DecidableEq, Repr

/-- Everything the spec gives one instance (R20: `ST`, `ERR`, the P registers and `RB`, `HB`, `Q`), its configuration (R8), and its
ports: the buffer space `IN` (R50), the operations the host has issued and the block has not yet run, in order (R67), and the
result of the last one (R62). -/
structure State where
  /-- The parameters of R8; no operation writes them (R33). -/
  cfg : Config
  /-- `ST` (R21). -/
  st : DecState
  /-- `ERR` (R30). -/
  err : ErrCode
  /-- `HB`, the header staging buffer (R26). -/
  hb : List Byte
  /-- The P registers and `RB`, absent outside AWAIT_PAY (R22, R24). -/
  ppf : Option PPF
  /-- `Q`, oldest Frame first (R27). -/
  q : List Frame
  /-- `IN`, the bytes given to the current DECODE and not yet consumed (R50); empty between operations (R33). -/
  inp : List Byte
  /-- The host's operations, in the order it issues them (R67). -/
  pending : List HostOp
  /-- The result of the last operation (R62). -/
  result : Result
deriving DecidableEq, Repr

/-- The state at power-on and after RESET (R38, R231), with the default parameters of R8 and no operation issued. -/
def State.reset : State where
  cfg := {}
  st := .idle
  err := .none
  hb := []
  ppf := none
  q := []
  inp := []
  pending := []
  result := .noneYet

/-- How an operation of this machine ends. -/
abbrev Out := Host.Outcome State Fault Refusal

end Sys2Proof.Machine
end

