-- ==== Sys2Proof/Machine/Flags.lean ====
section
/-! DEFINITION. The status codes. The block has no condition codes; its only flag-like state is `ERR`, and the status view shows
`ST` and `ERR` by the codes of R21 and R30 (R31, R35). -/

namespace Sys2Proof.Machine

open Sys2Proof

/-- The code of `ST` in the status view (R21). -/
def stCode : DecState → BitVec 2
  | .idle => 0#2
  | .awaitHdr => 1#2
  | .awaitPay => 2#2
  | .error => 3#2

/-- The code of `ERR` in the status view (R30). -/
def errBits : ErrCode → BitVec 2
  | .none => 0#2
  | .protocol => 1#2
  | .unsupportedLength => 2#2
  | .queueOverflow => 3#2

/-- What an error latches in `ERR` (R200). -/
def errorCode : ErrorInfo → ErrCode
  | .protocol _ _ => .protocol
  | .unsupportedLength _ _ => .unsupportedLength
  | .queueOverflow => .queueOverflow

/-- The status record: `(x[ST], x[ERR], |Q|)` (R35, R165). -/
def statusView (s : State) : Result := .status (stCode s.st) (errBits s.err) s.q.length

end Sys2Proof.Machine
end

