-- ==== Sys2Proof/WellFormed.lean ====
section
/-! DEFINITION. Which terms of Instr stand for an encoding of their row: the constraints that R83 and R100 put beside the
mask and the match of a row. -/

namespace Sys2Proof

/-- The S7 formats carry LEN7 0 .. 125; 126 and 127 select an extended length (R82, R83). -/
def HdrForm.wf : HdrForm → Bool
  | .s7u len7 => decide (len7.toNat ≤ 125)
  | .s7m len7 _ => decide (len7.toNat ≤ 125)
  | .e16u _ => true
  | .e16m _ _ => true
  | .e64u _ => true
  | .e64m _ _ => true

/-- Well-formed instructions. The ILL.RSV rows of the table overlap (a byte may have several RSV bits set); each byte stands under
the row of its highest RSV bit, which is the model's choice (notes/assumptions/6.md). Host operations take any operand. -/
def Instr.wf : Instr → Bool
  | .hdrS7U _ _ len7 => decide (len7.toNat ≤ 125)
  | .hdrS7M _ _ len7 _ => decide (len7.toNat ≤ 125)
  | .hdrE16U _ _ _ => true
  | .hdrE16M _ _ _ _ => true
  | .hdrE64U _ _ _ => true
  | .hdrE64M _ _ _ _ => true
  | .frameCont _ form => form.wf
  | .frameText _ form => form.wf
  | .frameBin _ form => form.wf
  | .frameRsvd3 _ form => form.wf
  | .frameRsvd4 _ form => form.wf
  | .frameRsvd5 _ form => form.wf
  | .frameRsvd6 _ form => form.wf
  | .frameRsvd7 _ form => form.wf
  | .frameClose _ form => form.wf
  | .framePing _ form => form.wf
  | .framePong _ form => form.wf
  | .frameRsvdB _ form => form.wf
  | .frameRsvdC _ form => form.wf
  | .frameRsvdD _ form => form.wf
  | .frameRsvdE _ form => form.wf
  | .frameRsvdF _ form => form.wf
  | .illRsv1 b0 => decide (b0 &&& 0x40#8 = 0x40#8)
  | .illRsv2 b0 => decide (b0 &&& 0x60#8 = 0x20#8)
  | .illRsv3 b0 => decide (b0 &&& 0x70#8 = 0x10#8)
  | .illE64Hi _ _ _ hi _ => decide (hi ≠ 0#32)
  | .encTextFin _ => true
  | .encTextNonfin _ => true
  | .encBinFin _ => true
  | .encBinNonfin _ => true
  | .reset => true
  | .feed _ => true
  | .decode _ => true
  | .qread => true
  | .qclear => true
  | .drain => true
  | .status => true
  | .unmask _ _ _ => true
  | .createFrame _ _ _ => true

end Sys2Proof
end

