-- ==== Sys2Proof/Decode.lean ====
section
/-! DEFINITION. Decoding, total on any bytes, and the encoder written from the same tables (R81 to R89, R100, R102). The bit-field
and byte-order helpers stand here too. -/

namespace Sys2Proof

/-! ## Bit fields and byte order -/

/-- `FIN`: bit 7 of byte 0 (R81). -/
def finOf (b0 : Byte) : Bool := b0.getLsbD 7
/-- `RSV1`: bit 6 of byte 0 (R81). -/
def rsv1Of (b0 : Byte) : Bool := b0.getLsbD 6
/-- `RSV2`: bit 5 of byte 0 (R81). -/
def rsv2Of (b0 : Byte) : Bool := b0.getLsbD 5
/-- `RSV3`: bit 4 of byte 0 (R81). -/
def rsv3Of (b0 : Byte) : Bool := b0.getLsbD 4
/-- `OPCODE`: bits 3-0 of byte 0 (R81). -/
def opcodeOf (b0 : Byte) : Nibble := b0.setWidth 4
/-- `MASK`: bit 7 of byte 1 (R82). -/
def maskOf (b1 : Byte) : Bool := b1.getLsbD 7
/-- `LEN7`: bits 6-0 of byte 1 (R82). -/
def len7Of (b1 : Byte) : BitVec 7 := b1.setWidth 7

/-- `be16`: the first byte on the wire is the most significant (R12, R53). -/
def be16 (a b : Byte) : BitVec 16 := a ++ b
/-- `be32`: big-endian, first byte most significant (R12, R54). -/
def be32 (a b c d : Byte) : BitVec 32 := a ++ b ++ c ++ d

/-- Byte 0 of a legal header: `F 0 0 0 O O O O` (R84). -/
def byte0 (fin : Bool) (opcode : Nibble) : Byte := BitVec.ofBool fin ++ 0#3 ++ opcode
/-- Byte 1: `M L L L L L L L` (R84). -/
def byte1 (mask : Bool) (len7 : BitVec 7) : Byte := BitVec.ofBool mask ++ len7
/-- The two bytes of a 16-bit field, most significant first (R84). -/
def bytes16 (v : BitVec 16) : List Byte := [v.extractLsb' 8 8, v.extractLsb' 0 8]
/-- The four bytes of a 32-bit field, most significant first (R84). -/
def bytes32 (v : BitVec 32) : List Byte :=
  [v.extractLsb' 24 8, v.extractLsb' 16 8, v.extractLsb' 8 8, v.extractLsb' 0 8]

/-- The all-zero key an unmasked frame has (R88). -/
def zeroKey : Key := ⟨0#8, 0#8, 0#8, 0#8⟩
/-- The key as it stands on the wire (R55). -/
def keyBytes (k : Key) : List Byte := [k.k0, k.k1, k.k2, k.k3]
/-- `maskingKey[i mod 4]` (R55, R150). -/
def keyAt (k : Key) (i : Nat) : Byte :=
  match i % 4 with
  | 0 => k.k0
  | 1 => k.k1
  | 2 => k.k2
  | _ => k.k3

/-! ## The decoder -/

/-- What the bytes after byte 0 say (R102): more are needed, the upper length half is nonzero, or a format with its fields. -/
inductive FormResult where
  | needMore
  | illegalHi (mask : Bool) (hi lo : BitVec 32) (rest : List Byte)
  | form (f : HdrForm) (rest : List Byte)
deriving DecidableEq, Repr

/-- Four key bytes at the front of the sequence, or none while they are not all present. -/
def takeKey : List Byte → Option (Key × List Byte)
  | k0 :: k1 :: k2 :: k3 :: rest => some (⟨k0, k1, k2, k3⟩, rest)
  | _ => none

/-- The format once its length field is read: unmasked as it is, masked once the key is present (R83, R88). -/
def decodeKey (mask : Bool) (plain : HdrForm) (masked : Key → HdrForm) (t : List Byte) : FormResult :=
  if mask then
    match takeKey t with
    | some (k, rest) => .form (masked k) rest
    | none => .needMore
  else .form plain t

/-- Byte 1 and what follows it: the E16 and E64 rows are tested before the S7 rows (R100). -/
def decodeForm : List Byte → FormResult
  | [] => .needMore
  | b1 :: t =>
    if len7Of b1 = 126#7 then
      match t with
      | e1 :: e0 :: t' => decodeKey (maskOf b1) (.e16u (be16 e1 e0)) (.e16m (be16 e1 e0)) t'
      | _ => .needMore
    else if len7Of b1 = 127#7 then
      match t with
      | h3 :: h2 :: h1 :: h0 :: l3 :: l2 :: l1 :: l0 :: t' =>
        if be32 h3 h2 h1 h0 ≠ 0#32 then
          .illegalHi (maskOf b1) (be32 h3 h2 h1 h0) (be32 l3 l2 l1 l0) t'
        else decodeKey (maskOf b1) (.e64u (be32 l3 l2 l1 l0)) (.e64m (be32 l3 l2 l1 l0)) t'
      | _ => .needMore
    else decodeKey (maskOf b1) (.s7u (len7Of b1)) (.s7m (len7Of b1)) t

/-- The row of group (1) for a format (R83). -/
def hdrInstr (fin : Bool) (opcode : Nibble) : HdrForm → Instr
  | .s7u len7 => .hdrS7U fin opcode len7
  | .s7m len7 key => .hdrS7M fin opcode len7 key
  | .e16u len => .hdrE16U fin opcode len
  | .e16m len key => .hdrE16M fin opcode len key
  | .e64u lo => .hdrE64U fin opcode lo
  | .e64m lo key => .hdrE64M fin opcode lo key

/-- The row of group (2) for an opcode (R90, R91). -/
def frameInstr (fin : Bool) (opcode : Nibble) (form : HdrForm) : Instr :=
  match opcode.toNat with
  | 0 => .frameCont fin form
  | 1 => .frameText fin form
  | 2 => .frameBin fin form
  | 3 => .frameRsvd3 fin form
  | 4 => .frameRsvd4 fin form
  | 5 => .frameRsvd5 fin form
  | 6 => .frameRsvd6 fin form
  | 7 => .frameRsvd7 fin form
  | 8 => .frameClose fin form
  | 9 => .framePing fin form
  | 10 => .framePong fin form
  | 11 => .frameRsvdB fin form
  | 12 => .frameRsvdC fin form
  | 13 => .frameRsvdD fin form
  | 14 => .frameRsvdE fin form
  | _ => .frameRsvdF fin form

/-- The answer of a decoder: nothing there, a header of which bytes are missing (R102), or an instruction and the bytes after it. -/
inductive Decoded where
  | nothing
  | needMore
  | instr (i : Instr) (rest : List Byte)
deriving DecidableEq, Repr

/-- One header, read in the order of R102: the RSV rows need byte 0 alone, the format rows byte 1 and what it calls for.
`row` names a legal header, by its format or by its opcode. -/
def decodeWith (row : Bool → Nibble → HdrForm → Instr) : List Byte → Decoded
  | [] => .nothing
  | b0 :: t =>
    if rsv1Of b0 then .instr (.illRsv1 b0) t
    else if rsv2Of b0 then .instr (.illRsv2 b0) t
    else if rsv3Of b0 then .instr (.illRsv3 b0) t
    else match decodeForm t with
      | .needMore => .needMore
      | .illegalHi mask hi lo rest => .instr (.illE64Hi (finOf b0) (opcodeOf b0) mask hi lo) rest
      | .form f rest => .instr (row (finOf b0) (opcodeOf b0) f) rest

/-- The header at the front of a byte sequence, named by its format: groups (3) and (1) of R100. -/
def decodeHeader (S : List Byte) : Decoded := decodeWith hdrInstr S

/-- The same header, named by its opcode: groups (3) and (2) of R100. -/
def decodeOpcode (S : List Byte) : Decoded := decodeWith frameInstr S

/-- The encoder row whose byte 0 this is, with the payload that goes with it (R176); any other byte is none of the four. -/
def decodeEncByte (b : Byte) (payload : List Byte) : Option Instr :=
  if b = 0x81#8 then some (.encTextFin payload)
  else if b = 0x01#8 then some (.encTextNonfin payload)
  else if b = 0x82#8 then some (.encBinFin payload)
  else if b = 0x02#8 then some (.encBinNonfin payload)
  else none

/-- The instruction a host operation is: it has no bit encoding (R100), so the port's transaction names it (R62). -/
def issue : HostOp → Instr
  | .reset => .reset
  | .feed chunk => .feed chunk
  | .decode chunk => .decode chunk
  | .qread => .qread
  | .qclear => .qclear
  | .drain => .drain
  | .status => .status
  | .unmask rawPayload payloadLen maskingKey => .unmask rawPayload payloadLen maskingKey
  | .createFrame payload opcode fin => .createFrame payload opcode fin

/-! ## The encoder -/

/-- Bytes 1 .. HL-1 of a header, from the layouts of R84. -/
def formBytes : HdrForm → List Byte
  | .s7u len7 => [byte1 false len7]
  | .s7m len7 key => byte1 true len7 :: keyBytes key
  | .e16u len => byte1 false 126#7 :: bytes16 len
  | .e16m len key => byte1 true 126#7 :: (bytes16 len ++ keyBytes key)
  | .e64u lo => byte1 false 127#7 :: (bytes32 0#32 ++ bytes32 lo)
  | .e64m lo key => byte1 true 127#7 :: (bytes32 0#32 ++ (bytes32 lo ++ keyBytes key))

/-- A whole legal header on the wire (R80, R84). -/
def headerBytes (fin : Bool) (opcode : Nibble) (form : HdrForm) : List Byte := byte0 fin opcode :: formBytes form

/-- The words of an instruction. A host operation has none (R100); an encoder row has the one byte it puts first (R176). -/
def encode : Instr → List Byte
  | .hdrS7U fin opcode len7 => headerBytes fin opcode (.s7u len7)
  | .hdrS7M fin opcode len7 key => headerBytes fin opcode (.s7m len7 key)
  | .hdrE16U fin opcode len => headerBytes fin opcode (.e16u len)
  | .hdrE16M fin opcode len key => headerBytes fin opcode (.e16m len key)
  | .hdrE64U fin opcode lo => headerBytes fin opcode (.e64u lo)
  | .hdrE64M fin opcode lo key => headerBytes fin opcode (.e64m lo key)
  | .frameCont fin form => headerBytes fin 0x0#4 form
  | .frameText fin form => headerBytes fin 0x1#4 form
  | .frameBin fin form => headerBytes fin 0x2#4 form
  | .frameRsvd3 fin form => headerBytes fin 0x3#4 form
  | .frameRsvd4 fin form => headerBytes fin 0x4#4 form
  | .frameRsvd5 fin form => headerBytes fin 0x5#4 form
  | .frameRsvd6 fin form => headerBytes fin 0x6#4 form
  | .frameRsvd7 fin form => headerBytes fin 0x7#4 form
  | .frameClose fin form => headerBytes fin 0x8#4 form
  | .framePing fin form => headerBytes fin 0x9#4 form
  | .framePong fin form => headerBytes fin 0xA#4 form
  | .frameRsvdB fin form => headerBytes fin 0xB#4 form
  | .frameRsvdC fin form => headerBytes fin 0xC#4 form
  | .frameRsvdD fin form => headerBytes fin 0xD#4 form
  | .frameRsvdE fin form => headerBytes fin 0xE#4 form
  | .frameRsvdF fin form => headerBytes fin 0xF#4 form
  | .illRsv1 b0 => [b0]
  | .illRsv2 b0 => [b0]
  | .illRsv3 b0 => [b0]
  | .illE64Hi fin opcode mask hi lo => byte0 fin opcode :: byte1 mask 127#7 :: (bytes32 hi ++ bytes32 lo)
  | .encTextFin _ => [0x81#8]
  | .encTextNonfin _ => [0x01#8]
  | .encBinFin _ => [0x82#8]
  | .encBinNonfin _ => [0x02#8]
  | .reset => []
  | .feed _ => []
  | .decode _ => []
  | .qread => []
  | .qclear => []
  | .drain => []
  | .status => []
  | .unmask _ _ _ => []
  | .createFrame _ _ _ => []

/-! ## The table's words -/

/-- `n` big-endian 16-bit words, the first from the least significant bits (the table's `w = S[0]*256 + S[1]`). -/
def wordsToBytes : Nat → Nat → List Byte
  | 0, _ => []
  | n + 1, w => BitVec.ofNat 8 (w / 256) :: BitVec.ofNat 8 w :: wordsToBytes n (w / 65536)

/-- The bytes of a table word of `nbits` bits, every bit above them 0, as long as the longest header, 14 bytes (R89):
the byte-0 rows are one byte, the format rows one 16-bit word `S[0]*256 + S[1]`. -/
def tableBytes (nbits w : Nat) : List Byte :=
  if nbits ≤ 8 then BitVec.ofNat 8 (w % 2 ^ nbits) :: List.replicate 13 0#8
  else wordsToBytes 7 (w % 2 ^ nbits)

/-- The instruction of a table word. A row of 8 bits is a row over byte 0, so the header is named by its opcode; a row of 16 bits
is a format row, so it is named by its format (notes/assumptions/7.md). -/
def decodeTableWord (nbits w : Nat) : Option Instr :=
  match (if nbits ≤ 8 then decodeOpcode (tableBytes nbits w) else decodeHeader (tableBytes nbits w)) with
  | .instr i _ => some i
  | .needMore => none
  | .nothing => none

end Sys2Proof
end

