-- ==== Sys2Proof/Machine/Operands.lean ====
section
/-! DEFINITION. The operand forms: the header fields a format stands for (R83 to R89), ParseHeader over the parse view (R112), and
the masking transform on a byte sequence (R150). -/

namespace Sys2Proof.Machine

open Sys2Proof

/-- The header record a format assembles: length by R85 to R87, key by R88, `HL` by R89; the RSV bits of a legal header are 0. -/
def formHeader (fin : Bool) (opcode : Nibble) : HdrForm → Header
  | .s7u len7 => ⟨fin, false, false, false, opcode, false, len7.setWidth 32, zeroKey, 2#4⟩
  | .s7m len7 key => ⟨fin, false, false, false, opcode, true, len7.setWidth 32, key, 6#4⟩
  | .e16u len => ⟨fin, false, false, false, opcode, false, len.setWidth 32, zeroKey, 4#4⟩
  | .e16m len key => ⟨fin, false, false, false, opcode, true, len.setWidth 32, key, 8#4⟩
  | .e64u lo => ⟨fin, false, false, false, opcode, false, lo, zeroKey, 10#4⟩
  | .e64m lo key => ⟨fin, false, false, false, opcode, true, lo, key, 14#4⟩

/-! ## ParseHeader -/

/-- What ParseHeader answers (R112). -/
inductive Parsed where
  | incomplete
  | error (e : ErrorInfo)
  | header (h : Header)
deriving DecidableEq, Repr

/-- `S[i]`; only read where `i < |S|`. -/
def byteAt (S : List Byte) (i : Nat) : Byte := S.getD i 0#8

/-- What steps 3 and 4 answer: the true length and the offset after the length field (R112). -/
inductive LengthField where
  | incomplete
  | error (e : ErrorInfo)
  | known (payloadLen : BitVec 32) (off : Nat)
deriving DecidableEq, Repr

/-- Steps 3 and 4 of ParseHeader (R85, R86, R87, R112). -/
def lengthField (S : List Byte) (len7 : BitVec 7) : LengthField :=
  if len7 = 126#7 then
    if S.length < 4 then .incomplete
    else .known ((be16 (byteAt S 2) (byteAt S 3)).setWidth 32) 4
  else if len7 = 127#7 then
    if S.length < 10 then .incomplete
    else
      let hi := be32 (byteAt S 2) (byteAt S 3) (byteAt S 4) (byteAt S 5)
      let lo := be32 (byteAt S 6) (byteAt S 7) (byteAt S 8) (byteAt S 9)
      if hi ≠ 0#32 then .error (.unsupportedLength hi lo) else .known lo 10
  else .known (len7.setWidth 32) 2

/-- Step 5 and the header record (R88, R112): `off` is the offset after the length field. -/
def keyField (S : List Byte) (b0 : Byte) (mask : Bool) (payloadLen : BitVec 32) (off : Nat) : Parsed :=
  if mask then
    if S.length < off + 4 then .incomplete
    else .header ⟨finOf b0, rsv1Of b0, rsv2Of b0, rsv3Of b0, opcodeOf b0, mask, payloadLen,
      ⟨byteAt S off, byteAt S (off + 1), byteAt S (off + 2), byteAt S (off + 3)⟩, BitVec.ofNat 4 (off + 4)⟩
  else .header ⟨finOf b0, rsv1Of b0, rsv2Of b0, rsv3Of b0, opcodeOf b0, mask, payloadLen, zeroKey, BitVec.ofNat 4 off⟩

/-- ParseHeader, step by step as R112 writes it: each step runs only when all the bytes it reads are present, and the capacity check
stands between the length and the key. Precondition `|S| >= 1`. -/
def parseHeader (cfg : Config) (S : List Byte) : Parsed :=
  let b0 := byteAt S 0
  if rsv1Of b0 || rsv2Of b0 || rsv3Of b0 then .error (.protocol b0 cfg.protocolErrorCloseCode)
  else if S.length < 2 then .incomplete
  else
    let b1 := byteAt S 1
    match lengthField S (len7Of b1) with
    | .incomplete => .incomplete
    | .error e => .error e
    | .known payloadLen off =>
      if cfg.payloadCap < payloadLen.toNat then .error (.unsupportedLength 0#32 payloadLen)
      else keyField S b0 (maskOf b1) payloadLen off

/-! ## The masking transform -/

/-- XOR with the key, the index of the first byte being `i` (R150). -/
def xorFrom (k : Key) : Nat → List Byte → List Byte
  | _, [] => []
  | i, b :: bs => (b ^^^ keyAt k i) :: xorFrom k (i + 1) bs

/-- UNMASK on an input that is long enough: the first `payloadLen` bytes, XORed with the key from index 0; the bytes beyond are
ignored (R150, R151). -/
def unmaskBytes (raw : List Byte) (payloadLen : Nat) (k : Key) : List Byte := xorFrom k 0 (raw.take payloadLen)

end Sys2Proof.Machine
end

