-- ==== Sys2Proof/Machine/Ops.lean ====
section
/-! DEFINITION. The operations the meanings share: buffer access (R13), answering and refusing (R219), raising an error (R206) and
leaving it (R230), and the parts of DECODE: StartFrame, SavePartial, EmitFrame, ContinuePayload (R111 to R118). -/

namespace Sys2Proof.Machine

open Sys2Proof

/-! ## Buffer access -/

/-- `MemRead(B, a, n)`: the bytes at offsets `a .. a+n-1`; only used where `a + n <= B.len` (R13). -/
def memRead (B : List Byte) (a n : Nat) : List Byte := (B.drop a).take n

/-- `MemWrite(B, a, |v|, v)`: write at offset `a`; at the buffer's length this appends (R13). -/
def memWrite (B : List Byte) (a : Nat) (v : List Byte) : List Byte := B.take a ++ v ++ B.drop (a + v.length)

/-! ## Answers -/

/-- An operation that does not read `IN` delivers its result. -/
def State.reply (r : Result) (s : State) : State := { s with result := r }

/-- A decode operation delivers its result; `IN` does not outlive it (R33). -/
def State.answer (r : Result) (s : State) : State := { s with inp := [], result := r }

/-! ## Errors: entry and return -/

/-- Taking an error: what `raise` does (R206). -/
def State.raised (e : ErrorInfo) (s : State) : State :=
  { s with err := errorCode e, st := .error, hb := [], ppf := none, inp := [], result := .error e }

/-- `raise E(info)`: the operation ends in the ERROR state with no remainder; `Q` is left as it is (R206). -/
def raise (e : ErrorInfo) (s : State) : Out := .next (s.raised e)

/-- The return: only RESET leaves ERROR, and it empties `Q` (R208, R230). The parameters stay (R33); so do the operations issued
after it (R67). -/
def State.restarted (s : State) : State :=
  { s with st := .idle, err := .none, hb := [], ppf := none, q := [], inp := [], result := .done }

/-! ## State changes of DECODE -/

/-- `HB <- S ; x[ST] <- AWAIT_HDR` (R113). -/
def State.held (S : List Byte) (s : State) : State := { s with hb := S, st := .awaitHdr }

/-- `HB <- []`: the held header bytes are consumed; what follows the header is left in `IN` (R111). -/
def State.headerTaken (rest : List Byte) (s : State) : State := { s with hb := [], inp := rest }

/-- The PPF is created (R115). -/
def State.saved (p : PPF) (s : State) : State := { s with ppf := some p, st := .awaitPay }

/-- More raw bytes of the pending frame (R117). -/
def State.buffered (p : PPF) (s : State) : State := { s with ppf := some p }

/-- The PPF is destroyed (R118). -/
def State.ppfDestroyed (s : State) : State := { s with ppf := none }

/-- `Q.push(f) ; x[ST] <- IDLE` (R116). -/
def State.pushed (f : Frame) (s : State) : State := { s with q := s.q ++ [f], st := .idle }

/-- `Q <- []` (R161). -/
def State.cleared (s : State) : State := { s with q := [] }

/-! ## Emission and saving -/

/-- `Q` holds `QUEUE_CAP` Frames (R116). -/
def queueFull (s : State) : Bool :=
  match s.cfg.queueCap with
  | none => false
  | some c => decide (c ≤ s.q.length)

/-- `IN.len > CHUNK_MAX` (R110). -/
def chunkTooLong (cfg : Config) (chunk : List Byte) : Bool :=
  match cfg.chunkMax with
  | none => false
  | some m => decide (m < chunk.length)

/-- The Frame of a header and its complete raw payload: unmasked when `mask` is 1, `frameLen = HL + payloadLen` in 33 bits
(R116, R127, R156). -/
def frameOf (h : Header) (raw : List Byte) : Frame where
  fin := h.fin
  rsv1 := false
  rsv2 := false
  rsv3 := false
  opcode := h.opcode
  mask := h.mask
  payloadLen := h.payloadLen
  payload := if h.mask then unmaskBytes raw h.payloadLen.toNat h.key else raw
  frameLen := h.hl.setWidth 33 + h.payloadLen.setWidth 33

/-- EmitFrame (R116). -/
def emitFrame (h : Header) (raw rem : List Byte) (s : State) : Out :=
  if queueFull s then raise .queueOverflow s
  else .next ((s.pushed (frameOf h raw)).answer (.remainder rem))

/-- The P registers a header fills, all together (R24, R115). -/
def ppfOf (h : Header) (raw : List Byte) : PPF :=
  ⟨h.fin, h.rsv1, h.rsv2, h.rsv3, h.opcode, h.mask, h.payloadLen, h.key, h.hl, raw⟩

/-- The header the P registers hold (R118). -/
def headerOf (p : PPF) : Header :=
  ⟨p.fin, p.rsv1, p.rsv2, p.rsv3, p.opcode, p.mask, p.payloadLen, p.key, p.byteOffset⟩

/-- SavePartial (R115). -/
def savePartial (h : Header) (raw : List Byte) (s : State) : Out :=
  .next ((s.saved (ppfOf h raw)).answer (.remainder []))

/-- The payload region of a complete header, `rest` being the bytes after it: `min(payloadLen, avail)` bytes are the raw payload
and the rest is the remainder (R111, R114). -/
def acceptHeader (h : Header) (rest : List Byte) (s : State) : Out :=
  let n := min h.payloadLen.toNat rest.length
  if n < h.payloadLen.toNat then savePartial h (rest.take n) (s.headerTaken rest)
  else emitFrame h (rest.take n) (rest.drop n) (s.headerTaken rest)

/-! ## DECODE by state -/

/-- StartFrame, over the parse view `S = HB ++ IN` (R52, R111). -/
def startFrame (s : State) : Out :=
  let S := memRead s.hb 0 s.hb.length ++ s.inp
  if S = [] then .next (s.answer (.remainder []))
  else match parseHeader s.cfg S with
    | .error e => raise e s
    | .incomplete => .next ((s.held S).answer (.remainder []))
    | .header h => acceptHeader h (S.drop h.hl.toNat) s

/-- ContinuePayload (R117, R118); `need` is doc00's remainingByteLen. -/
def continuePayload (p : PPF) (s : State) : Out :=
  let need := p.payloadLen.toNat - p.rb.length
  if s.inp.length < need then
    .next ((s.buffered { p with rb := memWrite p.rb p.rb.length s.inp }).answer (.remainder []))
  else
    emitFrame (headerOf p) (memRead p.rb 0 p.rb.length ++ s.inp.take need) (s.inp.drop need) s.ppfDestroyed

/-- The dispatch of DECODE on `ST`, the bytes standing in `IN` (R110). -/
def decodeIn (s : State) : Out :=
  match s.st with
  | .error => .next (s.answer (.refused .dead))
  | .awaitPay =>
    match s.ppf with
    | some p => continuePayload p s
    | none => .fault .ppfAbsent
  | .idle => startFrame s
  | .awaitHdr => startFrame s

/-- DECODE of an operand: `Dead` is tested before `ChunkTooLong`, and both before any parsing (R110, R205). -/
def decodeChunk (chunk : List Byte) (s : State) : Out :=
  if s.st = .error then .next (s.answer (.refused .dead))
  else if chunkTooLong s.cfg chunk then .next (s.answer (.refused .chunkTooLong))
  else decodeIn { s with inp := chunk }

/-- The loop of FEED: DECODE until the remainder is empty, an error or a refusal ending it (R121). The first argument bounds the
number of turns. -/
def feedLoop : Nat → List Byte → State → Out
  | 0, _, _ => .fault .feedBound
  | n + 1, r, s =>
    match decodeChunk r s with
    | .next s' =>
      match s'.result with
      | .remainder [] => .next (s'.reply .ok)
      | .remainder (b :: bs) => feedLoop n (b :: bs) s'
      | _ => .next s'
    | .fault f => .fault f
    | .refused f => .refused f

/-- More turns than any FEED takes: each one but the first two consumes a byte of `HB ++ chunk` (R122). -/
def feedTurns (chunk : List Byte) (s : State) : Nat := s.hb.length + chunk.length + 2

/-! ## The instructions of the byte stream -/

/-- The decoder meets the bytes of an instruction at the front of `IN`. At a frame boundary (`ST` = IDLE) it is the instruction
there and has its own effect; in any other state its bytes are what they are to DECODE there: header bytes after the held ones,
payload bytes, or refused (R111, R117, R119; notes/assumptions/5.md). -/
def deliver (bytes : List Byte) (atBoundary : State → Out) (s : State) : Out :=
  match s.st with
  | .idle => atBoundary s
  | .awaitHdr => decodeIn { s with inp := bytes ++ s.inp }
  | .awaitPay => decodeIn { s with inp := bytes ++ s.inp }
  | .error => decodeIn { s with inp := bytes ++ s.inp }

/-- A complete legal header at a frame boundary: the capacity check of ParseHeader, then the payload region, which is what stands
in `IN` (R111, R112). -/
def takeHeader (h : Header) (s : State) : Out :=
  if s.cfg.payloadCap < h.payloadLen.toNat then raise (.unsupportedLength 0#32 h.payloadLen) s
  else acceptHeader h s.inp s

/-- A frame of this opcode and format; no opcode is interpreted, all sixteen take this path (R91). -/
def frameWith (opcode : Nibble) (fin : Bool) (form : HdrForm) (s : State) : Out :=
  deliver (headerBytes fin opcode form) (takeHeader (formHeader fin opcode form)) s

/-! ## The encoder -/

/-- The bytes CREATEFRAME returns for a byte 0 and a payload of fewer than 256 bytes: the length check is `= 126` and nothing else
(R175, R177, R182). -/
def encoderBytes (b0 : Byte) (payload : List Byte) : List Byte :=
  if payload.length = 126 then [b0, 0x7E#8, 0x00#8, 0x7E#8] ++ payload
  else [b0, BitVec.ofNat 8 payload.length] ++ payload

/-- CREATEFRAME once byte 0 is chosen: lengths of 256 and more are refused (R183); without the encoder unit there is no such
operation (R166). -/
def encodeWith (b0 : Byte) (payload : List Byte) (s : State) : Out :=
  if s.cfg.encPresent then
    if 256 ≤ payload.length then .next (s.reply (.refused .encodeLengthUnsupported))
    else .next (s.reply (.bytes (encoderBytes b0 payload)))
  else .refused .encoderAbsent

/-- Byte 0 of the encoder's output: bit 7 is `fin`, the low bits are the opcode (R175, R176). -/
def encoderByte0 (opcode : Nibble) (fin : Bool) : Byte := (if fin then 0x80#8 else 0x00#8) + opcode.setWidth 8

end Sys2Proof.Machine
end

