-- ==== Sys2Proof/Machine/Control.lean ====
section
/-! DEFINITION. RESET (R230). -/

namespace Sys2Proof.Machine

open Sys2Proof

/-- RESET: allowed in every state, and the only operation that leaves ERROR (R208, R230). -/
def execReset (s : State) : Out := .next s.restarted

end Sys2Proof.Machine
end

