-- ==== Sys2Proof/Machine/Decoder.lean ====
section
/-! DEFINITION. The decode operations DECODE and FEED (R110, R121). -/

namespace Sys2Proof.Machine

open Sys2Proof

/-- DECODE: one invocation; its result is the remainder, an error or a refusal (R110). -/
def execDecode (chunk : List Byte) (s : State) : Out := decodeChunk chunk s

/-- FEED: DECODE until nothing is left (R121). -/
def execFeed (chunk : List Byte) (s : State) : Out := feedLoop (feedTurns chunk s) chunk s

end Sys2Proof.Machine
end

