-- ==== Sys2Proof/Machine/Encoder.lean ====
section
/-! DEFINITION. The frame encoder: CREATEFRAME and the four values of byte 0 it emits (R175, R176). It is stateless (R184): only the
result port changes. -/

namespace Sys2Proof.Machine

open Sys2Proof

/-- ENC.TEXT.FIN: CREATEFRAME with byte 0 = 0x81 (R176). -/
def execEncTextFin (payload : List Byte) (s : State) : Out := encodeWith 0x81#8 payload s

/-- ENC.TEXT.NONFIN: CREATEFRAME with byte 0 = 0x01 (R176). -/
def execEncTextNonfin (payload : List Byte) (s : State) : Out := encodeWith 0x01#8 payload s

/-- ENC.BIN.FIN: CREATEFRAME with byte 0 = 0x82 (R176). -/
def execEncBinFin (payload : List Byte) (s : State) : Out := encodeWith 0x82#8 payload s

/-- ENC.BIN.NONFIN: CREATEFRAME with byte 0 = 0x02 (R176). -/
def execEncBinNonfin (payload : List Byte) (s : State) : Out := encodeWith 0x02#8 payload s

/-- CREATEFRAME: the opcode check, then the length check, then the output (R175, R181, R183). Its refusals are results (R187). -/
def execCreateFrame (payload : List Byte) (opcode : Nibble) (fin : Bool) (s : State) : Out :=
  if s.cfg.encPresent = false then .refused .encoderAbsent
  else if opcode ≠ 0x1#4 ∧ opcode ≠ 0x2#4 then .next (s.reply (.refused .encodeOpcodeUnsupported))
  else encodeWith (encoderByte0 opcode fin) payload s

end Sys2Proof.Machine
end

