-- ==== Sys2Proof/Machine/Header.lean ====
section
/-! DEFINITION. The six header formats (R83): what the decoder does with a complete header of each, its payload region standing in
`IN`. -/

namespace Sys2Proof.Machine

open Sys2Proof

/-- HDR.S7U: length and key by R85, then the payload region (R111, R114). -/
def execHdrS7U (fin : Bool) (opcode : Nibble) (len7 : BitVec 7) (s : State) : Out :=
  deliver (encode (.hdrS7U fin opcode len7)) (takeHeader (formHeader fin opcode (.s7u len7))) s

/-- HDR.S7M: length and key by R85, R88, then the payload region (R111, R114). -/
def execHdrS7M (fin : Bool) (opcode : Nibble) (len7 : BitVec 7) (key : Key) (s : State) : Out :=
  deliver (encode (.hdrS7M fin opcode len7 key)) (takeHeader (formHeader fin opcode (.s7m len7 key))) s

/-- HDR.E16U: length and key by R86, then the payload region (R111, R114). -/
def execHdrE16U (fin : Bool) (opcode : Nibble) (len : BitVec 16) (s : State) : Out :=
  deliver (encode (.hdrE16U fin opcode len)) (takeHeader (formHeader fin opcode (.e16u len))) s

/-- HDR.E16M: length and key by R86, R88, then the payload region (R111, R114). -/
def execHdrE16M (fin : Bool) (opcode : Nibble) (len : BitVec 16) (key : Key) (s : State) : Out :=
  deliver (encode (.hdrE16M fin opcode len key)) (takeHeader (formHeader fin opcode (.e16m len key))) s

/-- HDR.E64U: length and key by R87, then the payload region (R111, R114). -/
def execHdrE64U (fin : Bool) (opcode : Nibble) (lo : BitVec 32) (s : State) : Out :=
  deliver (encode (.hdrE64U fin opcode lo)) (takeHeader (formHeader fin opcode (.e64u lo))) s

/-- HDR.E64M: length and key by R87, R88, then the payload region (R111, R114). -/
def execHdrE64M (fin : Bool) (opcode : Nibble) (lo : BitVec 32) (key : Key) (s : State) : Out :=
  deliver (encode (.hdrE64M fin opcode lo key)) (takeHeader (formHeader fin opcode (.e64m lo key))) s

end Sys2Proof.Machine
end

