-- ==== Sys2Proof/Machine/Illegal.lean ====
section
/-! DEFINITION. The illegal encodings: each raises an error at a frame boundary (R92, R93, R201, R202). -/

namespace Sys2Proof.Machine

open Sys2Proof

/-- ILL.RSV1: ProtocolError, with byte 0 and the closure status code in the result (R92, R200, R201, R210). -/
def execIllRsv1 (b0 : Byte) (s : State) : Out :=
  deliver (encode (.illRsv1 b0)) (raise (.protocol b0 s.cfg.protocolErrorCloseCode)) s

/-- ILL.RSV2: ProtocolError, with byte 0 and the closure status code in the result (R92, R200, R201, R210). -/
def execIllRsv2 (b0 : Byte) (s : State) : Out :=
  deliver (encode (.illRsv2 b0)) (raise (.protocol b0 s.cfg.protocolErrorCloseCode)) s

/-- ILL.RSV3: ProtocolError, with byte 0 and the closure status code in the result (R92, R200, R201, R210). -/
def execIllRsv3 (b0 : Byte) (s : State) : Out :=
  deliver (encode (.illRsv3 b0)) (raise (.protocol b0 s.cfg.protocolErrorCloseCode)) s

/-- ILL.E64HI: UnsupportedLengthError, with the two halves in the result (R93, R200, R202). -/
def execIllE64Hi (fin : Bool) (opcode : Nibble) (mask : Bool) (hi lo : BitVec 32) (s : State) : Out :=
  deliver (encode (.illE64Hi fin opcode mask hi lo)) (raise (.unsupportedLength hi lo)) s

end Sys2Proof.Machine
end

