-- ==== Sys2Proof/Machine/Masking.lean ====
section
/-! DEFINITION. The masking engine as the caller uses it (R150, R155). -/

namespace Sys2Proof.Machine

open Sys2Proof

/-- UNMASK: a pure function of its operands; a short input is refused with `ShortInput` (R150, R151, R155). -/
def execUnmask (rawPayload : List Byte) (payloadLen : BitVec 32) (maskingKey : Key) (s : State) : Out :=
  if rawPayload.length < payloadLen.toNat then .next (s.reply (.refused .shortInput))
  else .next (s.reply (.bytes (unmaskBytes rawPayload payloadLen.toNat maskingKey)))

end Sys2Proof.Machine
end

