-- ==== Sys2Proof/Machine/Opcode.lean ====
section
/-! DEFINITION. The sixteen opcodes (R90): each is a frame whose Frame carries that opcode unchanged; the decoder interprets none of
them (R91). -/

namespace Sys2Proof.Machine

open Sys2Proof

/-- FRAME.CONT: continuation (R90, R91, R116). -/
def execFrameCont (fin : Bool) (form : HdrForm) (s : State) : Out := frameWith 0x0#4 fin form s

/-- FRAME.TEXT: text (R90, R91, R116). -/
def execFrameText (fin : Bool) (form : HdrForm) (s : State) : Out := frameWith 0x1#4 fin form s

/-- FRAME.BIN: binary (R90, R91, R116). -/
def execFrameBin (fin : Bool) (form : HdrForm) (s : State) : Out := frameWith 0x2#4 fin form s

/-- FRAME.RSVD3: reserved, decoded and emitted like any other (R90, R91, R116). -/
def execFrameRsvd3 (fin : Bool) (form : HdrForm) (s : State) : Out := frameWith 0x3#4 fin form s

/-- FRAME.RSVD4: reserved, decoded and emitted like any other (R90, R91, R116). -/
def execFrameRsvd4 (fin : Bool) (form : HdrForm) (s : State) : Out := frameWith 0x4#4 fin form s

/-- FRAME.RSVD5: reserved, decoded and emitted like any other (R90, R91, R116). -/
def execFrameRsvd5 (fin : Bool) (form : HdrForm) (s : State) : Out := frameWith 0x5#4 fin form s

/-- FRAME.RSVD6: reserved, decoded and emitted like any other (R90, R91, R116). -/
def execFrameRsvd6 (fin : Bool) (form : HdrForm) (s : State) : Out := frameWith 0x6#4 fin form s

/-- FRAME.RSVD7: reserved, decoded and emitted like any other (R90, R91, R116). -/
def execFrameRsvd7 (fin : Bool) (form : HdrForm) (s : State) : Out := frameWith 0x7#4 fin form s

/-- FRAME.CLOSE: close (R90, R91, R116). -/
def execFrameClose (fin : Bool) (form : HdrForm) (s : State) : Out := frameWith 0x8#4 fin form s

/-- FRAME.PING: ping (R90, R91, R116). -/
def execFramePing (fin : Bool) (form : HdrForm) (s : State) : Out := frameWith 0x9#4 fin form s

/-- FRAME.PONG: pong (R90, R91, R116). -/
def execFramePong (fin : Bool) (form : HdrForm) (s : State) : Out := frameWith 0xA#4 fin form s

/-- FRAME.RSVDB: reserved, decoded and emitted like any other (R90, R91, R116). -/
def execFrameRsvdB (fin : Bool) (form : HdrForm) (s : State) : Out := frameWith 0xB#4 fin form s

/-- FRAME.RSVDC: reserved, decoded and emitted like any other (R90, R91, R116). -/
def execFrameRsvdC (fin : Bool) (form : HdrForm) (s : State) : Out := frameWith 0xC#4 fin form s

/-- FRAME.RSVDD: reserved, decoded and emitted like any other (R90, R91, R116). -/
def execFrameRsvdD (fin : Bool) (form : HdrForm) (s : State) : Out := frameWith 0xD#4 fin form s

/-- FRAME.RSVDE: reserved, decoded and emitted like any other (R90, R91, R116). -/
def execFrameRsvdE (fin : Bool) (form : HdrForm) (s : State) : Out := frameWith 0xE#4 fin form s

/-- FRAME.RSVDF: reserved, decoded and emitted like any other (R90, R91, R116). -/
def execFrameRsvdF (fin : Bool) (form : HdrForm) (s : State) : Out := frameWith 0xF#4 fin form s

end Sys2Proof.Machine
end

