-- ==== Sys2Proof/Machine/Queue.lean ====
section
/-! DEFINITION. The queue and status operations (R160 to R165): they are allowed in every state and write `Q` only (R164). -/

namespace Sys2Proof.Machine

open Sys2Proof

/-- QREAD: the Frames of `Q`, oldest first; `Q` stays (R160). -/
def execQread (s : State) : Out := .next (s.reply (.frames s.q))

/-- QCLEAR: `Q` is emptied (R161). -/
def execQclear (s : State) : Out := .next (s.cleared.reply .done)

/-- DRAIN: QREAD and QCLEAR in one operation (R162). -/
def execDrain (s : State) : Out := .next (s.cleared.reply (.frames s.q))

/-- STATUS: `(ST, ERR, QCOUNT)`, no side effect (R165). -/
def execStatus (s : State) : Out := .next (s.reply (statusView s))

end Sys2Proof.Machine
end

