-- ==== Sys2Proof/Machine/Dispatch.lean ====
section
/-! DEFINITION. One arm for each row of spec/opcode_table.json, in the table's order. -/

namespace Sys2Proof.Machine

open Sys2Proof

def exec (i : Instr) (s : State) : Host.Outcome State Fault Refusal :=
  match i with
  | .hdrS7U fin opcode len7 => Sys2Proof.Machine.execHdrS7U fin opcode len7 s
  | .hdrS7M fin opcode len7 key => Sys2Proof.Machine.execHdrS7M fin opcode len7 key s
  | .hdrE16U fin opcode len => Sys2Proof.Machine.execHdrE16U fin opcode len s
  | .hdrE16M fin opcode len key => Sys2Proof.Machine.execHdrE16M fin opcode len key s
  | .hdrE64U fin opcode lo => Sys2Proof.Machine.execHdrE64U fin opcode lo s
  | .hdrE64M fin opcode lo key => Sys2Proof.Machine.execHdrE64M fin opcode lo key s
  | .frameCont fin form => Sys2Proof.Machine.execFrameCont fin form s
  | .frameText fin form => Sys2Proof.Machine.execFrameText fin form s
  | .frameBin fin form => Sys2Proof.Machine.execFrameBin fin form s
  | .frameRsvd3 fin form => Sys2Proof.Machine.execFrameRsvd3 fin form s
  | .frameRsvd4 fin form => Sys2Proof.Machine.execFrameRsvd4 fin form s
  | .frameRsvd5 fin form => Sys2Proof.Machine.execFrameRsvd5 fin form s
  | .frameRsvd6 fin form => Sys2Proof.Machine.execFrameRsvd6 fin form s
  | .frameRsvd7 fin form => Sys2Proof.Machine.execFrameRsvd7 fin form s
  | .frameClose fin form => Sys2Proof.Machine.execFrameClose fin form s
  | .framePing fin form => Sys2Proof.Machine.execFramePing fin form s
  | .framePong fin form => Sys2Proof.Machine.execFramePong fin form s
  | .frameRsvdB fin form => Sys2Proof.Machine.execFrameRsvdB fin form s
  | .frameRsvdC fin form => Sys2Proof.Machine.execFrameRsvdC fin form s
  | .frameRsvdD fin form => Sys2Proof.Machine.execFrameRsvdD fin form s
  | .frameRsvdE fin form => Sys2Proof.Machine.execFrameRsvdE fin form s
  | .frameRsvdF fin form => Sys2Proof.Machine.execFrameRsvdF fin form s
  | .illRsv1 b0 => Sys2Proof.Machine.execIllRsv1 b0 s
  | .illRsv2 b0 => Sys2Proof.Machine.execIllRsv2 b0 s
  | .illRsv3 b0 => Sys2Proof.Machine.execIllRsv3 b0 s
  | .illE64Hi fin opcode mask hi lo => Sys2Proof.Machine.execIllE64Hi fin opcode mask hi lo s
  | .encTextFin payload => Sys2Proof.Machine.execEncTextFin payload s
  | .encTextNonfin payload => Sys2Proof.Machine.execEncTextNonfin payload s
  | .encBinFin payload => Sys2Proof.Machine.execEncBinFin payload s
  | .encBinNonfin payload => Sys2Proof.Machine.execEncBinNonfin payload s
  | .reset => Sys2Proof.Machine.execReset s
  | .feed chunk => Sys2Proof.Machine.execFeed chunk s
  | .decode chunk => Sys2Proof.Machine.execDecode chunk s
  | .qread => Sys2Proof.Machine.execQread s
  | .qclear => Sys2Proof.Machine.execQclear s
  | .drain => Sys2Proof.Machine.execDrain s
  | .status => Sys2Proof.Machine.execStatus s
  | .unmask rawPayload payloadLen maskingKey => Sys2Proof.Machine.execUnmask rawPayload payloadLen maskingKey s
  | .createFrame payload opcode fin => Sys2Proof.Machine.execCreateFrame payload opcode fin s

end Sys2Proof.Machine
end

