-- ==== Sys2Proof/Machine/Step.lean ====
section
/-! DEFINITION. The step: one host operation, carried out whole (R9, R59, R67). -/

namespace Sys2Proof.Machine

open Sys2Proof

/-- One step runs the oldest operation the host has issued (R67). With none issued the block holds its state (R217); an operation
it has no meaning for is not passed over (notes/assumptions/1.md). -/
def step (s : State) : Host.Outcome State Fault Refusal :=
  match s.pending with
  | [] => .next s
  | op :: rest => exec (issue op) { s with pending := rest }

/-- The bytes of a table word as the operand of the very next DECODE, the decoder standing at a frame boundary (R111), which is
where the instruction stream is decoded (R51). Nothing else changes (notes/assumptions/1.md). -/
def State.withFetchWord (s : State) (nbits w : Nat) : State :=
  { s with
    st := .idle
    err := .none
    hb := []
    ppf := none
    pending := .decode (tableBytes nbits w) :: s.pending }

end Sys2Proof.Machine
end

