-- ==== Sys2Proof/Safety.lean ====
section
/-! DEFINITION. The terms claims use: the invariant of R34, what two instances must agree on to be in the same state (R125), runs of
several FEEDs, and frames as they stand on the wire. -/

namespace Sys2Proof.Machine

open Sys2Proof

/-! ## The invariant of R34 -/

/-- The header length that the bytes held so far call for (R89): 2 until byte 1 is known, then `2 + EXT + 4 * MASK`. -/
def calledLength : List Byte → Nat
  | _ :: b1 :: _ =>
    2 + (if len7Of b1 = 126#7 then 2 else if len7Of b1 = 127#7 then 8 else 0) + (if maskOf b1 then 4 else 0)
  | _ => 2

/-- `hl` is the header length of a format that can carry this length with this mask bit (R83). -/
def legalHl (mask : Bool) (len : Nat) (hl : Nibble) : Prop :=
  match mask with
  | false => hl = 2#4 ∧ len ≤ 125 ∨ hl = 4#4 ∧ len ≤ 65535 ∨ hl = 10#4
  | true => hl = 6#4 ∧ len ≤ 125 ∨ hl = 8#4 ∧ len ≤ 65535 ∨ hl = 14#4

/-- A live PPF: the third row of R34's table. -/
structure PpfOk (cfg : Config) (p : PPF) : Prop where
  short : p.rb.length < p.payloadLen.toNat
  rsv1 : p.rsv1 = false
  rsv2 : p.rsv2 = false
  rsv3 : p.rsv3 = false
  offset : legalHl p.mask p.payloadLen.toNat p.byteOffset
  key : p.mask = false → p.key = zeroKey
  cap : p.payloadLen.toNat ≤ cfg.payloadCap

/-- A Frame in `Q` (R28, R29): `frameLen` is a legal header length plus `payloadLen`. -/
structure FrameOk (f : Frame) : Prop where
  length : f.payload.length = f.payloadLen.toNat
  rsv1 : f.rsv1 = false
  rsv2 : f.rsv2 = false
  rsv3 : f.rsv3 = false
  total : ∃ hl : Nibble, legalHl f.mask f.payloadLen.toNat hl ∧ f.frameLen.toNat = hl.toNat + f.payloadLen.toNat

/-- The invariant: the table of R34 row by row, the Frames of `Q` (R29), the bound of `Q` (R20), and that `IN` does not outlive an
operation (R33). -/
structure Inv (s : State) : Prop where
  idle : s.st = .idle → s.hb = [] ∧ s.ppf = none ∧ s.err = .none
  awaitHdr : s.st = .awaitHdr → 1 ≤ s.hb.length ∧ s.hb.length ≤ 13 ∧ s.hb.length < calledLength s.hb ∧
    parseHeader s.cfg s.hb = .incomplete ∧ s.ppf = none ∧ s.err = .none
  awaitPay : s.st = .awaitPay → s.hb = [] ∧ s.err = .none ∧ ∃ p, s.ppf = some p ∧ PpfOk s.cfg p
  error : s.st = .error → s.hb = [] ∧ s.ppf = none ∧ s.err ≠ .none
  frames : ∀ f ∈ s.q, FrameOk f
  depth : ∀ c, s.cfg.queueCap = some c → s.q.length ≤ c
  inp : s.inp = []

/-! ## Conditions and results in the spec's own terms -/

/-- `Q` holds fewer than `QUEUE_CAP` Frames (R116). -/
def Room (s : State) : Prop := ∀ c, s.cfg.queueCap = some c → s.q.length < c

/-- `Q` has room for `n` more Frames (R116). -/
def RoomFor (s : State) (n : Nat) : Prop := ∀ c, s.cfg.queueCap = some c → s.q.length + n ≤ c

/-- The operand is no longer than `CHUNK_MAX` (R110). -/
def Accepts (s : State) (chunk : List Byte) : Prop := ∀ m, s.cfg.chunkMax = some m → chunk.length ≤ m

/-- `out` is UNMASK of the first `n` bytes of `raw`: `out[i] = raw[i] XOR key[i mod 4]` for every `i < n`, and nothing more (R150). -/
structure IsUnmasked (key : Key) (raw : List Byte) (n : Nat) (out : List Byte) : Prop where
  length : out.length = n
  byte : ∀ i, i < n → out.getD i 0#8 = raw.getD i 0#8 ^^^ [key.k0, key.k1, key.k2, key.k3].getD (i % 4) 0#8

/-! ## Comparing instances -/

/-- The state R125 compares: `ST`, `ERR`, `HB`, the PPF with `RB`, and `Q`. -/
structure SameBlock (a b : State) : Prop where
  st : a.st = b.st
  err : a.err = b.err
  hb : a.hb = b.hb
  ppf : a.ppf = b.ppf
  q : a.q = b.q

/-- A sequence of chunks fed one after another by FEED (R121, R125). -/
def feedAll : List (List Byte) → State → Out
  | [], s => .next s
  | c :: cs, s =>
    match exec (.feed c) s with
    | .next s' => feedAll cs s'
    | .fault f => .fault f
    | .refused f => .refused f

/-- The turns of one FEED (R121): `FeedReaches r s r' s'` when FEED of `r` from `s` comes to run DECODE of `r'` from `s'`, every
DECODE before it having returned a remainder with bytes in it. -/
inductive FeedReaches : List Byte → State → List Byte → State → Prop where
  | start (r : List Byte) (s : State) : FeedReaches r s r s
  | turn {r r' : List Byte} {s u s' : State} {b : Byte} {bs : List Byte} (decoded : exec (.decode r) s = .next u)
      (left : u.result = .remainder (b :: bs)) (later : FeedReaches (b :: bs) u r' s') : FeedReaches r s r' s'

/-! ## Which rows the header decoder names -/

/-- The rows decodeHeader answers with: groups (1) and (3) of R100. -/
def headerRow : Instr → Bool
  | .hdrS7U .. | .hdrS7M .. | .hdrE16U .. | .hdrE16M .. | .hdrE64U .. | .hdrE64M .. => true
  | .illRsv1 .. | .illRsv2 .. | .illRsv3 .. | .illE64Hi .. => true
  | .frameCont .. | .frameText .. | .frameBin .. | .frameRsvd3 .. | .frameRsvd4 .. | .frameRsvd5 .. => false
  | .frameRsvd6 .. | .frameRsvd7 .. | .frameClose .. | .framePing .. | .framePong .. | .frameRsvdB .. => false
  | .frameRsvdC .. | .frameRsvdD .. | .frameRsvdE .. | .frameRsvdF .. => false
  | .encTextFin .. | .encTextNonfin .. | .encBinFin .. | .encBinNonfin .. => false
  | .reset | .feed .. | .decode .. | .qread | .qclear | .drain | .status | .unmask .. | .createFrame .. => false

/-- The rows decodeOpcode answers with: groups (2) and (3) of R100. -/
def opcodeRow : Instr → Bool
  | .frameCont .. | .frameText .. | .frameBin .. | .frameRsvd3 .. | .frameRsvd4 .. | .frameRsvd5 .. => true
  | .frameRsvd6 .. | .frameRsvd7 .. | .frameClose .. | .framePing .. | .framePong .. | .frameRsvdB .. => true
  | .frameRsvdC .. | .frameRsvdD .. | .frameRsvdE .. | .frameRsvdF .. => true
  | .illRsv1 .. | .illRsv2 .. | .illRsv3 .. | .illE64Hi .. => true
  | .hdrS7U .. | .hdrS7M .. | .hdrE16U .. | .hdrE16M .. | .hdrE64U .. | .hdrE64M .. => false
  | .encTextFin .. | .encTextNonfin .. | .encBinFin .. | .encBinNonfin .. => false
  | .reset | .feed .. | .decode .. | .qread | .qclear | .drain | .status | .unmask .. | .createFrame .. => false

/-! ## Frames on the wire -/

/-- A frame as it stands in the stream: a header of some format and a raw payload (R80). -/
structure WireFrame where
  fin : Bool
  opcode : Nibble
  form : HdrForm
  raw : List Byte
deriving DecidableEq, Repr

/-- The header record of a wire frame (R83). -/
def wireHeader (w : WireFrame) : Header := formHeader w.fin w.opcode w.form

/-- A complete frame: a legal header and exactly `payloadLen` payload bytes, no more than `PAYLOAD_CAP` (R80, R112). -/
structure WireOk (cfg : Config) (w : WireFrame) : Prop where
  form : w.form.wf = true
  length : w.raw.length = (wireHeader w).payloadLen.toNat
  cap : (wireHeader w).payloadLen.toNat ≤ cfg.payloadCap

/-- The bytes of a wire frame: header, then payload, and nothing else (R80). -/
def wireBytes (w : WireFrame) : List Byte := headerBytes w.fin w.opcode w.form ++ w.raw

/-- The bytes of a stream of frames: "between frames there are no bytes" (R124). -/
def streamBytes (ws : List WireFrame) : List Byte := (ws.map wireBytes).flatten

/-- The Frame a wire frame decodes to (R28). -/
def wireDecoded (w : WireFrame) : Frame where
  fin := w.fin
  rsv1 := false
  rsv2 := false
  rsv3 := false
  opcode := w.opcode
  mask := (wireHeader w).mask
  payloadLen := (wireHeader w).payloadLen
  payload := if (wireHeader w).mask then unmaskBytes w.raw w.raw.length (wireHeader w).key else w.raw
  frameLen := BitVec.ofNat 33 (wireBytes w).length

end Sys2Proof.Machine
end

