-- ==== Sys2Proof/Certificates/Slice0/Obligations.lean ====
section
/-! DEFINITION. The statements for the provers. Each docstring names the rule of spec/ it formalises. -/

open Sys2Proof Sys2Proof.Machine

/-! ## Encoding -/

/-- R84, R92, R93: headers written out bit by bit from the layouts of R84 decode to the rows they stand for. -/
def Obligations.WrittenWordsDecode : Prop :=
  decodeHeader [0x81#8, 0x02#8, 0x48#8] = .instr (.hdrS7U true 0x1#4 2#7) [0x48#8] ∧
  decodeHeader [0x82#8, 0x80#8, 0xDE#8, 0xAD#8, 0xBE#8, 0xEF#8] =
    .instr (.hdrS7M true 0x2#4 0#7 ⟨0xDE#8, 0xAD#8, 0xBE#8, 0xEF#8⟩) [] ∧
  decodeHeader [0x02#8, 0x7E#8, 0x01#8, 0x02#8] = .instr (.hdrE16U false 0x2#4 0x0102#16) [] ∧
  decodeHeader [0x82#8, 0x7F#8, 0x00#8, 0x00#8, 0x00#8, 0x00#8, 0x01#8, 0x02#8, 0x03#8, 0x04#8] =
    .instr (.hdrE64U true 0x2#4 0x01020304#32) [] ∧
  decodeOpcode [0x89#8, 0x00#8] = .instr (.framePing true (.s7u 0#7)) [] ∧
  decodeHeader [0xC1#8] = .instr (.illRsv1 0xC1#8) [] ∧
  decodeHeader [0x81#8, 0x7F#8, 0x00#8, 0x00#8, 0x00#8, 0x01#8, 0x00#8, 0x00#8, 0x00#8, 0x02#8] =
    .instr (.illE64Hi true 0x1#4 false 1#32 2#32) []

/-- Decoding the encoding of any well-formed format row or illegal row gives it back, with whatever follows left over: no bit of an
encoding is dropped (R83, R84, R92, R93). -/
def Obligations.FormatRowsRoundTrip : Prop :=
  ∀ (i : Instr) (rest : List Byte), i.wf = true → headerRow i = true → decodeHeader (encode i ++ rest) = .instr i rest

/-- The same for the opcode rows, and for the encoder's byte-0 rows read by the encoder's own table (R90, R176). -/
def Obligations.OpcodeRowsRoundTrip : Prop :=
  (∀ (i : Instr) (rest : List Byte), i.wf = true → opcodeRow i = true → decodeOpcode (encode i ++ rest) = .instr i rest) ∧
  ∀ payload : List Byte, ∀ i ∈ [Instr.encTextFin payload, .encTextNonfin payload, .encBinFin payload, .encBinNonfin payload],
    (encode i).map (fun b => decodeEncByte b payload) = [some i]

/-- A sequence has one meaning: what is decoded is well-formed, and the bytes are its encoding followed by the rest, in both views
of a header (R100). -/
def Obligations.DecodedBytesAreTheEncoding : Prop :=
  ∀ (S : List Byte) (i : Instr) (rest : List Byte),
    (decodeHeader S = .instr i rest → i.wf = true ∧ headerRow i = true ∧ S = encode i ++ rest) ∧
    (decodeOpcode S = .instr i rest → i.wf = true ∧ opcodeRow i = true ∧ S = encode i ++ rest)

/-- R102, R204: decoding is total. Nothing is decided only on no bytes, more bytes are needed only inside a header (at most 13 bytes,
fewer than byte 1 calls for), so 14 bytes always decode. -/
def Obligations.DecoderIsTotal : Prop :=
  ∀ S : List Byte,
    (decodeHeader S = .nothing ↔ S = []) ∧
    (decodeHeader S = .needMore → S.length ≤ 13 ∧ S.length < calledLength S) ∧
    (14 ≤ S.length → ∃ i rest, decodeHeader S = .instr i rest)

/-- The byte-0 rows of the opcode table, by mask and match: a byte with one RSV bit is the illegal row of that bit, and the sixteen
opcodes are those with the RSV bits zero (R90, R91, R92, R100). A byte with several RSV bits matches several illegal rows, and the
table gives no order among them: that it is named by the first of RSV1, RSV2, RSV3 is the model's choice (notes/assumptions/6.md). -/
def Obligations.ByteZeroRowsMatchTheTable : Prop :=
  ∀ b0 : Byte,
    (b0 &&& 0x40#8 = 0x40#8 → decodeHeader [b0] = .instr (.illRsv1 b0) []) ∧
    (b0 &&& 0x40#8 = 0#8 → b0 &&& 0x20#8 = 0x20#8 → decodeHeader [b0] = .instr (.illRsv2 b0) []) ∧
    (b0 &&& 0x60#8 = 0#8 → b0 &&& 0x10#8 = 0x10#8 → decodeHeader [b0] = .instr (.illRsv3 b0) []) ∧
    (b0 &&& 0x70#8 = 0#8 → decodeHeader [b0] = .needMore) ∧
    ∀ p ∈ [(0x00#8, Instr.frameCont (b0.getLsbD 7) (.s7u 0#7)), (0x01#8, .frameText (b0.getLsbD 7) (.s7u 0#7)),
        (0x02#8, .frameBin (b0.getLsbD 7) (.s7u 0#7)), (0x03#8, .frameRsvd3 (b0.getLsbD 7) (.s7u 0#7)),
        (0x04#8, .frameRsvd4 (b0.getLsbD 7) (.s7u 0#7)), (0x05#8, .frameRsvd5 (b0.getLsbD 7) (.s7u 0#7)),
        (0x06#8, .frameRsvd6 (b0.getLsbD 7) (.s7u 0#7)), (0x07#8, .frameRsvd7 (b0.getLsbD 7) (.s7u 0#7)),
        (0x08#8, .frameClose (b0.getLsbD 7) (.s7u 0#7)), (0x09#8, .framePing (b0.getLsbD 7) (.s7u 0#7)),
        (0x0A#8, .framePong (b0.getLsbD 7) (.s7u 0#7)), (0x0B#8, .frameRsvdB (b0.getLsbD 7) (.s7u 0#7)),
        (0x0C#8, .frameRsvdC (b0.getLsbD 7) (.s7u 0#7)), (0x0D#8, .frameRsvdD (b0.getLsbD 7) (.s7u 0#7)),
        (0x0E#8, .frameRsvdE (b0.getLsbD 7) (.s7u 0#7)), (0x0F#8, .frameRsvdF (b0.getLsbD 7) (.s7u 0#7))],
      b0 &&& 0x7F#8 = p.1 → decodeOpcode [b0, 0#8] = .instr p.2 []

/-! ## ParseHeader -/

/-- R85, R86, R88, R89 and the accepting half of R87: a parsed header has the fields of bytes 0 and 1, the length by LEN7 (7 bits,
big-endian 16 bits, or the second of two big-endian 32-bit halves with the first half zero), the key verbatim or all zero, and
`HL = 2 + EXT + 4 * MASK`. -/
def Obligations.ParsedHeaderFields : Prop :=
  ∀ (cfg : Config) (S : List Byte) (h : Header), S ≠ [] → parseHeader cfg S = .header h →
    let at' := fun i => (S.getD i 0#8).toNat
    let b0 := S.getD 0 0#8
    let b1 := S.getD 1 0#8
    let len7 := at' 1 % 128
    let ext := if len7 = 126 then 2 else if len7 = 127 then 8 else 0
    let o := 2 + ext
    b0 &&& 0x70#8 = 0#8 ∧
    h.fin = b0.getLsbD 7 ∧ h.rsv1 = false ∧ h.rsv2 = false ∧ h.rsv3 = false ∧ h.opcode.toNat = at' 0 % 16 ∧
    h.mask = b1.getLsbD 7 ∧
    (len7 ≤ 125 → h.payloadLen.toNat = len7) ∧
    (len7 = 126 → h.payloadLen.toNat = at' 2 * 256 + at' 3) ∧
    (len7 = 127 → at' 2 = 0 ∧ at' 3 = 0 ∧ at' 4 = 0 ∧ at' 5 = 0 ∧
      h.payloadLen.toNat = at' 6 * 2 ^ 24 + at' 7 * 2 ^ 16 + at' 8 * 2 ^ 8 + at' 9) ∧
    h.key = (if b1.getLsbD 7 then ⟨S.getD o 0#8, S.getD (o + 1) 0#8, S.getD (o + 2) 0#8, S.getD (o + 3) 0#8⟩
      else ⟨0#8, 0#8, 0#8, 0#8⟩) ∧
    h.hl.toNat = o + (if b1.getLsbD 7 then 4 else 0) ∧
    h.hl.toNat ≤ S.length ∧ h.payloadLen.toNat ≤ cfg.payloadCap

/-- R112, R102: each step waits for the bytes it reads. With the RSV bits zero the parse is incomplete while byte 1 is missing, while
the 2 or 8 bytes of an extended length are missing, and, the length being legal and within the capacity, while the key is. -/
def Obligations.ParseHeaderWaitsForItsBytes : Prop :=
  ∀ (cfg : Config) (S : List Byte), S ≠ [] → S.getD 0 0#8 &&& 0x70#8 = 0#8 →
    let at' := fun i => (S.getD i 0#8).toNat
    let len7 := at' 1 % 128
    (S.length < 2 → parseHeader cfg S = .incomplete) ∧
    (2 ≤ S.length → len7 = 126 → S.length < 4 → parseHeader cfg S = .incomplete) ∧
    (2 ≤ S.length → len7 = 127 → S.length < 10 → parseHeader cfg S = .incomplete) ∧
    ((S.getD 1 0#8).getLsbD 7 = true →
      (2 ≤ S.length → len7 ≤ 125 → len7 ≤ cfg.payloadCap → S.length < 6 → parseHeader cfg S = .incomplete) ∧
      (4 ≤ S.length → len7 = 126 → at' 2 * 256 + at' 3 ≤ cfg.payloadCap → S.length < 8 → parseHeader cfg S = .incomplete) ∧
      (10 ≤ S.length → len7 = 127 → at' 2 = 0 → at' 3 = 0 → at' 4 = 0 → at' 5 = 0 →
        at' 6 * 2 ^ 24 + at' 7 * 2 ^ 16 + at' 8 * 2 ^ 8 + at' 9 ≤ cfg.payloadCap → S.length < 14 →
        parseHeader cfg S = .incomplete))

/-- R96: nothing else is checked. With the default capacity or a larger one, every sequence whose RSV bits are zero and whose 64-bit
length, if present, has a zero upper half is a legal header, once the 2 to 14 bytes that byte 1 calls for are there (R89). -/
def Obligations.EverythingElseIsALegalHeader : Prop :=
  ∀ (cfg : Config) (S : List Byte), 2 ^ 32 - 1 ≤ cfg.payloadCap → 2 ≤ S.length → calledLength S ≤ S.length →
    S.getD 0 0#8 &&& 0x70#8 = 0#8 →
    ((S.getD 1 0#8).toNat % 128 = 127 → ∀ i, 2 ≤ i → i ≤ 5 → S.getD i 0#8 = 0#8) →
    ∃ h, parseHeader cfg S = .header h

/-! ## Frame instructions at a frame boundary -/

/-- The six format rows, the whole payload being present and `Q` having room: the Frame of R116 is appended with the length of R85 to
R87, the payload unmasked when MASK = 1 (R150, R156), `frameLen = HL + payloadLen` (R127), the bytes after the payload are the
remainder (R114), and nothing else changes. -/
def Obligations.FormatRowsEmitTheirFrame : Prop :=
  ∀ (s : State) (fin : Bool) (op : Nibble) (key : Key), s.st = .idle → Room s →
    (∀ l : BitVec 7, l.toNat ≤ 125 → l.toNat ≤ s.cfg.payloadCap → l.toNat ≤ s.inp.length →
      exec (.hdrS7U fin op l) s = .next { s with
        hb := [], inp := [], result := .remainder (s.inp.drop l.toNat),
        q := s.q ++ [⟨fin, false, false, false, op, false, BitVec.ofNat 32 l.toNat, s.inp.take l.toNat,
          BitVec.ofNat 33 (2 + l.toNat)⟩] }) ∧
    (∀ l : BitVec 7, l.toNat ≤ 125 → l.toNat ≤ s.cfg.payloadCap → l.toNat ≤ s.inp.length →
      ∃ payload, IsUnmasked key s.inp l.toNat payload ∧
      exec (.hdrS7M fin op l key) s = .next { s with
        hb := [], inp := [], result := .remainder (s.inp.drop l.toNat),
        q := s.q ++ [⟨fin, false, false, false, op, true, BitVec.ofNat 32 l.toNat, payload, BitVec.ofNat 33 (6 + l.toNat)⟩] }) ∧
    (∀ l : BitVec 16, l.toNat ≤ s.cfg.payloadCap → l.toNat ≤ s.inp.length →
      exec (.hdrE16U fin op l) s = .next { s with
        hb := [], inp := [], result := .remainder (s.inp.drop l.toNat),
        q := s.q ++ [⟨fin, false, false, false, op, false, BitVec.ofNat 32 l.toNat, s.inp.take l.toNat,
          BitVec.ofNat 33 (4 + l.toNat)⟩] }) ∧
    (∀ l : BitVec 16, l.toNat ≤ s.cfg.payloadCap → l.toNat ≤ s.inp.length →
      ∃ payload, IsUnmasked key s.inp l.toNat payload ∧
      exec (.hdrE16M fin op l key) s = .next { s with
        hb := [], inp := [], result := .remainder (s.inp.drop l.toNat),
        q := s.q ++ [⟨fin, false, false, false, op, true, BitVec.ofNat 32 l.toNat, payload, BitVec.ofNat 33 (8 + l.toNat)⟩] }) ∧
    (∀ l : BitVec 32, l.toNat ≤ s.cfg.payloadCap → l.toNat ≤ s.inp.length →
      exec (.hdrE64U fin op l) s = .next { s with
        hb := [], inp := [], result := .remainder (s.inp.drop l.toNat),
        q := s.q ++ [⟨fin, false, false, false, op, false, l, s.inp.take l.toNat, BitVec.ofNat 33 (10 + l.toNat)⟩] }) ∧
    (∀ l : BitVec 32, l.toNat ≤ s.cfg.payloadCap → l.toNat ≤ s.inp.length →
      ∃ payload, IsUnmasked key s.inp l.toNat payload ∧
      exec (.hdrE64M fin op l key) s = .next { s with
        hb := [], inp := [], result := .remainder (s.inp.drop l.toNat),
        q := s.q ++ [⟨fin, false, false, false, op, true, l, payload, BitVec.ofNat 33 (14 + l.toNat)⟩] })

/-- The six format rows, the payload being incomplete: the PPF is created with all header fields and the raw payload so far, still
masked, `ST` is AWAIT_PAY, the remainder is empty and `Q` is unchanged (R115). -/
def Obligations.FormatRowsSaveAPartialFrame : Prop :=
  ∀ (s : State) (fin : Bool) (op : Nibble) (key : Key), s.st = .idle →
    (∀ l : BitVec 7, l.toNat ≤ 125 → l.toNat ≤ s.cfg.payloadCap → s.inp.length < l.toNat →
      exec (.hdrS7U fin op l) s = .next { s with
        st := .awaitPay, hb := [], inp := [], result := .remainder [],
        ppf := some ⟨fin, false, false, false, op, false, BitVec.ofNat 32 l.toNat, ⟨0#8, 0#8, 0#8, 0#8⟩, 2#4, s.inp⟩ } ∧
      exec (.hdrS7M fin op l key) s = .next { s with
        st := .awaitPay, hb := [], inp := [], result := .remainder [],
        ppf := some ⟨fin, false, false, false, op, true, BitVec.ofNat 32 l.toNat, key, 6#4, s.inp⟩ }) ∧
    (∀ l : BitVec 16, l.toNat ≤ s.cfg.payloadCap → s.inp.length < l.toNat →
      exec (.hdrE16U fin op l) s = .next { s with
        st := .awaitPay, hb := [], inp := [], result := .remainder [],
        ppf := some ⟨fin, false, false, false, op, false, BitVec.ofNat 32 l.toNat, ⟨0#8, 0#8, 0#8, 0#8⟩, 4#4, s.inp⟩ } ∧
      exec (.hdrE16M fin op l key) s = .next { s with
        st := .awaitPay, hb := [], inp := [], result := .remainder [],
        ppf := some ⟨fin, false, false, false, op, true, BitVec.ofNat 32 l.toNat, key, 8#4, s.inp⟩ }) ∧
    (∀ l : BitVec 32, l.toNat ≤ s.cfg.payloadCap → s.inp.length < l.toNat →
      exec (.hdrE64U fin op l) s = .next { s with
        st := .awaitPay, hb := [], inp := [], result := .remainder [],
        ppf := some ⟨fin, false, false, false, op, false, l, ⟨0#8, 0#8, 0#8, 0#8⟩, 10#4, s.inp⟩ } ∧
      exec (.hdrE64M fin op l key) s = .next { s with
        st := .awaitPay, hb := [], inp := [], result := .remainder [],
        ppf := some ⟨fin, false, false, false, op, true, l, key, 14#4, s.inp⟩ })

/-- R202, R203, R206: a legal header whose length exceeds `PAYLOAD_CAP` raises UnsupportedLengthError, and one whose payload is
complete while `Q` is full raises QueueOverflow; either way `Q` stays. -/
def Obligations.FormatRowsRaiseAtTheLimits : Prop :=
  ∀ (s : State) (fin : Bool) (op : Nibble) (f : HdrForm), s.st = .idle → f.wf = true →
    (s.cfg.payloadCap < (formHeader fin op f).payloadLen.toNat →
      exec (hdrInstr fin op f) s = .next { s with
        st := .error, err := .unsupportedLength, hb := [], ppf := none, inp := [],
        result := .error (.unsupportedLength 0#32 (formHeader fin op f).payloadLen) }) ∧
    ((formHeader fin op f).payloadLen.toNat ≤ s.cfg.payloadCap →
      (formHeader fin op f).payloadLen.toNat ≤ s.inp.length → (∃ c, s.cfg.queueCap = some c ∧ c ≤ s.q.length) →
      exec (hdrInstr fin op f) s = .next { s with
        st := .error, err := .queueOverflow, hb := [], ppf := none, inp := [], result := .error .queueOverflow })

/-- R91: the decoder does not interpret the opcode. In every state each of the sixteen opcode rows does what the format row with
that opcode does. -/
def Obligations.OpcodeRowsTakeTheFormatPath : Prop :=
  ∀ (s : State) (fin : Bool) (f : HdrForm),
    ∀ p ∈ [(Instr.frameCont fin f, 0x0#4), (.frameText fin f, 0x1#4), (.frameBin fin f, 0x2#4), (.frameRsvd3 fin f, 0x3#4),
        (.frameRsvd4 fin f, 0x4#4), (.frameRsvd5 fin f, 0x5#4), (.frameRsvd6 fin f, 0x6#4), (.frameRsvd7 fin f, 0x7#4),
        (.frameClose fin f, 0x8#4), (.framePing fin f, 0x9#4), (.framePong fin f, 0xA#4), (.frameRsvdB fin f, 0xB#4),
        (.frameRsvdC fin f, 0xC#4), (.frameRsvdD fin f, 0xD#4), (.frameRsvdE fin f, 0xE#4), (.frameRsvdF fin f, 0xF#4)],
      exec p.1 s = exec (hdrInstr fin p.2 f) s

/-- R116, R91: each of the sixteen opcode rows emits a Frame whose `opcode` is the value read, with the length, key and header length
of its format; the RSV fields are 0, the payload is delivered unmasked, and nothing else changes. -/
def Obligations.OpcodeRowsEmitTheirFrame : Prop :=
  ∀ (s : State) (fin : Bool) (f : HdrForm), s.st = .idle → Room s → f.wf = true →
    ∀ p ∈ [(Instr.frameCont fin f, 0x0#4), (.frameText fin f, 0x1#4), (.frameBin fin f, 0x2#4), (.frameRsvd3 fin f, 0x3#4),
        (.frameRsvd4 fin f, 0x4#4), (.frameRsvd5 fin f, 0x5#4), (.frameRsvd6 fin f, 0x6#4), (.frameRsvd7 fin f, 0x7#4),
        (.frameClose fin f, 0x8#4), (.framePing fin f, 0x9#4), (.framePong fin f, 0xA#4), (.frameRsvdB fin f, 0xB#4),
        (.frameRsvdC fin f, 0xC#4), (.frameRsvdD fin f, 0xD#4), (.frameRsvdE fin f, 0xE#4), (.frameRsvdF fin f, 0xF#4)],
      let h := formHeader fin p.2 f
      h.payloadLen.toNat ≤ s.cfg.payloadCap → h.payloadLen.toNat ≤ s.inp.length →
      ∃ payload, (h.mask = true → IsUnmasked h.key s.inp h.payloadLen.toNat payload) ∧
        (h.mask = false → payload = s.inp.take h.payloadLen.toNat) ∧
        exec p.1 s = .next { s with
          hb := [], inp := [], result := .remainder (s.inp.drop h.payloadLen.toNat),
          q := s.q ++ [⟨fin, false, false, false, p.2, h.mask, h.payloadLen, payload,
            BitVec.ofNat 33 (h.hl.toNat + h.payloadLen.toNat)⟩] }

/-- R200, R201, R206, R210: the illegal rows at a frame boundary. An RSV row raises ProtocolError with its byte 0 and the closure
status code of the configuration; the E64HI row raises UnsupportedLengthError with both halves. `Q` is left as it is. -/
def Obligations.IllegalRowsRaise : Prop :=
  ∀ s : State, s.st = .idle →
    (∀ b0 : Byte, ∀ i ∈ [Instr.illRsv1 b0, .illRsv2 b0, .illRsv3 b0],
      exec i s = .next { s with
        st := .error, err := .protocol, hb := [], ppf := none, inp := [],
        result := .error (.protocol b0 s.cfg.protocolErrorCloseCode) }) ∧
    (∀ (fin : Bool) (op : Nibble) (mask : Bool) (hi lo : BitVec 32),
      exec (.illE64Hi fin op mask hi lo) s = .next { s with
        st := .error, err := .unsupportedLength, hb := [], ppf := none, inp := [],
        result := .error (.unsupportedLength hi lo) })

/-- A frame instruction is what DECODE does with its bytes: in every state, executing a well-formed row of the byte stream is DECODE
of its encoding followed by what stands in `IN` (R110, R111, R117, R119; in AWAIT_HDR, AWAIT_PAY and ERROR this is the model's
convention of notes/assumptions/5.md). -/
def Obligations.FrameInstructionIsDecodeOfItsBytes : Prop :=
  ∀ (i : Instr) (s : State), i.wf = true → (headerRow i = true ∨ opcodeRow i = true) → (s.st = .idle → s.hb = []) →
    Accepts s (encode i ++ s.inp) → exec i s = exec (.decode (encode i ++ s.inp)) s

/-! ## The encoder -/

/-- R176, R177, R178, R179, R180, R182: each encoder row returns its byte 0, then the length (126 as `7E 00 7E`, any other below 256
directly), then the payload, unmasked; only the result port changes. -/
def Obligations.EncoderRowsReturnTheirFrame : Prop :=
  ∀ (s : State) (payload : List Byte), s.cfg.encPresent = true → payload.length < 256 →
    ∀ p ∈ [(Instr.encTextFin payload, 0x81#8), (.encTextNonfin payload, 0x01#8), (.encBinFin payload, 0x82#8),
        (.encBinNonfin payload, 0x02#8)],
      exec p.1 s = .next { s with
        result := .bytes (if payload.length = 126 then p.2 :: 0x7E#8 :: 0x00#8 :: 0x7E#8 :: payload
          else p.2 :: BitVec.ofNat 8 payload.length :: payload) }

/-- R175: CREATEFRAME. An opcode other than 0x1 and 0x2 is refused, then a length of 256 or more; otherwise the output is byte 0
(`0x80` when fin, plus the opcode), the length field and the payload. No state changes but the result. -/
def Obligations.CreateFrameResult : Prop :=
  ∀ (s : State) (payload : List Byte) (op : Nibble) (fin : Bool), s.cfg.encPresent = true →
    (op ≠ 0x1#4 → op ≠ 0x2#4 →
      exec (.createFrame payload op fin) s = .next { s with result := .refused .encodeOpcodeUnsupported }) ∧
    ((op = 0x1#4 ∨ op = 0x2#4) → 256 ≤ payload.length →
      exec (.createFrame payload op fin) s = .next { s with result := .refused .encodeLengthUnsupported }) ∧
    ((op = 0x1#4 ∨ op = 0x2#4) → payload.length < 256 →
      exec (.createFrame payload op fin) s = .next { s with
        result := .bytes
          (if payload.length = 126 then
            BitVec.ofNat 8 ((if fin then 128 else 0) + op.toNat) :: 0x7E#8 :: 0x00#8 :: 0x7E#8 :: payload
          else BitVec.ofNat 8 ((if fin then 128 else 0) + op.toNat) :: BitVec.ofNat 8 payload.length :: payload) })

/-- R166, R8: without the encoder unit CREATEFRAME is not an operation of the block (the model refuses it by name,
notes/assumptions/12.md), and so are the encoder rows; with it, the encoder rows refuse a payload of 256 bytes or more (R183). -/
def Obligations.EncoderLimits : Prop :=
  ∀ (s : State) (payload : List Byte),
    (s.cfg.encPresent = false →
      (∀ op fin, exec (.createFrame payload op fin) s = .refused .encoderAbsent) ∧
      ∀ i ∈ [Instr.encTextFin payload, .encTextNonfin payload, .encBinFin payload, .encBinNonfin payload],
        exec i s = .refused .encoderAbsent) ∧
    (s.cfg.encPresent = true → 256 ≤ payload.length →
      ∀ i ∈ [Instr.encTextFin payload, .encTextNonfin payload, .encBinFin payload, .encBinNonfin payload],
        exec i s = .next { s with result := .refused .encodeLengthUnsupported })

/-! ## Masking -/

/-- R150, R155: UNMASK of an input of at least `payloadLen` bytes returns the `payloadLen` bytes `rawPayload[i] XOR key[i mod 4]`; a
shorter input is refused with ShortInput. Nothing but the result changes. -/
def Obligations.UnmaskResult : Prop :=
  ∀ (s : State) (raw : List Byte) (len : BitVec 32) (key : Key),
    (raw.length < len.toNat → exec (.unmask raw len key) s = .next { s with result := .refused .shortInput }) ∧
    (len.toNat ≤ raw.length → ∃ out, IsUnmasked key raw len.toNat out ∧
      exec (.unmask raw len key) s = .next { s with result := .bytes out })

/-- R152: for any payload and any key, UNMASK of UNMASK is the payload. -/
def Obligations.UnmaskIsAnInvolution : Prop :=
  ∀ (s : State) (payload : List Byte) (len : BitVec 32) (key : Key), payload.length = len.toNat →
    ∃ masked t, exec (.unmask payload len key) s = .next t ∧ t.result = .bytes masked ∧
      exec (.unmask masked len key) t = .next { s with result := .bytes payload }

/-- R153: with the all-zero key UNMASK is the identity on the first `payloadLen` bytes. -/
def Obligations.UnmaskWithZeroKey : Prop :=
  ∀ (s : State) (raw : List Byte) (len : BitVec 32), len.toNat ≤ raw.length →
    exec (.unmask raw len ⟨0#8, 0#8, 0#8, 0#8⟩) s = .next { s with result := .bytes (raw.take len.toNat) }

/-! ## Queue, status and reset operations -/

/-- R160: QREAD returns the Frames of `Q`, oldest first, and changes nothing else. -/
def Obligations.QreadReturnsTheQueue : Prop :=
  ∀ s : State, exec .qread s = .next { s with result := .frames s.q }

/-- R161: QCLEAR empties the queue and changes nothing else. -/
def Obligations.QclearEmptiesTheQueue : Prop :=
  ∀ s : State, exec .qclear s = .next { s with q := [], result := .done }

/-- R162: DRAIN returns the Frames that were in `Q` and leaves it empty; nothing else changes. -/
def Obligations.DrainReadsAndClears : Prop :=
  ∀ s : State, exec .drain s = .next { s with q := [], result := .frames s.q }

/-- R165, R35: STATUS returns the codes of `ST` (R21) and `ERR` (R30) and the number of Frames, and changes nothing else. -/
def Obligations.StatusReturnsTheRecord : Prop :=
  ∀ s : State, ∃ st err : BitVec 2,
    exec .status s = .next { s with result := .status st err s.q.length } ∧
    (s.st = .idle → st = 0#2) ∧ (s.st = .awaitHdr → st = 1#2) ∧ (s.st = .awaitPay → st = 2#2) ∧ (s.st = .error → st = 3#2) ∧
    (s.err = .none → err = 0#2) ∧ (s.err = .protocol → err = 1#2) ∧ (s.err = .unsupportedLength → err = 2#2) ∧
    (s.err = .queueOverflow → err = 3#2)

/-- R230, R38: RESET is allowed in every state and leaves `ST` = IDLE, `ERR` = NONE, `HB` empty, no PPF and `Q` empty; the
configuration stays (R33). -/
def Obligations.ResetState : Prop :=
  ∀ s : State, exec .reset s = .next { s with
    st := .idle, err := .none, hb := [], ppf := none, q := [], inp := [], result := .done }

/-! ## DECODE -/

/-- R113: an incomplete header is held. The whole of `S = HB ++ IN` goes to `HB`, 1 to 13 bytes and fewer than the header length they
call for, `ST` becomes AWAIT_HDR, the remainder is empty, and no Frame is produced and no error raised. -/
def Obligations.DecodeHoldsAnIncompleteHeader : Prop :=
  ∀ (s : State) (chunk : List Byte), s.st = .idle ∨ s.st = .awaitHdr → Accepts s chunk → s.hb ++ chunk ≠ [] →
    parseHeader s.cfg (s.hb ++ chunk) = .incomplete →
    exec (.decode chunk) s = .next { s with st := .awaitHdr, hb := s.hb ++ chunk, inp := [], result := .remainder [] } ∧
      1 ≤ (s.hb ++ chunk).length ∧ (s.hb ++ chunk).length ≤ 13 ∧ (s.hb ++ chunk).length < calledLength (s.hb ++ chunk)

/-- R120: DECODE with an empty operand is a no-operation in IDLE, AWAIT_HDR and AWAIT_PAY. -/
def Obligations.DecodeOfNothingIsANoop : Prop :=
  ∀ s : State, Inv s → s.st ≠ .error → exec (.decode []) s = .next { s with result := .remainder [] }

/-- R117: a chunk shorter than what is missing is appended to `RB`; `ST` stays AWAIT_PAY, the P registers stay, the remainder is
empty. -/
def Obligations.DecodeBuffersAShortChunk : Prop :=
  ∀ (s : State) (p : PPF) (chunk : List Byte), s.st = .awaitPay → s.ppf = some p → Accepts s chunk →
    p.rb.length + chunk.length < p.payloadLen.toNat →
    exec (.decode chunk) s = .next { s with
      ppf := some { p with rb := p.rb ++ chunk }, inp := [], result := .remainder [] }

/-- R118, R127, R154: a completing chunk gives exactly the missing bytes to the frame, which is unmasked over the whole payload from
key index 0 when MASK = 1, emitted with `frameLen = P.BYTEOFFSET + P.PAYLOADLEN`, and the tail is the remainder; the PPF is
destroyed and `ST` is IDLE. -/
def Obligations.DecodeCompletesAPendingFrame : Prop :=
  ∀ (s : State) (p : PPF) (chunk : List Byte), s.st = .awaitPay → s.ppf = some p → Accepts s chunk → Room s →
    p.rb.length < p.payloadLen.toNat → p.payloadLen.toNat ≤ p.rb.length + chunk.length →
    let need := p.payloadLen.toNat - p.rb.length
    ∃ payload, (p.mask = true → IsUnmasked p.key (p.rb ++ chunk) p.payloadLen.toNat payload) ∧
      (p.mask = false → payload = p.rb ++ chunk.take need) ∧
      exec (.decode chunk) s = .next { s with
        st := .idle, ppf := none, inp := [], result := .remainder (chunk.drop need),
        q := s.q ++ [⟨p.fin, false, false, false, p.opcode, p.mask, p.payloadLen, payload,
          BitVec.ofNat 33 (p.byteOffset.toNat + p.payloadLen.toNat)⟩] }

/-- R203, R206: with `Q` full, the chunk that completes the pending frame raises QueueOverflow: the PPF is destroyed, `Q` is left as
it is, no remainder is returned. -/
def Obligations.DecodeIntoAFullQueueRaises : Prop :=
  ∀ (s : State) (p : PPF) (chunk : List Byte) (c : Nat), s.st = .awaitPay → s.ppf = some p → Accepts s chunk →
    s.cfg.queueCap = some c → c ≤ s.q.length → p.payloadLen.toNat ≤ p.rb.length + chunk.length →
    exec (.decode chunk) s = .next { s with
      st := .error, err := .queueOverflow, hb := [], ppf := none, inp := [], result := .error .queueOverflow }

/-- R119, R205, R219: in ERROR, DECODE and FEED are refused with Dead whatever the operand; elsewhere an operand longer than
`CHUNK_MAX` is refused with ChunkTooLong. Nothing is consumed and nothing changes. -/
def Obligations.DecodeAndFeedRefusals : Prop :=
  ∀ (s : State) (chunk : List Byte), ∀ i ∈ [Instr.decode chunk, .feed chunk],
    (s.st = .error → exec i s = .next { s with inp := [], result := .refused .dead }) ∧
    (s.st ≠ .error → ∀ m, s.cfg.chunkMax = some m → m < chunk.length →
      exec i s = .next { s with inp := [], result := .refused .chunkTooLong })

/-- R128, R201, R202: while a header is awaited, a nonzero RSV bit in byte 0 raises ProtocolError, and with the RSV bits zero a
127-length whose eight bytes are present with a nonzero upper half raises UnsupportedLengthError with both halves; no Frame is
produced. -/
def Obligations.DecodeRaisesOnAnIllegalHeader : Prop :=
  ∀ (s : State) (chunk : List Byte), s.st = .idle ∨ s.st = .awaitHdr → Accepts s chunk → s.hb ++ chunk ≠ [] →
    let S := s.hb ++ chunk
    let at' := fun i => S.getD i 0#8
    (at' 0 &&& 0x70#8 ≠ 0#8 →
      exec (.decode chunk) s = .next { s with
        st := .error, err := .protocol, hb := [], ppf := none, inp := [],
        result := .error (.protocol (at' 0) s.cfg.protocolErrorCloseCode) }) ∧
    (at' 0 &&& 0x70#8 = 0#8 → 10 ≤ S.length → (at' 1).toNat % 128 = 127 →
      at' 2 ++ at' 3 ++ at' 4 ++ at' 5 ≠ 0#32 →
      exec (.decode chunk) s = .next { s with
        st := .error, err := .unsupportedLength, hb := [], ppf := none, inp := [],
        result := .error (.unsupportedLength (at' 2 ++ at' 3 ++ at' 4 ++ at' 5) (at' 6 ++ at' 7 ++ at' 8 ++ at' 9)) })

/-- R110, R122: the remainder of a DECODE is a suffix of its operand, and a non-empty one is strictly shorter. -/
def Obligations.RemainderIsAShorterSuffix : Prop :=
  ∀ (s t : State) (chunk rem : List Byte), Inv s → exec (.decode chunk) s = .next t → t.result = .remainder rem →
    rem <:+ chunk ∧ (rem ≠ [] → rem.length < chunk.length)

/-! ## FEED -/

/-- R121: FEED is DECODE, again on the remainder until it is empty; an error or a refusal ends it. -/
def Obligations.FeedIsTheDecodeLoop : Prop :=
  ∀ (s : State) (chunk : List Byte), Inv s →
    ∃ t, exec (.decode chunk) s = .next t ∧
      (t.result = .remainder [] ∧ exec (.feed chunk) s = .next { t with result := .ok } ∨
       (∃ b bs, t.result = .remainder (b :: bs) ∧ exec (.feed chunk) s = exec (.feed (b :: bs)) t) ∨
       ((∃ e, t.result = .error e) ∨ (∃ w, t.result = .refused w)) ∧ exec (.feed chunk) s = .next t)

/-- R122, R242: FEED terminates with ok, an error or a refusal. -/
def Obligations.FeedTerminates : Prop :=
  ∀ (s : State) (chunk : List Byte), Inv s →
    ∃ t, exec (.feed chunk) s = .next t ∧ (t.result = .ok ∨ (∃ e, t.result = .error e) ∨ ∃ w, t.result = .refused w)

/-! ## The step -/

/-- A step runs the decoded instruction: when DECODE is issued at a header and the parse view decodes (by either view) to `i`, the
step is `exec i` at that state, moved past the header's bytes: at the frame boundary, `HB` emptied, the bytes after it in `IN`. -/
def Obligations.StepRunsTheDecodedInstruction : Prop :=
  ∀ (s : State) (chunk : List Byte) (ops : List HostOp) (i : Instr) (rest : List Byte),
    s.pending = .decode chunk :: ops → s.st = .idle ∨ s.st = .awaitHdr → Accepts s chunk →
    (decodeHeader (s.hb ++ chunk) = .instr i rest ∨ decodeOpcode (s.hb ++ chunk) = .instr i rest) →
    step s = exec i { s with pending := ops, st := .idle, hb := [], inp := rest }

/-- R9, R67, R217: a step is the oldest operation the host has issued, run whole; with none issued the block holds its state. -/
def Obligations.StepRunsTheOldestHostOperation : Prop :=
  ∀ s : State,
    (s.pending = [] → step s = .next s) ∧
    ∀ (ops : List HostOp) (raw payload chunk : List Byte) (len : BitVec 32) (key : Key) (op : Nibble) (fin : Bool),
      ∀ p ∈ [(HostOp.reset, Instr.reset), (.feed chunk, .feed chunk), (.decode chunk, .decode chunk), (.qread, .qread),
          (.qclear, .qclear), (.drain, .drain), (.status, .status), (.unmask raw len key, .unmask raw len key),
          (.createFrame payload op fin, .createFrame payload op fin)],
        s.pending = p.1 :: ops → step s = exec p.2 { s with pending := ops }

/-- A table word placed for the next step is the instruction the table decoder reads from it, at a frame boundary
(notes/assumptions/1.md, notes/assumptions/7.md). -/
def Obligations.FetchedTableWordRuns : Prop :=
  ∀ (s : State) (nbits w : Nat) (i : Instr), Accepts s (List.replicate 14 0#8) → decodeTableWord nbits w = some i →
    ∃ rest, tableBytes nbits w = encode i ++ rest ∧
      step (s.withFetchWord nbits w) =
        exec i { s with st := .idle, err := .none, hb := [], ppf := none, inp := rest }

/-! ## Invariants and whole-machine rules -/

/-- R38: at power-on, and after RESET from any state whatever, the state is the one R38 lists: `ST` = IDLE,
`ERR` = NONE, `HB` empty, no PPF (so no P register and no `RB`), `Q` empty; it meets the invariant (R34). -/
def Obligations.ResetMeetsTheInvariant : Prop :=
  (Inv State.reset ∧ State.reset.st = .idle ∧ State.reset.err = .none ∧ State.reset.hb = [] ∧ State.reset.ppf = none ∧
    State.reset.q = []) ∧
  ∀ s : State, ∃ t, exec .reset s = .next t ∧ Inv t ∧ t.st = .idle ∧ t.err = .none ∧ t.hb = [] ∧ t.ppf = none ∧ t.q = []

/-- R34, R29, R20, R33: every step keeps the invariant, from every state that meets it. -/
def Obligations.StepKeepsTheInvariant : Prop :=
  ∀ s t : State, Inv s → step s = .next t → Inv t

/-- R204, R242: from a state that meets the invariant every step completes; only the encoder's operation, where the unit is absent,
has no step. -/
def Obligations.EveryStepCompletes : Prop :=
  ∀ s : State, Inv s →
    (∃ t, step s = .next t) ∨
    (s.cfg.encPresent = false ∧ (∃ payload op fin ops, s.pending = .createFrame payload op fin :: ops) ∧
      step s = .refused .encoderAbsent)

/-- R208, R30: there is no return from an error but RESET, which also empties `Q`. Every other instruction, in ERROR, leaves `ST`,
`ERR`, `HB` and the PPF as they are, and raises no second error. -/
def Obligations.OnlyResetLeavesError : Prop :=
  ∀ (i : Instr) (s t : State), s.st = .error → exec i s = .next t →
    (i ≠ .reset → t.st = .error ∧ t.err = s.err ∧ t.hb = s.hb ∧ t.ppf = s.ppf ∧ ∀ e, t.result ≠ .error e) ∧
    (i = .reset → t.st = .idle ∧ t.err = .none ∧ t.q = [])

/-- R206, R200: whatever instruction ends with an error has latched its code, stands in ERROR with `HB` empty and no PPF, and returns
the error with no remainder. `Q` is left as it is: it stands as the failing DECODE found it. In a FEED that is the last DECODE of its
turns, and every Frame that was in `Q` before the FEED or that an earlier turn of it emitted stays. -/
def Obligations.ErrorEntry : Prop :=
  ∀ (i : Instr) (s t : State) (e : ErrorInfo), exec i s = .next t → t.result = .error e →
    t.st = .error ∧ t.hb = [] ∧ t.ppf = none ∧ s.q <+: t.q ∧ ((∀ chunk, i ≠ .feed chunk) → t.q = s.q) ∧
    (∀ chunk, i = .feed chunk →
      (∃ r u, FeedReaches chunk s r u ∧ exec (.decode r) u = .next t ∧ t.q = u.q) ∧
      ∀ r u, FeedReaches chunk s r u → u.q <+: t.q) ∧
    match e with
    | .protocol _ code => t.err = .protocol ∧ code = s.cfg.protocolErrorCloseCode
    | .unsupportedLength _ _ => t.err = .unsupportedLength
    | .queueOverflow => t.err = .queueOverflow ∧ ∃ c, s.cfg.queueCap = some c ∧ c ≤ t.q.length

/-- R219: a refusal rejects an operation without changing any state. -/
def Obligations.RefusalChangesNothing : Prop :=
  ∀ (i : Instr) (s t : State) (w : RefuseReason), Inv s → exec i s = .next t → t.result = .refused w →
    t = { s with result := .refused w }

/-- R27, R29, R161: no Frame is removed or modified except by QCLEAR, DRAIN and RESET, which remove all of them; every other
instruction only appends to `Q`. -/
def Obligations.FramesLeaveOnlyByClearing : Prop :=
  ∀ (i : Instr) (s t : State), exec i s = .next t →
    (i ≠ .qclear → i ≠ .drain → i ≠ .reset → s.q <+: t.q) ∧
    ((i = .qclear ∨ i = .drain ∨ i = .reset) → t.q = [])

/-- R33, R67: no instruction changes the configuration or the host's later operations. -/
def Obligations.ConfigurationIsFixed : Prop :=
  ∀ (i : Instr) (s t : State), exec i s = .next t → t.cfg = s.cfg ∧ t.pending = s.pending

/-- R37, R184, R212: what QREAD, QCLEAR, DRAIN, STATUS, UNMASK, CREATEFRAME and the encoder rows return depends on `ST`, `ERR`, `Q`
and the configuration alone: two instances that differ in `HB`, the P registers and `RB` return the same. -/
def Obligations.PendingFrameIsNeverExposed : Prop :=
  ∀ (s s' t t' : State) (raw payload : List Byte) (len : BitVec 32) (key : Key) (op : Nibble) (fin : Bool),
    s.st = s'.st → s.err = s'.err → s.q = s'.q → s.cfg = s'.cfg →
    ∀ i ∈ [Instr.qread, .qclear, .drain, .status, .unmask raw len key, .createFrame payload op fin, .encTextFin payload,
        .encTextNonfin payload, .encBinFin payload, .encBinNonfin payload],
      exec i s = .next t → exec i s' = .next t' → t.result = t'.result ∧ t.q = t'.q

/-! ## Streams -/

/-- R68, R124, R126: from IDLE, one FEED of any number of complete frames, one after another, yields exactly their Frames, in order,
and leaves the decoder in IDLE, `Q` being unbounded or having room for all of them. -/
def Obligations.StreamOfFramesIsQueuedInOrder : Prop :=
  ∀ (s : State) (ws : List WireFrame), Inv s → s.st = .idle → RoomFor s ws.length → (∀ w ∈ ws, WireOk s.cfg w) →
    Accepts s (streamBytes ws) →
    exec (.feed (streamBytes ws)) s = .next { s with q := s.q ++ ws.map wireDecoded, result := .ok }

/-- R207: an error is precise with respect to frames. Complete frames followed by an illegal header (a byte 0 with a nonzero RSV bit,
or an E64HI header) and anything after it: every frame before the bad one is in `Q`, nothing after it is, and the error is that of the
bad header, `Q` being unbounded or having room for the frames before it. -/
def Obligations.ErrorIsPreciseInAStream : Prop :=
  ∀ (s : State) (ws : List WireFrame) (after : List Byte), Inv s → s.st = .idle → RoomFor s ws.length →
    (∀ w ∈ ws, WireOk s.cfg w) →
    (∀ b0 : Byte, b0 &&& 0x70#8 ≠ 0#8 → Accepts s (streamBytes ws ++ b0 :: after) →
      exec (.feed (streamBytes ws ++ b0 :: after)) s = .next { s with
        q := s.q ++ ws.map wireDecoded, st := .error, err := .protocol,
        result := .error (.protocol b0 s.cfg.protocolErrorCloseCode) }) ∧
    (∀ (fin : Bool) (op : Nibble) (mask : Bool) (hi lo : BitVec 32), hi ≠ 0#32 →
      Accepts s (streamBytes ws ++ (encode (.illE64Hi fin op mask hi lo) ++ after)) →
      exec (.feed (streamBytes ws ++ (encode (.illE64Hi fin op mask hi lo) ++ after))) s = .next { s with
        q := s.q ++ ws.map wireDecoded, st := .error, err := .unsupportedLength, result := .error (.unsupportedLength hi lo) })

/-- R125: chunk-partition invariance. Two sequences of chunks with the same concatenation, fed by FEED from the same state, no chunk
longer than `CHUNK_MAX`, end in the same `ST`, `ERR`, `HB`, PPF, `RB` and `Q`. -/
def Obligations.ChunkPartitionInvariance : Prop :=
  ∀ (s : State) (cs ds : List (List Byte)), Inv s → cs.flatten = ds.flatten →
    (∀ c ∈ cs, Accepts s c) → (∀ d ∈ ds, Accepts s d) →
    ∃ t u, feedAll cs s = .next t ∧ feedAll ds s = .next u ∧ SameBlock t u

/-- R185, R180: round-trip. For every payload of at most 126 bytes, opcode 0x1 or 0x2 and fin, from IDLE with an empty `Q`, FEED of
what CREATEFRAME returns leaves IDLE and one Frame with that payload, opcode and fin, `mask` 0 and `frameLen` the output length. -/
def Obligations.EncodedFrameDecodesBack : Prop :=
  ∀ (s : State) (payload : List Byte) (op : Nibble) (fin : Bool), Inv s → s.st = .idle → s.q = [] → Room s →
    s.cfg.encPresent = true → payload.length ≤ 126 → payload.length ≤ s.cfg.payloadCap → (op = 0x1#4 ∨ op = 0x2#4) →
    (∀ m, s.cfg.chunkMax = some m → payload.length + 4 ≤ m) →
    ∃ out t, exec (.createFrame payload op fin) s = .next t ∧ t.result = .bytes out ∧
      out.length = 2 + (if payload.length = 126 then 2 else 0) + payload.length ∧
      exec (.feed out) t = .next { s with
        result := .ok,
        q := [⟨fin, false, false, false, op, false, BitVec.ofNat 32 payload.length, payload, BitVec.ofNat 33 out.length⟩] }

/-- R182: a payload of 127 to 255 bytes is mis-framed. The output is byte 0, the length as byte 1 and the payload; the header decoder
reads a 127-byte one as format E64U, the first eight payload bytes as the length, and a longer one as MASK = 1 with
`LEN7 = L - 128`: format S7M, or E16M at 254 and E64M at 255, the next payload bytes as the key. An upper length half that is not
zero makes it the E64HI row. -/
def Obligations.LongEncodedFramesAreMisframed : Prop :=
  ∀ (s : State) (payload : List Byte) (op : Nibble) (fin : Bool), s.cfg.encPresent = true → (op = 0x1#4 ∨ op = 0x2#4) →
    127 ≤ payload.length → payload.length ≤ 255 →
    let len := payload.length
    let at' := fun i => payload.getD i 0#8
    let hi := at' 0 ++ at' 1 ++ at' 2 ++ at' 3
    let lo := at' 4 ++ at' 5 ++ at' 6 ++ at' 7
    ∃ out, exec (.createFrame payload op fin) s = .next { s with result := .bytes out } ∧
      out = BitVec.ofNat 8 ((if fin then 128 else 0) + op.toNat) :: BitVec.ofNat 8 len :: payload ∧
      (len = 127 → hi = 0#32 → decodeHeader out = .instr (.hdrE64U fin op lo) (payload.drop 8)) ∧
      (len = 127 → hi ≠ 0#32 → decodeHeader out = .instr (.illE64Hi fin op false hi lo) (payload.drop 8)) ∧
      (128 ≤ len → len ≤ 253 →
        decodeHeader out = .instr (.hdrS7M fin op (BitVec.ofNat 7 (len - 128)) ⟨at' 0, at' 1, at' 2, at' 3⟩) (payload.drop 4)) ∧
      (len = 254 →
        decodeHeader out = .instr (.hdrE16M fin op (at' 0 ++ at' 1) ⟨at' 2, at' 3, at' 4, at' 5⟩) (payload.drop 6)) ∧
      (len = 255 → hi = 0#32 →
        decodeHeader out = .instr (.hdrE64M fin op lo ⟨at' 8, at' 9, at' 10, at' 11⟩) (payload.drop 12)) ∧
      (len = 255 → hi ≠ 0#32 → decodeHeader out = .instr (.illE64Hi fin op true hi lo) (payload.drop 8))
end

