-- ==== Sys2Proof/Laws/Decode.lean ====
section
/-! SUPPORT. Laws of the bit fields, of the byte order, and of the decoder's parts. -/

namespace Sys2Proof

/-! ## Bytes 0 and 1 -/

@[simp] theorem finOf_byte0 (fin : Bool) (op : Nibble) : finOf (byte0 fin op) = fin := by
  revert fin op; decide
@[simp] theorem rsv1Of_byte0 (fin : Bool) (op : Nibble) : rsv1Of (byte0 fin op) = false := by
  revert fin op; decide
@[simp] theorem rsv2Of_byte0 (fin : Bool) (op : Nibble) : rsv2Of (byte0 fin op) = false := by
  revert fin op; decide
@[simp] theorem rsv3Of_byte0 (fin : Bool) (op : Nibble) : rsv3Of (byte0 fin op) = false := by
  revert fin op; decide
@[simp] theorem opcodeOf_byte0 (fin : Bool) (op : Nibble) : opcodeOf (byte0 fin op) = op := by
  revert fin op; decide
@[simp] theorem maskOf_byte1 (mask : Bool) (len7 : BitVec 7) : maskOf (byte1 mask len7) = mask := by
  revert mask len7; decide
@[simp] theorem len7Of_byte1 (mask : Bool) (len7 : BitVec 7) : len7Of (byte1 mask len7) = len7 := by
  revert mask len7; decide

/-- A byte with no RSV bit set is the byte 0 of its own fields. -/
theorem byte0_of_fields (b : Byte) (h1 : rsv1Of b = false) (h2 : rsv2Of b = false) (h3 : rsv3Of b = false) :
    byte0 (finOf b) (opcodeOf b) = b := by
  revert b; decide

theorem byte1_of_fields (b : Byte) : byte1 (maskOf b) (len7Of b) = b := by
  revert b; decide

theorem rsv1Of_eq_mask (b : Byte) : rsv1Of b = decide (b &&& 0x40#8 = 0x40#8) := by
  revert b; decide
theorem rsv2Of_row (b : Byte) : (!rsv1Of b && rsv2Of b) = decide (b &&& 0x60#8 = 0x20#8) := by
  revert b; decide
theorem rsv3Of_row (b : Byte) : (!rsv1Of b && !rsv2Of b && rsv3Of b) = decide (b &&& 0x70#8 = 0x10#8) := by
  revert b; decide
/-- Some RSV bit is set exactly when `S[0] & 0x70 != 0` (R92). -/
theorem anyRsv_eq_mask (b : Byte) : (rsv1Of b || rsv2Of b || rsv3Of b) = decide (b &&& 0x70#8 ≠ 0#8) := by
  revert b; decide

/-! ## Byte order -/

theorem be16_toNat (a b : Byte) : (be16 a b).toNat = a.toNat * 256 + b.toNat := by
  unfold be16
  rw [BitVec.toNat_append, Nat.shiftLeft_eq, ← Nat.shiftLeft_eq, ← Nat.shiftLeft_add_eq_or_of_lt b.isLt, Nat.shiftLeft_eq]

theorem be32_toNat (a b c d : Byte) :
    (be32 a b c d).toNat = a.toNat * 2 ^ 24 + b.toNat * 2 ^ 16 + c.toNat * 2 ^ 8 + d.toNat := by
  unfold be32
  rw [BitVec.toNat_append, BitVec.toNat_append, BitVec.toNat_append, ← Nat.shiftLeft_add_eq_or_of_lt d.isLt,
    ← Nat.shiftLeft_add_eq_or_of_lt c.isLt, ← Nat.shiftLeft_add_eq_or_of_lt b.isLt]
  simp only [Nat.shiftLeft_eq]
  omega

theorem be16_bytes (v : BitVec 16) : be16 (v.extractLsb' 8 8) (v.extractLsb' 0 8) = v := by
  apply BitVec.eq_of_toNat_eq
  rw [be16_toNat]
  simp only [BitVec.extractLsb'_toNat, Nat.shiftRight_eq_div_pow]
  have := v.isLt
  omega

theorem be32_bytes (v : BitVec 32) :
    be32 (v.extractLsb' 24 8) (v.extractLsb' 16 8) (v.extractLsb' 8 8) (v.extractLsb' 0 8) = v := by
  apply BitVec.eq_of_toNat_eq
  rw [be32_toNat]
  simp only [BitVec.extractLsb'_toNat, Nat.shiftRight_eq_div_pow]
  have := v.isLt
  omega

theorem bytes16_be16 (a b : Byte) : bytes16 (be16 a b) = [a, b] := by
  have ha := a.isLt
  have hb := b.isLt
  unfold bytes16
  congr 1
  · apply BitVec.eq_of_toNat_eq
    simp only [BitVec.extractLsb'_toNat, Nat.shiftRight_eq_div_pow, be16_toNat]; omega
  · congr 1
    apply BitVec.eq_of_toNat_eq
    simp only [BitVec.extractLsb'_toNat, Nat.shiftRight_eq_div_pow, be16_toNat]; omega

theorem bytes32_be32 (a b c d : Byte) : bytes32 (be32 a b c d) = [a, b, c, d] := by
  have ha := a.isLt
  have hb := b.isLt
  have hc := c.isLt
  have hd := d.isLt
  have h (i : Nat) (x : Byte) (hx : (a.toNat * 2 ^ 24 + b.toNat * 2 ^ 16 + c.toNat * 2 ^ 8 + d.toNat) / 2 ^ i % 2 ^ 8 = x.toNat) :
      (be32 a b c d).extractLsb' i 8 = x := by
    apply BitVec.eq_of_toNat_eq
    simpa only [BitVec.extractLsb'_toNat, Nat.shiftRight_eq_div_pow, be32_toNat] using hx
  unfold bytes32
  rw [h 24 a (by omega), h 16 b (by omega), h 8 c (by omega), h 0 d (by omega)]

@[simp] theorem be32_zero : be32 0#8 0#8 0#8 0#8 = 0#32 := by decide

/-- `bytes32` of any value starts with four bytes that read back as the value. -/
theorem bytes32_eq (v : BitVec 32) : ∃ a b c d, bytes32 v = [a, b, c, d] ∧ be32 a b c d = v :=
  ⟨_, _, _, _, rfl, be32_bytes v⟩

theorem bytes16_eq (v : BitVec 16) : ∃ a b, bytes16 v = [a, b] ∧ be16 a b = v :=
  ⟨_, _, rfl, be16_bytes v⟩

@[simp] theorem bytes16_length (v : BitVec 16) : (bytes16 v).length = 2 := rfl
@[simp] theorem bytes32_length (v : BitVec 32) : (bytes32 v).length = 4 := rfl
@[simp] theorem keyBytes_length (k : Key) : (keyBytes k).length = 4 := rfl
@[simp] theorem takeKey_keyBytes (k : Key) (t : List Byte) : takeKey (keyBytes k ++ t) = some (k, t) := rfl

/-! ## The format -/

/-- An S7 length is neither of the two selectors (R82). -/
theorem s7_ne {l : BitVec 7} (h : l.toNat ≤ 125) : l ≠ 126#7 ∧ l ≠ 127#7 := by
  constructor <;> (rintro rfl; revert h; decide)

theorem s7_le {l : BitVec 7} (h1 : l ≠ 126#7) (h2 : l ≠ 127#7) : l.toNat ≤ 125 := by
  have a : l.toNat ≠ 126 := fun h => h1 (BitVec.eq_of_toNat_eq h)
  have b : l.toNat ≠ 127 := fun h => h2 (BitVec.eq_of_toNat_eq h)
  have := l.isLt
  omega

/-- The bytes after byte 0 of a well-formed header decode to its format, with whatever follows left over. -/
theorem decodeForm_formBytes (f : HdrForm) (h : f.wf = true) (t : List Byte) :
    decodeForm (formBytes f ++ t) = .form f t := by
  cases f with
  | s7u l =>
    have hl := s7_ne (by simpa [HdrForm.wf] using h)
    simp [formBytes, decodeForm, decodeKey, hl]
  | s7m l k =>
    have hl := s7_ne (by simpa [HdrForm.wf] using h)
    simp [formBytes, decodeForm, decodeKey, hl]
  | e16u v =>
    obtain ⟨a, b, h1, h2⟩ := bytes16_eq v
    simp [formBytes, decodeForm, decodeKey, h1, h2]
  | e16m v k =>
    obtain ⟨a, b, h1, h2⟩ := bytes16_eq v
    simp [formBytes, decodeForm, decodeKey, h1, h2]
  | e64u v =>
    obtain ⟨a, b, c, d, h1, h2⟩ := bytes32_eq v
    have hz : bytes32 0#32 = [0#8, 0#8, 0#8, 0#8] := by decide
    simp [formBytes, decodeForm, decodeKey, h1, h2, hz]
  | e64m v k =>
    obtain ⟨a, b, c, d, h1, h2⟩ := bytes32_eq v
    have hz : bytes32 0#32 = [0#8, 0#8, 0#8, 0#8] := by decide
    simp [formBytes, decodeForm, decodeKey, h1, h2, hz]

/-- A format read from bytes is well-formed, and the bytes are its encoding. -/
theorem decodeForm_form {S : List Byte} {f : HdrForm} {t : List Byte} (h : decodeForm S = .form f t) :
    f.wf = true ∧ S = formBytes f ++ t := by
  have key {mask : Bool} {p : HdrForm} {m : Key → HdrForm} {S' : List Byte} (hk : decodeKey mask p m S' = .form f t) :
      (mask = false ∧ f = p ∧ S' = t) ∨ (mask = true ∧ ∃ k, f = m k ∧ S' = keyBytes k ++ t) := by
    cases mask with
    | false => simp only [decodeKey, Bool.false_eq_true, if_false, FormResult.form.injEq] at hk; exact .inl ⟨rfl, hk.1.symm, hk.2⟩
    | true =>
      simp only [decodeKey, if_true] at hk
      match S', hk with
      | k0 :: k1 :: k2 :: k3 :: r, hk =>
        simp only [takeKey, FormResult.form.injEq] at hk
        exact .inr ⟨rfl, ⟨k0, k1, k2, k3⟩, hk.1.symm, by simp [keyBytes, hk.2]⟩
      | [], hk => simp [takeKey] at hk
      | [_], hk => simp [takeKey] at hk
      | [_, _], hk => simp [takeKey] at hk
      | [_, _, _], hk => simp [takeKey] at hk
  match S with
  | [] => simp [decodeForm] at h
  | b1 :: S' =>
    have hb := byte1_of_fields b1
    by_cases h126 : len7Of b1 = 126#7
    · match S', h with
      | e1 :: e0 :: S'', h =>
        simp only [decodeForm, h126, if_true] at h
        obtain ⟨hm, rfl, rfl⟩ | ⟨hm, k, rfl, rfl⟩ := key h
        · simp [HdrForm.wf, formBytes, bytes16_be16, ← h126, ← hm, hb]
        · simp [HdrForm.wf, formBytes, bytes16_be16, ← h126, ← hm, hb]
      | [], h => simp [decodeForm, h126] at h
      | [_], h => simp [decodeForm, h126] at h
    · by_cases h127 : len7Of b1 = 127#7
      · match S', h with
        | h3 :: h2 :: h1 :: h0 :: l3 :: l2 :: l1 :: l0 :: S'', h =>
          simp only [decodeForm, h127] at h
          by_cases hz : be32 h3 h2 h1 h0 = 0#32
          · simp [hz] at h
            have e := bytes32_be32 h3 h2 h1 h0
            rw [hz] at e
            obtain ⟨hm, rfl, rfl⟩ | ⟨hm, k, rfl, rfl⟩ := key h
            · simp [HdrForm.wf, formBytes, bytes32_be32, ← h127, ← hm, hb, e]
            · simp [HdrForm.wf, formBytes, bytes32_be32, ← h127, ← hm, hb, e]
          · simp [hz] at h
        | [], h | [_], h | [_, _], h | [_, _, _], h | [_, _, _, _], h | [_, _, _, _, _], h | [_, _, _, _, _, _], h
        | [_, _, _, _, _, _, _], h => simp [decodeForm, h127] at h
      · simp only [decodeForm, h126, h127, if_false] at h
        have hl := s7_le h126 h127
        obtain ⟨hm, rfl, rfl⟩ | ⟨hm, k, rfl, rfl⟩ := key h
        · simp [HdrForm.wf, formBytes, ← hm, hb, hl]
        · simp [HdrForm.wf, formBytes, ← hm, hb, hl]

/-- The illegal upper half, read from bytes (R93). -/
theorem decodeForm_illegal {S : List Byte} {mask : Bool} {hi lo : BitVec 32} {t : List Byte}
    (h : decodeForm S = .illegalHi mask hi lo t) :
    hi ≠ 0#32 ∧ S = byte1 mask 127#7 :: (bytes32 hi ++ bytes32 lo) ++ t := by
  have key {mask' : Bool} {p : HdrForm} {m : Key → HdrForm} {S' : List Byte} : decodeKey mask' p m S' ≠ .illegalHi mask hi lo t := by
    unfold decodeKey
    split
    · split <;> simp
    · simp
  match S with
  | [] => simp [decodeForm] at h
  | b1 :: S' =>
    have hb := byte1_of_fields b1
    by_cases h126 : len7Of b1 = 126#7
    · match S', h with
      | e1 :: e0 :: S'', h => simp only [decodeForm, h126, if_true] at h; exact absurd h key
      | [], h => simp [decodeForm, h126] at h
      | [_], h => simp [decodeForm, h126] at h
    · by_cases h127 : len7Of b1 = 127#7
      · match S', h with
        | h3 :: h2 :: h1 :: h0 :: l3 :: l2 :: l1 :: l0 :: S'', h =>
          simp only [decodeForm, h127] at h
          by_cases hz : be32 h3 h2 h1 h0 = 0#32
          · simp [hz] at h
            exact absurd h key
          · simp [hz] at h
            obtain ⟨rfl, rfl, rfl, rfl⟩ := h
            simp [hz, bytes32_be32, ← h127, hb]
        | [], h | [_], h | [_, _], h | [_, _, _], h | [_, _, _, _], h | [_, _, _, _, _], h | [_, _, _, _, _, _], h
        | [_, _, _, _, _, _, _], h => simp [decodeForm, h127] at h
      · simp only [decodeForm, h126, h127, if_false] at h
        exact absurd h key

/-! ## The two views of a header -/

/-- The sixteen values of a 4-bit field. -/
theorem nibble_cases (op : Nibble) : op = 0x0#4 ∨ op = 0x1#4 ∨ op = 0x2#4 ∨ op = 0x3#4 ∨ op = 0x4#4 ∨ op = 0x5#4 ∨
    op = 0x6#4 ∨ op = 0x7#4 ∨ op = 0x8#4 ∨ op = 0x9#4 ∨ op = 0xA#4 ∨ op = 0xB#4 ∨ op = 0xC#4 ∨ op = 0xD#4 ∨ op = 0xE#4 ∨
    op = 0xF#4 := by
  revert op; decide

/-- The opcode row of a header encodes to the header's bytes, as the format row does. -/
theorem encode_frameInstr (fin : Bool) (op : Nibble) (f : HdrForm) :
    encode (frameInstr fin op f) = headerBytes fin op f := by
  rcases nibble_cases op with h | h | h | h | h | h | h | h | h | h | h | h | h | h | h | h <;> subst h <;> rfl

theorem wf_frameInstr (fin : Bool) (op : Nibble) (f : HdrForm) : (frameInstr fin op f).wf = f.wf := by
  rcases nibble_cases op with h | h | h | h | h | h | h | h | h | h | h | h | h | h | h | h <;> subst h <;> rfl

@[simp] theorem encode_hdrInstr (fin : Bool) (op : Nibble) (f : HdrForm) :
    encode (hdrInstr fin op f) = headerBytes fin op f := by
  cases f <;> rfl

@[simp] theorem wf_hdrInstr (fin : Bool) (op : Nibble) (f : HdrForm) : (hdrInstr fin op f).wf = f.wf := by
  cases f <;> rfl

/-- A decoder's answer on a non-empty sequence, by the rows: an RSV row, the E64HI row, a legal header, or more bytes needed. -/
theorem decodeWith_cons (row : Bool → Nibble → HdrForm → Instr) (b0 : Byte) (t : List Byte) :
    (rsv1Of b0 = true ∧ decodeWith row (b0 :: t) = .instr (.illRsv1 b0) t) ∨
    (rsv1Of b0 = false ∧ rsv2Of b0 = true ∧ decodeWith row (b0 :: t) = .instr (.illRsv2 b0) t) ∨
    (rsv1Of b0 = false ∧ rsv2Of b0 = false ∧ rsv3Of b0 = true ∧ decodeWith row (b0 :: t) = .instr (.illRsv3 b0) t) ∨
    (rsv1Of b0 = false ∧ rsv2Of b0 = false ∧ rsv3Of b0 = false ∧
      ((decodeForm t = .needMore ∧ decodeWith row (b0 :: t) = .needMore) ∨
       (∃ m hi lo r, decodeForm t = .illegalHi m hi lo r ∧
          decodeWith row (b0 :: t) = .instr (.illE64Hi (finOf b0) (opcodeOf b0) m hi lo) r) ∨
       (∃ f r, decodeForm t = .form f r ∧ decodeWith row (b0 :: t) = .instr (row (finOf b0) (opcodeOf b0) f) r))) := by
  cases h1 : rsv1Of b0 <;> cases h2 : rsv2Of b0 <;> cases h3 : rsv3Of b0 <;> simp [decodeWith, h1, h2, h3]
  cases h : decodeForm t <;> simp

end Sys2Proof
end

