-- ==== Sys2Proof/Laws/Masking.lean ====
section
/-! SUPPORT. Laws of the masking transform (R150 to R157) and of the Frame record (R28). -/

namespace Sys2Proof.Machine

open Sys2Proof

@[simp] theorem xorFrom_length (k : Key) (i : Nat) (bs : List Byte) : (xorFrom k i bs).length = bs.length := by
  induction bs generalizing i with
  | nil => rfl
  | cons b bs ih => simp [xorFrom, ih]

/-- The key index of a byte is its index in the whole payload (R154). -/
theorem xorFrom_append (k : Key) (i : Nat) (as bs : List Byte) :
    xorFrom k i (as ++ bs) = xorFrom k i as ++ xorFrom k (i + as.length) bs := by
  induction as generalizing i with
  | nil => simp [xorFrom]
  | cons a as ih => simp [xorFrom, ih]; congr 1; omega

/-- Applying the key twice gives the bytes back: `(a XOR k) XOR k = a` (R152, R157). -/
theorem xorFrom_xorFrom (k : Key) (i : Nat) (bs : List Byte) : xorFrom k i (xorFrom k i bs) = bs := by
  induction bs generalizing i with
  | nil => rfl
  | cons b bs ih => simp [xorFrom, ih]

theorem keyAt_eq (k : Key) (i : Nat) : keyAt k i = [k.k0, k.k1, k.k2, k.k3].getD (i % 4) 0#8 := by
  unfold keyAt
  have : i % 4 < 4 := Nat.mod_lt _ (by decide)
  split <;> rename_i h <;> simp_all
  rename_i h0 h1 h2
  have : i % 4 = 3 := by omega
  simp [this]

@[simp] theorem keyAt_zero (i : Nat) : keyAt zeroKey i = 0#8 := by
  unfold keyAt; split <;> rfl

/-- The all-zero key is the identity: `b XOR 0 = b` (R153). -/
theorem xorFrom_zero (i : Nat) (bs : List Byte) : xorFrom zeroKey i bs = bs := by
  induction bs generalizing i with
  | nil => rfl
  | cons b bs ih => simp [xorFrom, ih]

theorem xorFrom_getD (k : Key) (i j : Nat) (bs : List Byte) (h : j < bs.length) :
    (xorFrom k i bs).getD j 0#8 = bs.getD j 0#8 ^^^ keyAt k (i + j) := by
  induction bs generalizing i j with
  | nil => simp at h
  | cons b bs ih =>
    cases j with
    | zero => simp [xorFrom]
    | succ j =>
      have := ih (i + 1) j (by simpa using h)
      simp only [xorFrom, List.getD_cons_succ, this]
      congr 2; omega

/-- UNMASK on a long enough input is the transform of R150. -/
theorem unmaskBytes_isUnmasked (k : Key) (raw : List Byte) (n : Nat) (h : n ≤ raw.length) :
    IsUnmasked k raw n (unmaskBytes raw n k) where
  length := by simp [unmaskBytes, Nat.min_eq_left h]
  byte i hi := by
    have hi' : i < (raw.take n).length := by simp; omega
    rw [unmaskBytes, xorFrom_getD k 0 i _ hi', Nat.zero_add, keyAt_eq]
    congr 1
    simp [List.getD, hi]

@[simp] theorem unmaskBytes_length (k : Key) (raw : List Byte) (n : Nat) : (unmaskBytes raw n k).length = min n raw.length := by
  simp [unmaskBytes]

/-- `HL + payloadLen` does not overflow 33 bits (R40, R127). -/
theorem frameLen_toNat (h : Nibble) (len : BitVec 32) :
    (h.setWidth 33 + len.setWidth 33 : BitVec 33).toNat = h.toNat + len.toNat := by
  have := h.isLt
  have := len.isLt
  simp only [BitVec.toNat_add, BitVec.toNat_setWidth]
  omega

theorem frameLen_eq_ofNat (h : Nibble) (len : BitVec 32) :
    (h.setWidth 33 + len.setWidth 33 : BitVec 33) = BitVec.ofNat 33 (h.toNat + len.toNat) := by
  apply BitVec.eq_of_toNat_eq
  rw [frameLen_toNat]
  have := h.isLt
  have := len.isLt
  simp only [BitVec.toNat_ofNat]
  omega

/-- The payload of the Frame has exactly `payloadLen` bytes when the raw payload has (R29). -/
theorem frameOf_payload_length (h : Header) (raw : List Byte) (hr : raw.length = h.payloadLen.toNat) :
    (frameOf h raw).payload.length = h.payloadLen.toNat := by
  simp only [frameOf]
  split
  · simp [hr]
  · exact hr

end Sys2Proof.Machine
end

