-- ==== Sys2Proof/Laws/Parse.lean ====
section
/-! SUPPORT. Laws of ParseHeader: its answer on the bytes of each row, what each answer says about the bytes, and that more bytes
never change an answer once it is given. -/

namespace Sys2Proof.Machine

open Sys2Proof

/-! ## The header record of a format -/

@[simp] theorem formHeader_fin (fin : Bool) (op : Nibble) (f : HdrForm) : (formHeader fin op f).fin = fin := by cases f <;> rfl
@[simp] theorem formHeader_rsv1 (fin : Bool) (op : Nibble) (f : HdrForm) : (formHeader fin op f).rsv1 = false := by cases f <;> rfl
@[simp] theorem formHeader_rsv2 (fin : Bool) (op : Nibble) (f : HdrForm) : (formHeader fin op f).rsv2 = false := by cases f <;> rfl
@[simp] theorem formHeader_rsv3 (fin : Bool) (op : Nibble) (f : HdrForm) : (formHeader fin op f).rsv3 = false := by cases f <;> rfl
@[simp] theorem formHeader_opcode (fin : Bool) (op : Nibble) (f : HdrForm) : (formHeader fin op f).opcode = op := by cases f <;> rfl

/-- `HL` is the number of bytes the header has on the wire (R89). -/
theorem headerBytes_length (fin : Bool) (op : Nibble) (f : HdrForm) :
    (headerBytes fin op f).length = (formHeader fin op f).hl.toNat := by cases f <;> rfl

theorem formHeader_hl_bounds (fin : Bool) (op : Nibble) (f : HdrForm) :
    2 ≤ (formHeader fin op f).hl.toNat ∧ (formHeader fin op f).hl.toNat ≤ 14 := by
  cases f <;> simp [formHeader]

theorem formHeader_key (fin : Bool) (op : Nibble) (f : HdrForm) (h : (formHeader fin op f).mask = false) :
    (formHeader fin op f).key = zeroKey := by cases f <;> first | rfl | cases h

/-- The header length of a well-formed header is legal for its mask and length (R83). -/
theorem formHeader_legal (fin : Bool) (op : Nibble) (f : HdrForm) (h : f.wf = true) :
    legalHl (formHeader fin op f).mask (formHeader fin op f).payloadLen.toNat (formHeader fin op f).hl := by
  cases f with
  | s7u l =>
    have h' : l.toNat ≤ 125 := by simpa [HdrForm.wf] using h
    exact .inl ⟨rfl, by simp only [formHeader, BitVec.toNat_setWidth]; omega⟩
  | s7m l k =>
    have h' : l.toNat ≤ 125 := by simpa [HdrForm.wf] using h
    exact .inl ⟨rfl, by simp only [formHeader, BitVec.toNat_setWidth]; omega⟩
  | e16u v => exact .inr (.inl ⟨rfl, by have := v.isLt; simp only [formHeader, BitVec.toNat_setWidth]; omega⟩)
  | e16m v k => exact .inr (.inl ⟨rfl, by have := v.isLt; simp only [formHeader, BitVec.toNat_setWidth]; omega⟩)
  | e64u v => exact .inr (.inr rfl)
  | e64m v k => exact .inr (.inr rfl)

/-! ## The steps of ParseHeader -/

/-- Steps 2 to 5 once byte 0 has passed and byte 1 is present (R112). -/
theorem parseHeader_cons (cfg : Config) (b0 b1 : Byte) (t : List Byte)
    (hr : (rsv1Of b0 || rsv2Of b0 || rsv3Of b0) = false) :
    parseHeader cfg (b0 :: b1 :: t) =
      match lengthField (b0 :: b1 :: t) (len7Of b1) with
      | .incomplete => .incomplete
      | .error e => .error e
      | .known payloadLen off =>
        if cfg.payloadCap < payloadLen.toNat then .error (.unsupportedLength 0#32 payloadLen)
        else keyField (b0 :: b1 :: t) b0 (maskOf b1) payloadLen off := by
  have h0 : byteAt (b0 :: b1 :: t) 0 = b0 := rfl
  have h1 : byteAt (b0 :: b1 :: t) 1 = b1 := rfl
  have h2 : ¬ (b0 :: b1 :: t).length < 2 := by simp only [List.length_cons]; omega
  simp only [parseHeader, h0, h1, hr, h2, if_false, Bool.false_eq_true] <;> rfl

theorem lengthField_s7 (S : List Byte) {l : BitVec 7} (h1 : l ≠ 126#7) (h2 : l ≠ 127#7) :
    lengthField S l = .known (l.setWidth 32) 2 := by simp only [lengthField, h1, h2, if_false]

theorem lengthField_e16 (b0 b1 e1 e0 : Byte) (t : List Byte) :
    lengthField (b0 :: b1 :: e1 :: e0 :: t) 126#7 = .known ((be16 e1 e0).setWidth 32) 4 := by
  have h : ¬ (b0 :: b1 :: e1 :: e0 :: t).length < 4 := by simp only [List.length_cons]; omega
  simp only [lengthField, h, if_true, if_false]; rfl

theorem lengthField_e16_short {S : List Byte} (h : S.length < 4) : lengthField S 126#7 = .incomplete := by
  simp only [lengthField, h, if_true]

theorem lengthField_e64 (b0 b1 h3 h2 h1 h0 l3 l2 l1 l0 : Byte) (t : List Byte) :
    lengthField (b0 :: b1 :: h3 :: h2 :: h1 :: h0 :: l3 :: l2 :: l1 :: l0 :: t) 127#7 =
      if be32 h3 h2 h1 h0 ≠ 0#32 then .error (.unsupportedLength (be32 h3 h2 h1 h0) (be32 l3 l2 l1 l0))
      else .known (be32 l3 l2 l1 l0) 10 := by
  have h : ¬ (b0 :: b1 :: h3 :: h2 :: h1 :: h0 :: l3 :: l2 :: l1 :: l0 :: t).length < 10 := by
    simp only [List.length_cons]; omega
  have hne : ¬ (127#7 = 126#7) := by decide
  simp only [lengthField, h, hne, if_true, if_false]; rfl

theorem lengthField_e64_short {S : List Byte} (h : S.length < 10) : lengthField S 127#7 = .incomplete := by
  have hne : ¬ (127#7 = 126#7) := by decide
  simp only [lengthField, h, hne, if_true, if_false]

theorem keyField_short {S : List Byte} {b0 : Byte} {len : BitVec 32} {off : Nat} (h : S.length < off + 4) :
    keyField S b0 true len off = .incomplete := by simp only [keyField, h, if_true]

/-! ## ParseHeader on the rows -/

/-- A nonzero RSV bit is met first, whatever follows (R201, R205). -/
theorem parseHeader_rsv (cfg : Config) (b0 : Byte) (t : List Byte) (h : (rsv1Of b0 || rsv2Of b0 || rsv3Of b0) = true) :
    parseHeader cfg (b0 :: t) = .error (.protocol b0 cfg.protocolErrorCloseCode) := by
  have : byteAt (b0 :: t) 0 = b0 := rfl
  simp only [parseHeader, this, h, if_true]

/-- The key field of a masked header, its four bytes standing at the offset after the length (R88). -/
theorem keyField_masked {fin : Bool} {op : Nibble} {len : BitVec 32} {S P : List Byte} {k : Key} {t : List Byte} {off : Nat}
    (hS : S = P ++ (keyBytes k ++ t)) (ho : P.length = off) :
    keyField S (byte0 fin op) true len off =
      .header ⟨fin, false, false, false, op, true, len, k, BitVec.ofNat 4 (off + 4)⟩ := by
  subst hS ho
  have h : ¬ (P ++ (keyBytes k ++ t)).length < P.length + 4 := by simp
  have hb (i : Nat) (x : Byte) (hi : (keyBytes k)[i]? = some x) : byteAt (P ++ (keyBytes k ++ t)) (P.length + i) = x := by
    have hlt : i < (keyBytes k).length := by
      by_contra hc
      rw [List.getElem?_eq_none (by omega)] at hi; cases hi
    simp [byteAt, List.getD, List.getElem?_append_right, List.getElem?_append_left hlt, hi]
  have h0 : byteAt (P ++ (keyBytes k ++ t)) P.length = k.k0 := hb 0 k.k0 rfl
  simp only [keyField, h, if_true, if_false, finOf_byte0, rsv1Of_byte0, rsv2Of_byte0, rsv3Of_byte0, opcodeOf_byte0,
    h0, hb 1 k.k1 rfl, hb 2 k.k2 rfl, hb 3 k.k3 rfl]

theorem keyField_plain (S : List Byte) (fin : Bool) (op : Nibble) (len : BitVec 32) (off : Nat) :
    keyField S (byte0 fin op) false len off =
      .header ⟨fin, false, false, false, op, false, len, zeroKey, BitVec.ofNat 4 off⟩ := by
  simp only [keyField, Bool.false_eq_true, if_false, finOf_byte0, rsv1Of_byte0, rsv2Of_byte0, rsv3Of_byte0, opcodeOf_byte0]

/-- The bytes of a well-formed header give its record, or the capacity error (R112). -/
theorem parseHeader_headerBytes (cfg : Config) (fin : Bool) (op : Nibble) (f : HdrForm) (hf : f.wf = true) (t : List Byte) :
    parseHeader cfg (headerBytes fin op f ++ t) =
      if cfg.payloadCap < (formHeader fin op f).payloadLen.toNat then
        .error (.unsupportedLength 0#32 (formHeader fin op f).payloadLen)
      else .header (formHeader fin op f) := by
  have hr : (rsv1Of (byte0 fin op) || rsv2Of (byte0 fin op) || rsv3Of (byte0 fin op)) = false := by simp
  have hz : bytes32 0#32 = [0#8, 0#8, 0#8, 0#8] := by decide
  cases f with
  | s7u l =>
    have hl := s7_ne (by simpa [HdrForm.wf] using hf)
    simp only [headerBytes, formBytes, List.cons_append, parseHeader_cons cfg _ _ _ hr, len7Of_byte1, maskOf_byte1,
      lengthField_s7 _ hl.1 hl.2, keyField_plain, formHeader]
    rfl
  | s7m l k =>
    have hl := s7_ne (by simpa [HdrForm.wf] using hf)
    simp only [headerBytes, formBytes, List.cons_append, parseHeader_cons cfg _ _ _ hr, len7Of_byte1, maskOf_byte1,
      lengthField_s7 _ hl.1 hl.2, formHeader]
    have hk := @keyField_masked fin op (l.setWidth 32) (byte0 fin op :: byte1 true l :: (keyBytes k ++ t)) [byte0 fin op, byte1 true l] k t 2 rfl rfl
    simp only [hk]
    rfl
  | e16u v =>
    obtain ⟨a, b, h1, h2⟩ := bytes16_eq v
    simp only [headerBytes, formBytes, h1, List.cons_append, List.nil_append, parseHeader_cons cfg _ _ _ hr, len7Of_byte1,
      maskOf_byte1, lengthField_e16, keyField_plain, formHeader, h2]
    rfl
  | e16m v k =>
    obtain ⟨a, b, h1, h2⟩ := bytes16_eq v
    simp only [headerBytes, formBytes, h1, List.cons_append, List.nil_append, parseHeader_cons cfg _ _ _ hr, len7Of_byte1,
      maskOf_byte1, lengthField_e16, formHeader, h2]
    have hk := @keyField_masked fin op (v.setWidth 32) (byte0 fin op :: byte1 true 126#7 :: a :: b :: (keyBytes k ++ t)) [byte0 fin op, byte1 true 126#7, a, b] k t 4 rfl rfl
    simp only [hk]
    rfl
  | e64u v =>
    obtain ⟨a, b, c, d, h1, h2⟩ := bytes32_eq v
    simp only [headerBytes, formBytes, hz, h1, List.cons_append, List.nil_append, parseHeader_cons cfg _ _ _ hr, len7Of_byte1,
      maskOf_byte1, lengthField_e64, be32_zero, ne_eq, not_true_eq_false, if_false, keyField_plain, formHeader, h2]
    rfl
  | e64m v k =>
    obtain ⟨a, b, c, d, h1, h2⟩ := bytes32_eq v
    simp only [headerBytes, formBytes, hz, h1, List.cons_append, List.nil_append, parseHeader_cons cfg _ _ _ hr, len7Of_byte1,
      maskOf_byte1, lengthField_e64, be32_zero, ne_eq, not_true_eq_false, if_false, formHeader, h2]
    have hk := @keyField_masked fin op v (byte0 fin op :: byte1 true 127#7 :: 0#8 :: 0#8 :: 0#8 :: 0#8 :: a :: b :: c :: d :: (keyBytes k ++ t)) [byte0 fin op, byte1 true 127#7, 0#8, 0#8, 0#8, 0#8, a, b, c, d] k t 10 rfl rfl
    simp only [hk]
    rfl

/-- The bytes of the E64HI row raise UnsupportedLengthError with both halves (R87, R112). -/
theorem parseHeader_illE64Hi (cfg : Config) (fin : Bool) (op : Nibble) (mask : Bool) (hi lo : BitVec 32) (h : hi ≠ 0#32)
    (t : List Byte) :
    parseHeader cfg (encode (.illE64Hi fin op mask hi lo) ++ t) = .error (.unsupportedLength hi lo) := by
  have hr : (rsv1Of (byte0 fin op) || rsv2Of (byte0 fin op) || rsv3Of (byte0 fin op)) = false := by simp
  obtain ⟨a, b, c, d, h1, h2⟩ := bytes32_eq hi
  obtain ⟨a', b', c', d', h1', h2'⟩ := bytes32_eq lo
  simp only [encode, h1, h1', List.cons_append, List.nil_append, parseHeader_cons cfg _ _ _ hr, len7Of_byte1, lengthField_e64,
    h2, h2', h, ne_eq, not_false_eq_true, if_true]

/-- While the decoder needs more bytes, ParseHeader is incomplete, or the length it has read is over the capacity (R112). -/
theorem parseHeader_needMore (cfg : Config) (b0 : Byte) (t : List Byte) (hr : (rsv1Of b0 || rsv2Of b0 || rsv3Of b0) = false)
    (h : decodeForm t = .needMore) :
    (parseHeader cfg (b0 :: t) = .incomplete ∧ t.length < 13 ∧ (b0 :: t).length < calledLength (b0 :: t)) ∨
    ∃ len : BitVec 32, cfg.payloadCap < len.toNat ∧ parseHeader cfg (b0 :: t) = .error (.unsupportedLength 0#32 len) := by
  have key {m : Bool} {p : HdrForm} {k : Key → HdrForm} {S : List Byte} (hk : decodeKey m p k S = .needMore) :
      m = true ∧ S.length < 4 := by
    cases m with
    | false => simp [decodeKey] at hk
    | true =>
      match S, hk with
      | _ :: _ :: _ :: _ :: _, hk => simp [decodeKey, takeKey] at hk
      | [], _ | [_], _ | [_, _], _ | [_, _, _], _ => simp
  -- once the length is known, only the key can be missing
  have fin {b1 : Byte} {t' : List Byte} {len : BitVec 32} {off : Nat} (hl : lengthField (b0 :: b1 :: t') (len7Of b1) = .known len off)
      (hm : maskOf b1 = true) (hs : (b0 :: b1 :: t').length < off + 4) (ho : off ≤ 10)
      (hc : off + 4 ≤ calledLength (b0 :: b1 :: t')) :
      (parseHeader cfg (b0 :: b1 :: t') = .incomplete ∧ (b1 :: t').length < 13 ∧
        (b0 :: b1 :: t').length < calledLength (b0 :: b1 :: t')) ∨
      ∃ len : BitVec 32, cfg.payloadCap < len.toNat ∧
        parseHeader cfg (b0 :: b1 :: t') = .error (.unsupportedLength 0#32 len) := by
    rw [parseHeader_cons cfg b0 b1 t' hr, hl]
    by_cases hcap : cfg.payloadCap < len.toNat
    · exact .inr ⟨len, hcap, by simp only [hcap, if_true]⟩
    · refine .inl ⟨by simp only [hcap, if_false, hm, keyField_short hs], ?_, by omega⟩
      simp only [List.length_cons] at hs ⊢; omega
  -- or the length itself is not all there
  have short {b1 : Byte} {t' : List Byte} (hl : lengthField (b0 :: b1 :: t') (len7Of b1) = .incomplete)
      (hs : t'.length < 8) (hc : (b0 :: b1 :: t').length < calledLength (b0 :: b1 :: t')) :
      (parseHeader cfg (b0 :: b1 :: t') = .incomplete ∧ (b1 :: t').length < 13 ∧
        (b0 :: b1 :: t').length < calledLength (b0 :: b1 :: t')) := by
    refine ⟨by rw [parseHeader_cons cfg b0 b1 t' hr, hl], ?_, hc⟩
    simp only [List.length_cons]; omega
  match t with
  | [] => left; simp [parseHeader, byteAt, hr, calledLength]
  | b1 :: t' =>
    by_cases h126 : len7Of b1 = 126#7
    · match t', h with
      | e1 :: e0 :: t'', h =>
        simp only [decodeForm, h126, if_true] at h
        obtain ⟨hm, hs⟩ := key h
        exact fin (by rw [h126, lengthField_e16]) hm (by simp only [List.length_cons]; omega) (by omega)
          (by simp [calledLength, h126, hm])
      | [], _ => exact .inl (short (by rw [h126]; exact lengthField_e16_short (by simp)) (by simp) (by simp [calledLength, h126]; omega))
      | [_], _ => exact .inl (short (by rw [h126]; exact lengthField_e16_short (by simp)) (by simp) (by simp [calledLength, h126]; omega))
    · by_cases h127 : len7Of b1 = 127#7
      · match t', h with
        | h3 :: h2 :: h1 :: h0 :: l3 :: l2 :: l1 :: l0 :: t'', h =>
          have hne : ¬ (127#7 = 126#7) := by decide
          simp only [decodeForm, h127, hne, if_true, if_false] at h
          by_cases hz : be32 h3 h2 h1 h0 = 0#32
          · simp only [hz, ne_eq, not_true_eq_false, if_false] at h
            obtain ⟨hm, hs⟩ := key h
            exact fin (by rw [h127, lengthField_e64, hz]; rfl) hm (by simp only [List.length_cons]; omega) (by omega)
              (by simp [calledLength, h127, hm])
          · simp [hz] at h
        | [], _ | [_], _ | [_, _], _ | [_, _, _], _ | [_, _, _, _], _ | [_, _, _, _, _], _ | [_, _, _, _, _, _], _
        | [_, _, _, _, _, _, _], _ =>
          exact .inl (short (by rw [h127]; exact lengthField_e64_short (by simp)) (by simp) (by simp [calledLength, h127]; omega))
      · simp only [decodeForm, h126, h127, if_false] at h
        obtain ⟨hm, hs⟩ := key h
        exact fin (lengthField_s7 _ h126 h127) hm (by simp only [List.length_cons]; omega) (by omega)
          (by simp [calledLength, h126, h127, hm])

/-! ## What an answer says -/

/-- Everything a header answer says: it is the record of a well-formed header within the capacity, whose bytes stand at the front
(R112). -/
theorem parseHeader_header {cfg : Config} {S : List Byte} (hS : S ≠ []) {h : Header} (hp : parseHeader cfg S = .header h) :
    ∃ fin op f r, f.wf = true ∧ h = formHeader fin op f ∧ S = headerBytes fin op f ++ r ∧ h.payloadLen.toNat ≤ cfg.payloadCap := by
  match S, hS with
  | b0 :: t, _ =>
    cases hr : (rsv1Of b0 || rsv2Of b0 || rsv3Of b0) with
    | true => rw [parseHeader_rsv cfg b0 t hr] at hp; cases hp
    | false =>
      have hb : byte0 (finOf b0) (opcodeOf b0) = b0 := by
        simp only [Bool.or_eq_false_iff] at hr
        exact byte0_of_fields b0 hr.1.1 hr.1.2 hr.2
      cases hd : decodeForm t with
      | needMore =>
        rcases parseHeader_needMore cfg b0 t hr hd with h' | ⟨_, _, h'⟩
        · rw [h'.1] at hp; cases hp
        · rw [h'] at hp; cases hp
      | illegalHi m hi lo r =>
        obtain ⟨hz, rfl⟩ := decodeForm_illegal hd
        have := parseHeader_illE64Hi cfg (finOf b0) (opcodeOf b0) m hi lo hz r
        simp only [encode, hb, List.cons_append] at this
        simp only [List.cons_append] at hp
        rw [this] at hp; cases hp
      | form f r =>
        obtain ⟨hw, rfl⟩ := decodeForm_form hd
        have := parseHeader_headerBytes cfg (finOf b0) (opcodeOf b0) f hw r
        simp only [headerBytes, hb, List.cons_append] at this
        rw [this] at hp
        split at hp
        · cases hp
        · cases hp
          exact ⟨finOf b0, opcodeOf b0, f, r, hw, rfl, by simp [headerBytes, hb], by omega⟩

/-- An incomplete header is at most 13 bytes and shorter than the length its bytes call for (R26, R113). -/
theorem parseHeader_incomplete {cfg : Config} {S : List Byte} (hS : S ≠ []) (hp : parseHeader cfg S = .incomplete) :
    1 ≤ S.length ∧ S.length ≤ 13 ∧ S.length < calledLength S := by
  match S, hS with
  | b0 :: t, _ =>
    cases hr : (rsv1Of b0 || rsv2Of b0 || rsv3Of b0) with
    | true => rw [parseHeader_rsv cfg b0 t hr] at hp; cases hp
    | false =>
      have hb : byte0 (finOf b0) (opcodeOf b0) = b0 := by
        simp only [Bool.or_eq_false_iff] at hr
        exact byte0_of_fields b0 hr.1.1 hr.1.2 hr.2
      cases hd : decodeForm t with
      | needMore =>
        rcases parseHeader_needMore cfg b0 t hr hd with h' | ⟨_, _, h'⟩
        · simp only [List.length_cons] at h' ⊢; omega
        · rw [h'] at hp; cases hp
      | illegalHi m hi lo r =>
        obtain ⟨hz, rfl⟩ := decodeForm_illegal hd
        have := parseHeader_illE64Hi cfg (finOf b0) (opcodeOf b0) m hi lo hz r
        simp only [encode, hb, List.cons_append] at this
        simp only [List.cons_append] at hp
        rw [this] at hp; cases hp
      | form f r =>
        obtain ⟨hw, rfl⟩ := decodeForm_form hd
        have := parseHeader_headerBytes cfg (finOf b0) (opcodeOf b0) f hw r
        simp only [headerBytes, hb, List.cons_append] at this
        rw [this] at hp
        split at hp <;> cases hp

/-! ## More bytes -/

theorem byteAt_append {S : List Byte} {i : Nat} (h : i < S.length) (t : List Byte) : byteAt (S ++ t) i = byteAt S i := by
  simp [byteAt, List.getD, List.getElem?_append_left h]

/-- An answer other than Incomplete stays the same when more bytes follow: the steps that ran read the same bytes (R112, R125). -/
theorem parseHeader_append {cfg : Config} {S : List Byte} (hS : S ≠ []) (h : parseHeader cfg S ≠ .incomplete) (t : List Byte) :
    parseHeader cfg (S ++ t) = parseHeader cfg S := by
  have h0 : 0 < S.length := List.length_pos_iff.mpr hS
  unfold parseHeader at h ⊢
  simp only [byteAt_append h0] at *
  cases hr : (rsv1Of (byteAt S 0) || rsv2Of (byteAt S 0) || rsv3Of (byteAt S 0))
  · simp only [hr, Bool.false_eq_true, if_false] at h ⊢
    by_cases h2 : S.length < 2
    · simp [h2] at h
    · have hle : S.length ≤ (S ++ t).length := by simp
      have h2' : ¬ (S ++ t).length < 2 := by omega
      simp only [h2, h2', if_false, byteAt_append (show 1 < S.length by omega)] at h ⊢
      have hlen : lengthField S (len7Of (byteAt S 1)) ≠ .incomplete →
          lengthField (S ++ t) (len7Of (byteAt S 1)) = lengthField S (len7Of (byteAt S 1)) := by
        unfold lengthField
        by_cases a : len7Of (byteAt S 1) = 126#7
        · simp only [a, if_true]
          by_cases h4 : S.length < 4
          · simp [h4]
          · intro _
            have h4' : ¬ (S ++ t).length < 4 := by omega
            simp only [h4, h4', if_false]
            rw [byteAt_append (show 2 < S.length by omega), byteAt_append (show 3 < S.length by omega)]
        · by_cases b : len7Of (byteAt S 1) = 127#7
          · have hne : ¬ (127#7 = 126#7) := by decide
            simp only [b, hne, if_true, if_false]
            by_cases h10 : S.length < 10
            · simp [h10]
            · intro _
              have h10' : ¬ (S ++ t).length < 10 := by omega
              simp only [h10, h10', if_false]
              rw [byteAt_append (show 2 < S.length by omega), byteAt_append (show 3 < S.length by omega),
                byteAt_append (show 4 < S.length by omega), byteAt_append (show 5 < S.length by omega),
                byteAt_append (show 6 < S.length by omega), byteAt_append (show 7 < S.length by omega),
                byteAt_append (show 8 < S.length by omega), byteAt_append (show 9 < S.length by omega)]
          · simp [a, b]
      have hne : lengthField S (len7Of (byteAt S 1)) ≠ .incomplete := by
        intro e; rw [e] at h; exact h rfl
      rw [hlen hne]
      cases hl : lengthField S (len7Of (byteAt S 1)) with
      | incomplete => exact absurd hl hne
      | error e => rfl
      | known len off =>
        simp only [hl] at h ⊢
        split at h
        · rename_i hc; simp [hc]
        · rename_i hc
          simp only [hc, if_false]
          unfold keyField at h ⊢
          cases hm : maskOf (byteAt S 1)
          · simp
          · simp only [hm, if_true] at h ⊢
            by_cases ho : S.length < off + 4
            · simp [ho] at h
            · have ho' : ¬ (S ++ t).length < off + 4 := by omega
              simp only [ho, ho', if_false]
              rw [byteAt_append (show off < S.length by omega), byteAt_append (show off + 1 < S.length by omega),
                byteAt_append (show off + 2 < S.length by omega), byteAt_append (show off + 3 < S.length by omega)]
  · simp

end Sys2Proof.Machine
end

