-- ==== Sys2Proof/Laws/State.lean ====
section
/-! SUPPORT. One lemma per field per state change, true by rfl: no later proof unfolds a record update. -/

namespace Sys2Proof.Machine

open Sys2Proof

@[simp] theorem State.reply_cfg (s : State) (r : Result) : (s.reply r).cfg = s.cfg := rfl
@[simp] theorem State.reply_st (s : State) (r : Result) : (s.reply r).st = s.st := rfl
@[simp] theorem State.reply_err (s : State) (r : Result) : (s.reply r).err = s.err := rfl
@[simp] theorem State.reply_hb (s : State) (r : Result) : (s.reply r).hb = s.hb := rfl
@[simp] theorem State.reply_ppf (s : State) (r : Result) : (s.reply r).ppf = s.ppf := rfl
@[simp] theorem State.reply_q (s : State) (r : Result) : (s.reply r).q = s.q := rfl
@[simp] theorem State.reply_inp (s : State) (r : Result) : (s.reply r).inp = s.inp := rfl
@[simp] theorem State.reply_pending (s : State) (r : Result) : (s.reply r).pending = s.pending := rfl
@[simp] theorem State.reply_result (s : State) (r : Result) : (s.reply r).result = r := rfl

@[simp] theorem State.answer_cfg (s : State) (r : Result) : (s.answer r).cfg = s.cfg := rfl
@[simp] theorem State.answer_st (s : State) (r : Result) : (s.answer r).st = s.st := rfl
@[simp] theorem State.answer_err (s : State) (r : Result) : (s.answer r).err = s.err := rfl
@[simp] theorem State.answer_hb (s : State) (r : Result) : (s.answer r).hb = s.hb := rfl
@[simp] theorem State.answer_ppf (s : State) (r : Result) : (s.answer r).ppf = s.ppf := rfl
@[simp] theorem State.answer_q (s : State) (r : Result) : (s.answer r).q = s.q := rfl
@[simp] theorem State.answer_inp (s : State) (r : Result) : (s.answer r).inp = [] := rfl
@[simp] theorem State.answer_pending (s : State) (r : Result) : (s.answer r).pending = s.pending := rfl
@[simp] theorem State.answer_result (s : State) (r : Result) : (s.answer r).result = r := rfl

@[simp] theorem State.raised_cfg (s : State) (e : ErrorInfo) : (s.raised e).cfg = s.cfg := rfl
@[simp] theorem State.raised_st (s : State) (e : ErrorInfo) : (s.raised e).st = .error := rfl
@[simp] theorem State.raised_err (s : State) (e : ErrorInfo) : (s.raised e).err = errorCode e := rfl
@[simp] theorem State.raised_hb (s : State) (e : ErrorInfo) : (s.raised e).hb = [] := rfl
@[simp] theorem State.raised_ppf (s : State) (e : ErrorInfo) : (s.raised e).ppf = none := rfl
@[simp] theorem State.raised_q (s : State) (e : ErrorInfo) : (s.raised e).q = s.q := rfl
@[simp] theorem State.raised_inp (s : State) (e : ErrorInfo) : (s.raised e).inp = [] := rfl
@[simp] theorem State.raised_pending (s : State) (e : ErrorInfo) : (s.raised e).pending = s.pending := rfl
@[simp] theorem State.raised_result (s : State) (e : ErrorInfo) : (s.raised e).result = .error e := rfl

@[simp] theorem State.restarted_cfg (s : State) : (s.restarted).cfg = s.cfg := rfl
@[simp] theorem State.restarted_st (s : State) : (s.restarted).st = .idle := rfl
@[simp] theorem State.restarted_err (s : State) : (s.restarted).err = .none := rfl
@[simp] theorem State.restarted_hb (s : State) : (s.restarted).hb = [] := rfl
@[simp] theorem State.restarted_ppf (s : State) : (s.restarted).ppf = none := rfl
@[simp] theorem State.restarted_q (s : State) : (s.restarted).q = [] := rfl
@[simp] theorem State.restarted_inp (s : State) : (s.restarted).inp = [] := rfl
@[simp] theorem State.restarted_pending (s : State) : (s.restarted).pending = s.pending := rfl
@[simp] theorem State.restarted_result (s : State) : (s.restarted).result = .done := rfl

@[simp] theorem State.held_cfg (s : State) (S : List Byte) : (s.held S).cfg = s.cfg := rfl
@[simp] theorem State.held_st (s : State) (S : List Byte) : (s.held S).st = .awaitHdr := rfl
@[simp] theorem State.held_err (s : State) (S : List Byte) : (s.held S).err = s.err := rfl
@[simp] theorem State.held_hb (s : State) (S : List Byte) : (s.held S).hb = S := rfl
@[simp] theorem State.held_ppf (s : State) (S : List Byte) : (s.held S).ppf = s.ppf := rfl
@[simp] theorem State.held_q (s : State) (S : List Byte) : (s.held S).q = s.q := rfl
@[simp] theorem State.held_inp (s : State) (S : List Byte) : (s.held S).inp = s.inp := rfl
@[simp] theorem State.held_pending (s : State) (S : List Byte) : (s.held S).pending = s.pending := rfl
@[simp] theorem State.held_result (s : State) (S : List Byte) : (s.held S).result = s.result := rfl

@[simp] theorem State.headerTaken_cfg (s : State) (rest : List Byte) : (s.headerTaken rest).cfg = s.cfg := rfl
@[simp] theorem State.headerTaken_st (s : State) (rest : List Byte) : (s.headerTaken rest).st = s.st := rfl
@[simp] theorem State.headerTaken_err (s : State) (rest : List Byte) : (s.headerTaken rest).err = s.err := rfl
@[simp] theorem State.headerTaken_hb (s : State) (rest : List Byte) : (s.headerTaken rest).hb = [] := rfl
@[simp] theorem State.headerTaken_ppf (s : State) (rest : List Byte) : (s.headerTaken rest).ppf = s.ppf := rfl
@[simp] theorem State.headerTaken_q (s : State) (rest : List Byte) : (s.headerTaken rest).q = s.q := rfl
@[simp] theorem State.headerTaken_inp (s : State) (rest : List Byte) : (s.headerTaken rest).inp = rest := rfl
@[simp] theorem State.headerTaken_pending (s : State) (rest : List Byte) : (s.headerTaken rest).pending = s.pending := rfl
@[simp] theorem State.headerTaken_result (s : State) (rest : List Byte) : (s.headerTaken rest).result = s.result := rfl

@[simp] theorem State.saved_cfg (s : State) (p : PPF) : (s.saved p).cfg = s.cfg := rfl
@[simp] theorem State.saved_st (s : State) (p : PPF) : (s.saved p).st = .awaitPay := rfl
@[simp] theorem State.saved_err (s : State) (p : PPF) : (s.saved p).err = s.err := rfl
@[simp] theorem State.saved_hb (s : State) (p : PPF) : (s.saved p).hb = s.hb := rfl
@[simp] theorem State.saved_ppf (s : State) (p : PPF) : (s.saved p).ppf = some p := rfl
@[simp] theorem State.saved_q (s : State) (p : PPF) : (s.saved p).q = s.q := rfl
@[simp] theorem State.saved_inp (s : State) (p : PPF) : (s.saved p).inp = s.inp := rfl
@[simp] theorem State.saved_pending (s : State) (p : PPF) : (s.saved p).pending = s.pending := rfl
@[simp] theorem State.saved_result (s : State) (p : PPF) : (s.saved p).result = s.result := rfl

@[simp] theorem State.buffered_cfg (s : State) (p : PPF) : (s.buffered p).cfg = s.cfg := rfl
@[simp] theorem State.buffered_st (s : State) (p : PPF) : (s.buffered p).st = s.st := rfl
@[simp] theorem State.buffered_err (s : State) (p : PPF) : (s.buffered p).err = s.err := rfl
@[simp] theorem State.buffered_hb (s : State) (p : PPF) : (s.buffered p).hb = s.hb := rfl
@[simp] theorem State.buffered_ppf (s : State) (p : PPF) : (s.buffered p).ppf = some p := rfl
@[simp] theorem State.buffered_q (s : State) (p : PPF) : (s.buffered p).q = s.q := rfl
@[simp] theorem State.buffered_inp (s : State) (p : PPF) : (s.buffered p).inp = s.inp := rfl
@[simp] theorem State.buffered_pending (s : State) (p : PPF) : (s.buffered p).pending = s.pending := rfl
@[simp] theorem State.buffered_result (s : State) (p : PPF) : (s.buffered p).result = s.result := rfl

@[simp] theorem State.ppfDestroyed_cfg (s : State) : (s.ppfDestroyed).cfg = s.cfg := rfl
@[simp] theorem State.ppfDestroyed_st (s : State) : (s.ppfDestroyed).st = s.st := rfl
@[simp] theorem State.ppfDestroyed_err (s : State) : (s.ppfDestroyed).err = s.err := rfl
@[simp] theorem State.ppfDestroyed_hb (s : State) : (s.ppfDestroyed).hb = s.hb := rfl
@[simp] theorem State.ppfDestroyed_ppf (s : State) : (s.ppfDestroyed).ppf = none := rfl
@[simp] theorem State.ppfDestroyed_q (s : State) : (s.ppfDestroyed).q = s.q := rfl
@[simp] theorem State.ppfDestroyed_inp (s : State) : (s.ppfDestroyed).inp = s.inp := rfl
@[simp] theorem State.ppfDestroyed_pending (s : State) : (s.ppfDestroyed).pending = s.pending := rfl
@[simp] theorem State.ppfDestroyed_result (s : State) : (s.ppfDestroyed).result = s.result := rfl

@[simp] theorem State.pushed_cfg (s : State) (f : Frame) : (s.pushed f).cfg = s.cfg := rfl
@[simp] theorem State.pushed_st (s : State) (f : Frame) : (s.pushed f).st = .idle := rfl
@[simp] theorem State.pushed_err (s : State) (f : Frame) : (s.pushed f).err = s.err := rfl
@[simp] theorem State.pushed_hb (s : State) (f : Frame) : (s.pushed f).hb = s.hb := rfl
@[simp] theorem State.pushed_ppf (s : State) (f : Frame) : (s.pushed f).ppf = s.ppf := rfl
@[simp] theorem State.pushed_q (s : State) (f : Frame) : (s.pushed f).q = s.q ++ [f] := rfl
@[simp] theorem State.pushed_inp (s : State) (f : Frame) : (s.pushed f).inp = s.inp := rfl
@[simp] theorem State.pushed_pending (s : State) (f : Frame) : (s.pushed f).pending = s.pending := rfl
@[simp] theorem State.pushed_result (s : State) (f : Frame) : (s.pushed f).result = s.result := rfl

@[simp] theorem State.cleared_cfg (s : State) : (s.cleared).cfg = s.cfg := rfl
@[simp] theorem State.cleared_st (s : State) : (s.cleared).st = s.st := rfl
@[simp] theorem State.cleared_err (s : State) : (s.cleared).err = s.err := rfl
@[simp] theorem State.cleared_hb (s : State) : (s.cleared).hb = s.hb := rfl
@[simp] theorem State.cleared_ppf (s : State) : (s.cleared).ppf = s.ppf := rfl
@[simp] theorem State.cleared_q (s : State) : (s.cleared).q = [] := rfl
@[simp] theorem State.cleared_inp (s : State) : (s.cleared).inp = s.inp := rfl
@[simp] theorem State.cleared_pending (s : State) : (s.cleared).pending = s.pending := rfl
@[simp] theorem State.cleared_result (s : State) : (s.cleared).result = s.result := rfl

end Sys2Proof.Machine
end

