-- ==== Sys2Proof/Laws/Ops.lean ====
section
/-! SUPPORT. One lemma for each shared operation that says everything it can do; later proofs cite these and do not unfold the
operations. -/

namespace Sys2Proof.Machine

open Sys2Proof

/-! ## Buffer access -/

@[simp] theorem memRead_all (B : List Byte) : memRead B 0 B.length = B := by simp [memRead]

/-- A write at the buffer's length appends (R13). -/
@[simp] theorem memWrite_end (B v : List Byte) : memWrite B B.length v = B ++ v := by simp [memWrite]

/-- A read after a write to the same place gives the bytes written. -/
theorem memRead_memWrite_same (B v : List Byte) (a : Nat) (h : a ≤ B.length) : memRead (memWrite B a v) a v.length = v := by
  simp [memRead, memWrite, Nat.min_eq_left h]

/-- A write leaves the bytes before it alone. -/
theorem memRead_memWrite_before (B v : List Byte) (a n : Nat) (h : a ≤ B.length) (hn : n ≤ a) :
    memRead (memWrite B a v) 0 n = memRead B 0 n := by
  simp only [memRead, memWrite, List.drop_zero]
  rw [List.append_assoc, List.take_append_of_le_length (by simp; omega), List.take_take, Nat.min_eq_left hn]

/-! ## Conditions -/

theorem queueFull_false_iff (s : State) : queueFull s = false ↔ Room s := by
  unfold queueFull Room
  cases h : s.cfg.queueCap with
  | none => simp
  | some c => simp

theorem queueFull_true_iff (s : State) : queueFull s = true ↔ ∃ c, s.cfg.queueCap = some c ∧ c ≤ s.q.length := by
  unfold queueFull
  cases h : s.cfg.queueCap with
  | none => simp
  | some c => simp

theorem chunkTooLong_false_iff (s : State) (chunk : List Byte) : chunkTooLong s.cfg chunk = false ↔ Accepts s chunk := by
  unfold chunkTooLong Accepts
  cases h : s.cfg.chunkMax with
  | none => simp
  | some m => simp

theorem chunkTooLong_true_iff (cfg : Config) (chunk : List Byte) :
    chunkTooLong cfg chunk = true ↔ ∃ m, cfg.chunkMax = some m ∧ m < chunk.length := by
  unfold chunkTooLong
  cases h : cfg.chunkMax with
  | none => simp
  | some m => simp

/-! ## Emission and saving -/

/-- EmitFrame, everything it can do (R116): the error of a full queue, or the Frame appended and the remainder returned. -/
theorem emitFrame_cases (h : Header) (raw rem : List Byte) (s : State) :
    (queueFull s = true ∧ emitFrame h raw rem s = .next (s.raised .queueOverflow)) ∨
    (queueFull s = false ∧ emitFrame h raw rem s = .next ((s.pushed (frameOf h raw)).answer (.remainder rem))) := by
  unfold emitFrame raise
  cases queueFull s <;> simp

/-- The payload region of a complete header, everything it can do (R114): partial, or complete and emitted. -/
theorem acceptHeader_cases (h : Header) (rest : List Byte) (s : State) :
    (rest.length < h.payloadLen.toNat ∧
      acceptHeader h rest s = .next (((s.headerTaken rest).saved (ppfOf h rest)).answer (.remainder []))) ∨
    (h.payloadLen.toNat ≤ rest.length ∧
      acceptHeader h rest s =
        emitFrame h (rest.take h.payloadLen.toNat) (rest.drop h.payloadLen.toNat) (s.headerTaken rest)) := by
  unfold acceptHeader savePartial
  rcases Nat.lt_or_ge rest.length h.payloadLen.toNat with hl | hl
  · exact .inl ⟨hl, by simp [Nat.min_eq_right (Nat.le_of_lt hl), hl]⟩
  · exact .inr ⟨hl, by simp [Nat.min_eq_left hl]⟩

/-! ## DECODE by state -/

/-- StartFrame, everything it can do (R111): nothing on an empty parse view, an error, a held header, or a header accepted. -/
theorem startFrame_cases (s : State) :
    (s.hb ++ s.inp = [] ∧ startFrame s = .next (s.answer (.remainder []))) ∨
    (s.hb ++ s.inp ≠ [] ∧ ∃ e, parseHeader s.cfg (s.hb ++ s.inp) = .error e ∧ startFrame s = .next (s.raised e)) ∨
    (s.hb ++ s.inp ≠ [] ∧ parseHeader s.cfg (s.hb ++ s.inp) = .incomplete ∧
      startFrame s = .next ((s.held (s.hb ++ s.inp)).answer (.remainder []))) ∨
    (s.hb ++ s.inp ≠ [] ∧ ∃ h, parseHeader s.cfg (s.hb ++ s.inp) = .header h ∧
      startFrame s = acceptHeader h ((s.hb ++ s.inp).drop h.hl.toNat) s) := by
  unfold startFrame raise
  simp only [memRead_all]
  by_cases hS : s.hb ++ s.inp = []
  · exact .inl ⟨hS, by simp only [hS, if_true]⟩
  · simp only [hS, if_false]
    cases hp : parseHeader s.cfg (s.hb ++ s.inp) with
    | incomplete => exact .inr (.inr (.inl ⟨hS, rfl, rfl⟩))
    | error e => exact .inr (.inl ⟨hS, e, rfl, rfl⟩)
    | header h => exact .inr (.inr (.inr ⟨hS, h, rfl, rfl⟩))

/-- ContinuePayload, everything it can do (R117, R118). -/
theorem continuePayload_cases (p : PPF) (s : State) :
    (p.rb.length + s.inp.length < p.payloadLen.toNat ∧
      continuePayload p s = .next ((s.buffered { p with rb := p.rb ++ s.inp }).answer (.remainder []))) ∨
    (p.payloadLen.toNat ≤ p.rb.length + s.inp.length ∧
      continuePayload p s = emitFrame (headerOf p) (p.rb ++ s.inp.take (p.payloadLen.toNat - p.rb.length))
        (s.inp.drop (p.payloadLen.toNat - p.rb.length)) s.ppfDestroyed) := by
  unfold continuePayload
  rcases Nat.lt_or_ge (p.rb.length + s.inp.length) p.payloadLen.toNat with hl | hl
  · exact .inl ⟨hl, by simp only [memWrite_end, memRead_all]; rw [if_pos (by omega)]⟩
  · exact .inr ⟨hl, by simp only [memRead_all]; rw [if_neg (by omega)]⟩

theorem decodeIn_error {s : State} (h : s.st = .error) : decodeIn s = .next (s.answer (.refused .dead)) := by
  unfold decodeIn; simp only [h]

theorem decodeIn_header {s : State} (h : s.st = .idle ∨ s.st = .awaitHdr) : decodeIn s = startFrame s := by
  unfold decodeIn; rcases h with h | h <;> simp only [h]

theorem decodeIn_payload {s : State} {p : PPF} (h : s.st = .awaitPay) (hp : s.ppf = some p) : decodeIn s = continuePayload p s := by
  unfold decodeIn; simp only [h, hp]

theorem decodeChunk_error {s : State} (h : s.st = .error) (chunk : List Byte) :
    decodeChunk chunk s = .next (s.answer (.refused .dead)) := by
  simp only [decodeChunk, h, if_true]

theorem decodeChunk_tooLong {s : State} {chunk : List Byte} (h : s.st ≠ .error) (hc : chunkTooLong s.cfg chunk = true) :
    decodeChunk chunk s = .next (s.answer (.refused .chunkTooLong)) := by
  simp only [decodeChunk, h, hc, if_true, if_false]

theorem decodeChunk_accepted {s : State} {chunk : List Byte} (h : s.st ≠ .error) (hc : Accepts s chunk) :
    decodeChunk chunk s = decodeIn { s with inp := chunk } := by
  simp only [decodeChunk, h, (chunkTooLong_false_iff s chunk).mpr hc, if_false, Bool.false_eq_true]

/-! ## The instructions of the byte stream -/

/-- A frame instruction at a frame boundary has its own effect. -/
theorem deliver_idle {s : State} (h : s.st = .idle) (bytes : List Byte) (f : State → Out) : deliver bytes f s = f s := by
  unfold deliver; simp only [h]

/-- A frame instruction elsewhere is DECODE of its bytes. -/
theorem deliver_elsewhere {s : State} (h : s.st ≠ .idle) (bytes : List Byte) (f : State → Out) :
    deliver bytes f s = decodeIn { s with inp := bytes ++ s.inp } := by
  unfold deliver
  cases hs : s.st <;> first | rfl | exact absurd hs h

/-- A legal header at a frame boundary, everything it can do. -/
theorem takeHeader_cases (h : Header) (s : State) :
    (s.cfg.payloadCap < h.payloadLen.toNat ∧ takeHeader h s = .next (s.raised (.unsupportedLength 0#32 h.payloadLen))) ∨
    (h.payloadLen.toNat ≤ s.cfg.payloadCap ∧ takeHeader h s = acceptHeader h s.inp s) := by
  unfold takeHeader raise
  rcases Nat.lt_or_ge s.cfg.payloadCap h.payloadLen.toNat with hl | hl
  · exact .inl ⟨hl, by simp only [hl, if_true]⟩
  · exact .inr ⟨hl, by simp only [Nat.not_lt.mpr hl, if_false]⟩

theorem exec_hdrInstr (fin : Bool) (op : Nibble) (f : HdrForm) (s : State) :
    exec (hdrInstr fin op f) s = deliver (headerBytes fin op f) (takeHeader (formHeader fin op f)) s := by
  cases f <;> rfl

theorem exec_frameInstr (fin : Bool) (op : Nibble) (f : HdrForm) (s : State) :
    exec (frameInstr fin op f) s = deliver (headerBytes fin op f) (takeHeader (formHeader fin op f)) s := by
  rcases nibble_cases op with h | h | h | h | h | h | h | h | h | h | h | h | h | h | h | h <;> subst h <;> rfl

end Sys2Proof.Machine
end

