-- ==== Sys2Proof/Laws/Decoder.lean ====
section
/-! SUPPORT. Everything DECODE can do, in one lemma (the transitions of R130), and the turns of FEED's loop (R121). -/

namespace Sys2Proof.Machine

open Sys2Proof

/-- What is left of the parse view after a header of `h`. -/
abbrev afterHeader (s : State) (chunk : List Byte) (h : Header) : List Byte := (s.hb ++ chunk).drop h.hl.toNat

/-- DECODE while a header is awaited: the first five rows of R130, and the full queue. -/
theorem decodeChunk_header_cases {s : State} {chunk : List Byte} (hs : s.st = .idle ∨ s.st = .awaitHdr) (ha : Accepts s chunk) :
    (s.hb ++ chunk = [] ∧ decodeChunk chunk s = .next (s.answer (.remainder []))) ∨
    (s.hb ++ chunk ≠ [] ∧ ∃ e, parseHeader s.cfg (s.hb ++ chunk) = .error e ∧ decodeChunk chunk s = .next (s.raised e)) ∨
    (s.hb ++ chunk ≠ [] ∧ parseHeader s.cfg (s.hb ++ chunk) = .incomplete ∧
      decodeChunk chunk s = .next ((s.held (s.hb ++ chunk)).answer (.remainder []))) ∨
    (s.hb ++ chunk ≠ [] ∧ ∃ h, parseHeader s.cfg (s.hb ++ chunk) = .header h ∧
      ((afterHeader s chunk h).length < h.payloadLen.toNat ∧
          decodeChunk chunk s =
            .next (((s.headerTaken []).saved (ppfOf h (afterHeader s chunk h))).answer (.remainder [])) ∨
        h.payloadLen.toNat ≤ (afterHeader s chunk h).length ∧ queueFull s = true ∧
          decodeChunk chunk s = .next (s.raised .queueOverflow) ∨
        h.payloadLen.toNat ≤ (afterHeader s chunk h).length ∧ queueFull s = false ∧
          decodeChunk chunk s = .next
            (((s.headerTaken []).pushed (frameOf h ((afterHeader s chunk h).take h.payloadLen.toNat))).answer
              (.remainder ((afterHeader s chunk h).drop h.payloadLen.toNat))))) := by
  have he : s.st ≠ .error := by rcases hs with h | h <;> simp [h]
  rw [decodeChunk_accepted he ha, decodeIn_header (s := { s with inp := chunk }) hs]
  rcases startFrame_cases { s with inp := chunk } with h | h | h | ⟨h1, h, h2, h3⟩
  · exact .inl h
  · exact .inr (.inl h)
  · exact .inr (.inr (.inl h))
  · refine .inr (.inr (.inr ⟨h1, h, h2, ?_⟩))
    rw [h3]
    rcases acceptHeader_cases h (afterHeader s chunk h) { s with inp := chunk } with ⟨h4, h5⟩ | ⟨h4, h5⟩
    · exact .inl ⟨h4, h5⟩
    · rcases emitFrame_cases h ((afterHeader s chunk h).take h.payloadLen.toNat) ((afterHeader s chunk h).drop h.payloadLen.toNat)
        (State.headerTaken (afterHeader s chunk h) { s with inp := chunk }) with ⟨h6, h7⟩ | ⟨h6, h7⟩
      · exact .inr (.inl ⟨h4, h6, h5.trans h7⟩)
      · exact .inr (.inr ⟨h4, h6, h5.trans h7⟩)

/-- DECODE while a payload is awaited: the sixth and seventh rows of R130, and the full queue. -/
theorem decodeChunk_payload_cases {s : State} {p : PPF} {chunk : List Byte} (hs : s.st = .awaitPay) (hp : s.ppf = some p)
    (ha : Accepts s chunk) :
    (p.rb.length + chunk.length < p.payloadLen.toNat ∧
      decodeChunk chunk s = .next ((s.buffered { p with rb := p.rb ++ chunk }).answer (.remainder []))) ∨
    (p.payloadLen.toNat ≤ p.rb.length + chunk.length ∧ queueFull s = true ∧
      decodeChunk chunk s = .next (s.raised .queueOverflow)) ∨
    (p.payloadLen.toNat ≤ p.rb.length + chunk.length ∧ queueFull s = false ∧
      decodeChunk chunk s = .next
        ((s.ppfDestroyed.pushed (frameOf (headerOf p) (p.rb ++ chunk.take (p.payloadLen.toNat - p.rb.length)))).answer
          (.remainder (chunk.drop (p.payloadLen.toNat - p.rb.length))))) := by
  rw [decodeChunk_accepted (by simp [hs]) ha, decodeIn_payload (s := { s with inp := chunk }) hs hp]
  rcases continuePayload_cases p { s with inp := chunk } with h | ⟨h1, h2⟩
  · exact .inl h
  · rw [h2]
    rcases emitFrame_cases (headerOf p) (p.rb ++ chunk.take (p.payloadLen.toNat - p.rb.length))
      (chunk.drop (p.payloadLen.toNat - p.rb.length)) (State.ppfDestroyed { s with inp := chunk }) with ⟨h3, h4⟩ | ⟨h3, h4⟩
    · exact .inr (.inl ⟨h1, h3, h4⟩)
    · exact .inr (.inr ⟨h1, h3, h4⟩)

/-- DECODE in every state that has its P registers where `ST` says so: refused, or one of the cases above. -/
theorem decodeChunk_cases (s : State) (chunk : List Byte) (hp : s.st = .awaitPay → s.ppf ≠ none) :
    (s.st = .error ∧ decodeChunk chunk s = .next (s.answer (.refused .dead))) ∨
    (s.st ≠ .error ∧ ¬ Accepts s chunk ∧ decodeChunk chunk s = .next (s.answer (.refused .chunkTooLong))) ∨
    (Accepts s chunk ∧ (s.st = .idle ∨ s.st = .awaitHdr)) ∨
    (Accepts s chunk ∧ s.st = .awaitPay ∧ ∃ p, s.ppf = some p) := by
  by_cases he : s.st = .error
  · exact .inl ⟨he, decodeChunk_error he chunk⟩
  · by_cases ha : Accepts s chunk
    · cases hs : s.st with
      | idle => exact .inr (.inr (.inl ⟨ha, .inl rfl⟩))
      | awaitHdr => exact .inr (.inr (.inl ⟨ha, .inr rfl⟩))
      | awaitPay => exact .inr (.inr (.inr ⟨ha, rfl, Option.ne_none_iff_exists'.mp (hp hs)⟩))
      | error => exact absurd hs he
    · have hc : chunkTooLong s.cfg chunk = true := by
        cases hc : chunkTooLong s.cfg chunk with
        | true => rfl
        | false => exact absurd ((chunkTooLong_false_iff s chunk).mp hc) ha
      exact .inr (.inl ⟨he, ha, decodeChunk_tooLong he hc⟩)

/-! ## The loop of FEED -/

/-- A turn that ends the loop: nothing is left (R121). -/
theorem feedLoop_done {n : Nat} {r : List Byte} {s t : State} (h : decodeChunk r s = .next t) (hr : t.result = .remainder []) :
    feedLoop (n + 1) r s = .next (t.reply .ok) := by
  simp only [feedLoop, h, hr]

/-- A turn that goes on: the remainder is decoded next (R121). -/
theorem feedLoop_more {n : Nat} {r : List Byte} {s t : State} {b : Byte} {bs : List Byte} (h : decodeChunk r s = .next t)
    (hr : t.result = .remainder (b :: bs)) : feedLoop (n + 1) r s = feedLoop n (b :: bs) t := by
  simp only [feedLoop, h, hr]

/-- A turn that ends the loop with an error or a refusal (R121). -/
theorem feedLoop_stop {n : Nat} {r : List Byte} {s t : State} (h : decodeChunk r s = .next t) (hr : ∀ l, t.result ≠ .remainder l) :
    feedLoop (n + 1) r s = .next t := by
  simp only [feedLoop, h]
  split
  · rename_i h'; exact absurd h' (hr _)
  · rename_i h'; exact absurd h' (hr _)
  · rfl

end Sys2Proof.Machine
end

