-- ==== Sys2Proof/Laws/Inv.lean ====
section
/-! SUPPORT. What each state change does to the invariant of R34, what a parsed header guarantees, and that a write of a shared
operation keeps the Frames well-formed (R29). -/

namespace Sys2Proof.Machine

open Sys2Proof

/-! ## What a parsed header guarantees -/

/-- Everything the invariant needs of a parsed header. -/
theorem parseHeader_facts {cfg : Config} {S : List Byte} (hS : S ≠ []) {h : Header} (hp : parseHeader cfg S = .header h) :
    h.rsv1 = false ∧ h.rsv2 = false ∧ h.rsv3 = false ∧ legalHl h.mask h.payloadLen.toNat h.hl ∧ (h.mask = false → h.key = zeroKey) ∧
    h.payloadLen.toNat ≤ cfg.payloadCap ∧ h.hl.toNat ≤ S.length ∧ 2 ≤ h.hl.toNat := by
  obtain ⟨fin, op, f, r, hw, rfl, rfl, hc⟩ := parseHeader_header hS hp
  refine ⟨formHeader_rsv1 .., formHeader_rsv2 .., formHeader_rsv3 .., formHeader_legal fin op f hw, formHeader_key fin op f, hc, ?_,
    (formHeader_hl_bounds fin op f).1⟩
  rw [List.length_append, headerBytes_length]; omega

/-- The errors of ParseHeader: ProtocolError with the configuration's closure status code, or UnsupportedLengthError (R112). -/
theorem parseHeader_error {cfg : Config} {S : List Byte} {e : ErrorInfo} (h : parseHeader cfg S = .error e) :
    e = .protocol (byteAt S 0) cfg.protocolErrorCloseCode ∨ ∃ hi lo, e = .unsupportedLength hi lo := by
  have hk : ∀ b0 m len off, keyField S b0 m len off ≠ .error e := by
    intro b0 m len off; unfold keyField; split_ifs <;> simp
  have hl : ∀ l e', lengthField S l = .error e' → ∃ hi lo, e' = .unsupportedLength hi lo := by
    intro l e' h'
    unfold lengthField at h'
    simp only at h'
    split_ifs at h'
    cases h'; exact ⟨_, _, rfl⟩
  unfold parseHeader at h
  simp only at h
  split_ifs at h
  · cases h; exact .inl rfl
  · cases hf : lengthField S (len7Of (byteAt S 1)) with
    | incomplete => rw [hf] at h; cases h
    | error e' => rw [hf] at h; cases h; exact .inr (hl _ _ hf)
    | known len off =>
      rw [hf] at h
      simp only at h
      split_ifs at h
      · cases h; exact .inr ⟨_, _, rfl⟩
      · exact absurd h (hk _ _ _ _)

/-- The Frame of a legal header and a complete raw payload meets R29. -/
theorem frameOk_frameOf {h : Header} {raw : List Byte} (hl : legalHl h.mask h.payloadLen.toNat h.hl)
    (hr : raw.length = h.payloadLen.toNat) : FrameOk (frameOf h raw) where
  length := frameOf_payload_length h raw hr
  rsv1 := rfl
  rsv2 := rfl
  rsv3 := rfl
  total := ⟨h.hl, hl, frameLen_toNat _ _⟩

/-! ## State changes and the invariant -/

/-- In AWAIT_PAY the P registers are present. -/
theorem Inv.ppf_present {s : State} (hi : Inv s) (h : s.st = .awaitPay) : s.ppf ≠ none := by
  obtain ⟨_, _, p, hp, _⟩ := hi.awaitPay h
  simp [hp]

theorem Inv.answered {s : State} (h : Inv s) (r : Result) : Inv (s.answer r) where
  idle := h.idle
  awaitHdr := h.awaitHdr
  awaitPay := h.awaitPay
  error := h.error
  frames := h.frames
  depth := h.depth
  inp := rfl

theorem Inv.replied {s : State} (h : Inv s) (r : Result) : Inv (s.reply r) where
  idle := h.idle
  awaitHdr := h.awaitHdr
  awaitPay := h.awaitPay
  error := h.error
  frames := h.frames
  depth := h.depth
  inp := h.inp

theorem Inv.emptied {s : State} (h : Inv s) : Inv s.cleared where
  idle := h.idle
  awaitHdr := h.awaitHdr
  awaitPay := h.awaitPay
  error := h.error
  frames := by simp
  depth := by simp
  inp := h.inp

/-- The operations still to come are no part of the invariant. -/
theorem Inv.withPending {s : State} (h : Inv s) (ops : List HostOp) : Inv { s with pending := ops } where
  idle := h.idle
  awaitHdr := h.awaitHdr
  awaitPay := h.awaitPay
  error := h.error
  frames := h.frames
  depth := h.depth
  inp := h.inp

/-- The last row of R34's table: an error. -/
theorem Inv.errored {s : State} (h : Inv s) (e : ErrorInfo) : Inv (s.raised e) where
  idle := by simp
  awaitHdr := by simp
  awaitPay := by simp
  error := by intro _; cases e <;> simp [errorCode]
  frames := h.frames
  depth := h.depth
  inp := rfl

/-- The first row of R34's table: a Frame is appended to a queue with room, `t` being the state it is appended in. -/
theorem Inv.appended {s t : State} (h : Inv s) {f : Frame} (hf : FrameOk f) (hq : queueFull s = false) (r : Result)
    (e1 : t.hb = []) (e2 : t.ppf = none) (e3 : t.err = .none) (e4 : t.cfg = s.cfg) (e5 : t.q = s.q) :
    Inv ((t.pushed f).answer r) where
  idle := fun _ => ⟨e1, e2, e3⟩
  awaitHdr := by simp
  awaitPay := by simp
  error := by simp
  frames := by
    intro g hg
    simp only [State.answer_q, State.pushed_q, e5, List.mem_append, List.mem_singleton] at hg
    rcases hg with hg | rfl
    · exact h.frames g hg
    · exact hf
  depth := by
    intro c hc
    have := (queueFull_false_iff s).mp hq c (by rw [← e4]; exact hc)
    simp [e5]; omega
  inp := rfl

end Sys2Proof.Machine
end

