-- ==== Sys2Proof/Laws/PerInstr.lean ====
section
/-! SUPPORT. One statement about every instruction as syntax, and one lemma for each constructor. -/

namespace Sys2Proof.Laws.EncodeLength

open Sys2Proof

/-- An instruction's words are at most the 14 bytes of the longest header (R8, R89). -/
def Statement (i : Instr) : Prop := (encode i).length ≤ 14

theorem headerBytes_le (fin : Bool) (op : Nibble) (f : HdrForm) : (headerBytes fin op f).length ≤ 14 := by
  cases f <;> simp [headerBytes, formBytes, keyBytes, bytes16, bytes32]

theorem hdrS7U (fin : Bool) (opcode : Nibble) (len7 : BitVec 7) : Statement (.hdrS7U fin opcode len7) :=
  headerBytes_le fin opcode (.s7u len7)
theorem hdrS7M (fin : Bool) (opcode : Nibble) (len7 : BitVec 7) (key : Key) : Statement (.hdrS7M fin opcode len7 key) :=
  headerBytes_le fin opcode (.s7m len7 key)
theorem hdrE16U (fin : Bool) (opcode : Nibble) (len : BitVec 16) : Statement (.hdrE16U fin opcode len) :=
  headerBytes_le fin opcode (.e16u len)
theorem hdrE16M (fin : Bool) (opcode : Nibble) (len : BitVec 16) (key : Key) : Statement (.hdrE16M fin opcode len key) :=
  headerBytes_le fin opcode (.e16m len key)
theorem hdrE64U (fin : Bool) (opcode : Nibble) (lo : BitVec 32) : Statement (.hdrE64U fin opcode lo) :=
  headerBytes_le fin opcode (.e64u lo)
theorem hdrE64M (fin : Bool) (opcode : Nibble) (lo : BitVec 32) (key : Key) : Statement (.hdrE64M fin opcode lo key) :=
  headerBytes_le fin opcode (.e64m lo key)
theorem frameCont (fin : Bool) (form : HdrForm) : Statement (.frameCont fin form) := headerBytes_le fin _ form
theorem frameText (fin : Bool) (form : HdrForm) : Statement (.frameText fin form) := headerBytes_le fin _ form
theorem frameBin (fin : Bool) (form : HdrForm) : Statement (.frameBin fin form) := headerBytes_le fin _ form
theorem frameRsvd3 (fin : Bool) (form : HdrForm) : Statement (.frameRsvd3 fin form) := headerBytes_le fin _ form
theorem frameRsvd4 (fin : Bool) (form : HdrForm) : Statement (.frameRsvd4 fin form) := headerBytes_le fin _ form
theorem frameRsvd5 (fin : Bool) (form : HdrForm) : Statement (.frameRsvd5 fin form) := headerBytes_le fin _ form
theorem frameRsvd6 (fin : Bool) (form : HdrForm) : Statement (.frameRsvd6 fin form) := headerBytes_le fin _ form
theorem frameRsvd7 (fin : Bool) (form : HdrForm) : Statement (.frameRsvd7 fin form) := headerBytes_le fin _ form
theorem frameClose (fin : Bool) (form : HdrForm) : Statement (.frameClose fin form) := headerBytes_le fin _ form
theorem framePing (fin : Bool) (form : HdrForm) : Statement (.framePing fin form) := headerBytes_le fin _ form
theorem framePong (fin : Bool) (form : HdrForm) : Statement (.framePong fin form) := headerBytes_le fin _ form
theorem frameRsvdB (fin : Bool) (form : HdrForm) : Statement (.frameRsvdB fin form) := headerBytes_le fin _ form
theorem frameRsvdC (fin : Bool) (form : HdrForm) : Statement (.frameRsvdC fin form) := headerBytes_le fin _ form
theorem frameRsvdD (fin : Bool) (form : HdrForm) : Statement (.frameRsvdD fin form) := headerBytes_le fin _ form
theorem frameRsvdE (fin : Bool) (form : HdrForm) : Statement (.frameRsvdE fin form) := headerBytes_le fin _ form
theorem frameRsvdF (fin : Bool) (form : HdrForm) : Statement (.frameRsvdF fin form) := headerBytes_le fin _ form
theorem illRsv1 (b0 : Byte) : Statement (.illRsv1 b0) := by simp [Statement, encode]
theorem illRsv2 (b0 : Byte) : Statement (.illRsv2 b0) := by simp [Statement, encode]
theorem illRsv3 (b0 : Byte) : Statement (.illRsv3 b0) := by simp [Statement, encode]
theorem illE64Hi (fin : Bool) (opcode : Nibble) (mask : Bool) (hi lo : BitVec 32) : Statement (.illE64Hi fin opcode mask hi lo) :=
  by simp [Statement, encode, bytes32]
theorem encTextFin (payload : List Byte) : Statement (.encTextFin payload) := by simp [Statement, encode]
theorem encTextNonfin (payload : List Byte) : Statement (.encTextNonfin payload) := by simp [Statement, encode]
theorem encBinFin (payload : List Byte) : Statement (.encBinFin payload) := by simp [Statement, encode]
theorem encBinNonfin (payload : List Byte) : Statement (.encBinNonfin payload) := by simp [Statement, encode]
theorem reset : Statement .reset := by simp [Statement, encode]
theorem feed (chunk : List Byte) : Statement (.feed chunk) := by simp [Statement, encode]
theorem decode (chunk : List Byte) : Statement (.decode chunk) := by simp [Statement, encode]
theorem qread : Statement .qread := by simp [Statement, encode]
theorem qclear : Statement .qclear := by simp [Statement, encode]
theorem drain : Statement .drain := by simp [Statement, encode]
theorem status : Statement .status := by simp [Statement, encode]
theorem unmask (rawPayload : List Byte) (payloadLen : BitVec 32) (maskingKey : Key) : Statement (.unmask rawPayload payloadLen maskingKey) :=
  by simp [Statement, encode]
theorem createFrame (payload : List Byte) (opcode : Nibble) (fin : Bool) : Statement (.createFrame payload opcode fin) :=
  by simp [Statement, encode]

end Sys2Proof.Laws.EncodeLength
end

