-- ==== Sys2Proof/Laws/Views.lean ====
section
/-! SUPPORT. The rows of the two views of a header, named by the function that builds them, and what a legal header at a frame
boundary does, one lemma for each way it can end. -/

namespace Sys2Proof.Machine

open Sys2Proof

/-! ## The rows of a view -/

/-- The rows of the format view: a format row, an RSV row, or the E64HI row. -/
theorem headerRow_cases (i : Instr) (h : headerRow i = true) :
    (∃ fin op f, i = hdrInstr fin op f) ∨ (∃ b, i = .illRsv1 b ∨ i = .illRsv2 b ∨ i = .illRsv3 b) ∨
    ∃ fin op mask hi lo, i = .illE64Hi fin op mask hi lo := by
  cases i with
  | hdrS7U fin op l => exact .inl ⟨fin, op, .s7u l, rfl⟩
  | hdrS7M fin op l k => exact .inl ⟨fin, op, .s7m l k, rfl⟩
  | hdrE16U fin op l => exact .inl ⟨fin, op, .e16u l, rfl⟩
  | hdrE16M fin op l k => exact .inl ⟨fin, op, .e16m l k, rfl⟩
  | hdrE64U fin op l => exact .inl ⟨fin, op, .e64u l, rfl⟩
  | hdrE64M fin op l k => exact .inl ⟨fin, op, .e64m l k, rfl⟩
  | illRsv1 b => exact .inr (.inl ⟨b, .inl rfl⟩)
  | illRsv2 b => exact .inr (.inl ⟨b, .inr (.inl rfl)⟩)
  | illRsv3 b => exact .inr (.inl ⟨b, .inr (.inr rfl)⟩)
  | illE64Hi fin op mask hi lo => exact .inr (.inr ⟨fin, op, mask, hi, lo, rfl⟩)
  | _ => cases h

/-- The rows of the opcode view: an opcode row, an RSV row, or the E64HI row. -/
theorem opcodeRow_cases (i : Instr) (h : opcodeRow i = true) :
    (∃ fin op f, i = frameInstr fin op f) ∨ (∃ b, i = .illRsv1 b ∨ i = .illRsv2 b ∨ i = .illRsv3 b) ∨
    ∃ fin op mask hi lo, i = .illE64Hi fin op mask hi lo := by
  cases i with
  | frameCont fin f => exact .inl ⟨fin, 0x0#4, f, rfl⟩
  | frameText fin f => exact .inl ⟨fin, 0x1#4, f, rfl⟩
  | frameBin fin f => exact .inl ⟨fin, 0x2#4, f, rfl⟩
  | frameRsvd3 fin f => exact .inl ⟨fin, 0x3#4, f, rfl⟩
  | frameRsvd4 fin f => exact .inl ⟨fin, 0x4#4, f, rfl⟩
  | frameRsvd5 fin f => exact .inl ⟨fin, 0x5#4, f, rfl⟩
  | frameRsvd6 fin f => exact .inl ⟨fin, 0x6#4, f, rfl⟩
  | frameRsvd7 fin f => exact .inl ⟨fin, 0x7#4, f, rfl⟩
  | frameClose fin f => exact .inl ⟨fin, 0x8#4, f, rfl⟩
  | framePing fin f => exact .inl ⟨fin, 0x9#4, f, rfl⟩
  | framePong fin f => exact .inl ⟨fin, 0xA#4, f, rfl⟩
  | frameRsvdB fin f => exact .inl ⟨fin, 0xB#4, f, rfl⟩
  | frameRsvdC fin f => exact .inl ⟨fin, 0xC#4, f, rfl⟩
  | frameRsvdD fin f => exact .inl ⟨fin, 0xD#4, f, rfl⟩
  | frameRsvdE fin f => exact .inl ⟨fin, 0xE#4, f, rfl⟩
  | frameRsvdF fin f => exact .inl ⟨fin, 0xF#4, f, rfl⟩
  | illRsv1 b => exact .inr (.inl ⟨b, .inl rfl⟩)
  | illRsv2 b => exact .inr (.inl ⟨b, .inr (.inl rfl)⟩)
  | illRsv3 b => exact .inr (.inl ⟨b, .inr (.inr rfl)⟩)
  | illE64Hi fin op mask hi lo => exact .inr (.inr ⟨fin, op, mask, hi, lo, rfl⟩)
  | _ => cases h

theorem headerRow_hdrInstr (fin : Bool) (op : Nibble) (f : HdrForm) : headerRow (hdrInstr fin op f) = true := by cases f <;> rfl

theorem opcodeRow_frameInstr (fin : Bool) (op : Nibble) (f : HdrForm) : opcodeRow (frameInstr fin op f) = true := by
  rcases nibble_cases op with h | h | h | h | h | h | h | h | h | h | h | h | h | h | h | h <;> subst h <;> rfl

/-! ## The Frame of a header -/

theorem frameOf_plain (h : Header) (raw : List Byte) (hm : h.mask = false) :
    frameOf h raw = ⟨h.fin, false, false, false, h.opcode, false, h.payloadLen, raw,
      BitVec.ofNat 33 (h.hl.toNat + h.payloadLen.toNat)⟩ := by
  simp only [frameOf, hm, frameLen_eq_ofNat, Bool.false_eq_true, if_false]

theorem frameOf_masked (h : Header) (raw : List Byte) (hm : h.mask = true) :
    frameOf h (raw.take h.payloadLen.toNat) = ⟨h.fin, false, false, false, h.opcode, true, h.payloadLen,
      unmaskBytes raw h.payloadLen.toNat h.key, BitVec.ofNat 33 (h.hl.toNat + h.payloadLen.toNat)⟩ := by
  simp only [frameOf, hm, frameLen_eq_ofNat, if_true, unmaskBytes, List.take_take, Nat.min_self]

/-! ## A legal header at a frame boundary -/

/-- The payload is complete and `Q` has room: the Frame is emitted (R116). -/
theorem takeHeader_emits {h : Header} {s : State} (hs : s.st = .idle) (hr : Room s) (hc : h.payloadLen.toNat ≤ s.cfg.payloadCap)
    (hl : h.payloadLen.toNat ≤ s.inp.length) :
    takeHeader h s = .next { s with
      hb := [], inp := [], result := .remainder (s.inp.drop h.payloadLen.toNat),
      q := s.q ++ [frameOf h (s.inp.take h.payloadLen.toNat)] } := by
  rcases takeHeader_cases h s with ⟨h1, _⟩ | ⟨_, h1⟩
  · omega
  rcases acceptHeader_cases h s.inp s with ⟨h2, _⟩ | ⟨_, h2⟩
  · omega
  rcases emitFrame_cases h (s.inp.take h.payloadLen.toNat) (s.inp.drop h.payloadLen.toNat) (s.headerTaken s.inp) with
    ⟨h3, _⟩ | ⟨_, h3⟩
  · rw [(queueFull_false_iff _).mpr (show Room (s.headerTaken s.inp) from hr)] at h3; cases h3
  · rw [h1, h2, h3]; simp [State.pushed, State.answer, State.headerTaken, hs]

/-- The payload is incomplete: the PPF is created (R115). -/
theorem takeHeader_saves {h : Header} {s : State} (hc : h.payloadLen.toNat ≤ s.cfg.payloadCap)
    (hl : s.inp.length < h.payloadLen.toNat) :
    takeHeader h s = .next { s with
      st := .awaitPay, hb := [], inp := [], result := .remainder [], ppf := some (ppfOf h s.inp) } := by
  rcases takeHeader_cases h s with ⟨h1, _⟩ | ⟨_, h1⟩
  · omega
  rcases acceptHeader_cases h s.inp s with ⟨_, h2⟩ | ⟨h2, _⟩
  · rw [h1, h2]; rfl
  · omega

/-- The payload is complete and `Q` is full: QueueOverflow (R203). -/
theorem takeHeader_overflows {h : Header} {s : State} (hq : queueFull s = true) (hc : h.payloadLen.toNat ≤ s.cfg.payloadCap)
    (hl : h.payloadLen.toNat ≤ s.inp.length) : takeHeader h s = .next (s.raised .queueOverflow) := by
  rcases takeHeader_cases h s with ⟨h1, _⟩ | ⟨_, h1⟩
  · omega
  rcases acceptHeader_cases h s.inp s with ⟨h2, _⟩ | ⟨_, h2⟩
  · omega
  rcases emitFrame_cases h (s.inp.take h.payloadLen.toNat) (s.inp.drop h.payloadLen.toNat) (s.headerTaken s.inp) with
    ⟨_, h3⟩ | ⟨h3, _⟩
  · rw [h1, h2, h3]; rfl
  · exact absurd (h3.symm.trans hq) (by simp)

/-! ## What the parts of DECODE read

EmitFrame reads neither `ST` nor `IN`, the payload split does not read `HB` either, and StartFrame reads `HB` and `IN` only through
the parse view `HB ++ IN` (R52). -/

theorem emitFrame_reads {h : Header} {raw rem : List Byte} {s s' : State} (e1 : s.cfg = s'.cfg) (e2 : s.err = s'.err)
    (e3 : s.ppf = s'.ppf) (e4 : s.q = s'.q) (e5 : s.pending = s'.pending) (e6 : s.hb = s'.hb) :
    emitFrame h raw rem s = emitFrame h raw rem s' := by
  have hq : queueFull s = queueFull s' := by unfold queueFull; rw [e1, e4]
  unfold emitFrame raise
  rw [hq]
  simp only [State.raised, State.answer, State.pushed, e1, e2, e3, e4, e5, e6]

theorem acceptHeader_reads {h : Header} {rest : List Byte} {s s' : State} (e1 : s.cfg = s'.cfg) (e2 : s.err = s'.err)
    (e3 : s.ppf = s'.ppf) (e4 : s.q = s'.q) (e5 : s.pending = s'.pending) : acceptHeader h rest s = acceptHeader h rest s' := by
  unfold acceptHeader
  simp only
  split
  · simp only [savePartial, State.saved, State.answer, State.headerTaken, e1, e2, e4, e5]
  · exact emitFrame_reads e1 e2 e3 e4 e5 rfl

theorem startFrame_reads {s s' : State} (e1 : s.cfg = s'.cfg) (e2 : s.err = s'.err) (e3 : s.ppf = s'.ppf) (e4 : s.q = s'.q)
    (e5 : s.pending = s'.pending) (e6 : s.hb ++ s.inp = s'.hb ++ s'.inp) (hne : s.hb ++ s.inp ≠ []) :
    startFrame s = startFrame s' := by
  unfold startFrame
  simp only [memRead_all, ← e6, ← e1]
  rw [if_neg hne, if_neg hne]
  split
  · simp only [raise, State.raised, e1, e4, e5]
  · simp only [State.held, State.answer, e1, e2, e3, e4, e5]
  · exact acceptHeader_reads e1 e2 e3 e4 e5

end Sys2Proof.Machine
end

