-- ==== Sys2Proof/Tests/Slice0.lean ====
section
/-! SUPPORT. Tests. Every expected result is written out from spec/: the layouts of R84, the masks and matches of
spec/opcode_table.json, and the vectors of spec/95_test_vectors.md (named in each comment). The last part shows, for every
statement with hypotheses, a state and operands that meet them. -/

namespace Sys2Proof.Tests

open Sys2Proof Sys2Proof.Machine

/-! ## Helpers -/

/-- What a test looks at in an outcome: false where there is no next state. -/
def look (o : Out) (f : State → Bool) : Bool :=
  match o with
  | .next s => f s
  | .fault _ => false
  | .refused _ => false

/-- The state after reset with one operation issued. -/
def issued (op : HostOp) : State := { State.reset with pending := [op] }

/-- A header awaited, these bytes held. -/
def holding (hb : List Byte) : State := { State.reset with st := .awaitHdr, hb := hb }

/-- The PPF of `82 85 01 02 03 04` with these raw bytes (95_test_vectors.md 2.3). -/
def ppf5 (rb : List Byte) : PPF := ⟨true, false, false, false, 0x2#4, true, 5#32, ⟨1#8, 2#8, 3#8, 4#8⟩, 6#4, rb⟩

/-- A payload awaited. -/
def awaiting (p : PPF) : State := { State.reset with st := .awaitPay, ppf := some p }

/-- After a ProtocolError. -/
def dead : State := { State.reset with st := .error, err := .protocol }

/-- The Frame `{1, 0x1, 0, 0, (empty), 2}` of `81 00`. -/
def frame0 : Frame := ⟨true, false, false, false, 0x1#4, false, 0#32, [], 2#33⟩

/-- An instance whose limits are all finite and small. -/
def tight : State := { State.reset with cfg := { payloadCap := 125, queueCap := some 1, chunkMax := some 200 } }

/-- The same with a full queue. -/
def full : State := { tight with q := [frame0] }

/-! ## Well-formedness: each check refuses an ill-formed term, and takes the boundary value -/

theorem test_wf_hdrS7U : (Instr.hdrS7U true 0x1#4 126#7).wf = false ∧ (Instr.hdrS7U true 0x1#4 125#7).wf = true := by decide
theorem test_wf_hdrS7M : (Instr.hdrS7M true 0x1#4 127#7 zeroKey).wf = false ∧ (Instr.hdrS7M true 0x1#4 125#7 zeroKey).wf = true := by decide
theorem test_wf_frame_form : (Instr.frameText true (.s7u 126#7)).wf = false ∧ (Instr.frameRsvdF false (.s7m 127#7 zeroKey)).wf = false ∧
    (Instr.frameText true (.s7u 125#7)).wf = true := by decide
theorem test_wf_illRsv1 : (Instr.illRsv1 0xBF#8).wf = false ∧ (Instr.illRsv1 0x40#8).wf = true := by decide
theorem test_wf_illRsv2 : (Instr.illRsv2 0x60#8).wf = false ∧ (Instr.illRsv2 0x10#8).wf = false ∧ (Instr.illRsv2 0x30#8).wf = true := by decide
theorem test_wf_illRsv3 : (Instr.illRsv3 0x30#8).wf = false ∧ (Instr.illRsv3 0x00#8).wf = false ∧ (Instr.illRsv3 0x1F#8).wf = true := by decide
theorem test_wf_illE64Hi : (Instr.illE64Hi true 0x1#4 false 0#32 1#32).wf = false ∧ (Instr.illE64Hi true 0x1#4 false 1#32 0#32).wf = true := by decide

/-! ## Decoding: words written out from R84 and the masks of the opcode table -/

/-- R84 S7U: `0000 1111  0 1111101`, then a payload byte. -/
theorem test_decode_hdrS7U : decodeHeader [0x0F#8, 0x7D#8, 0xAA#8] = .instr (.hdrS7U false 0xF#4 125#7) [0xAA#8] := by decide
/-- R84 S7M: `1000 1010  1 1111101  K0..K3`. -/
theorem test_decode_hdrS7M : decodeHeader [0x8A#8, 0xFD#8, 0x00#8, 0x01#8, 0x02#8, 0x03#8] =
    .instr (.hdrS7M true 0xA#4 125#7 ⟨0#8, 1#8, 2#8, 3#8⟩) [] := by decide
/-- R84 E16U: `1000 1000  0 1111110  E[15:8] E[7:0]`. -/
theorem test_decode_hdrE16U : decodeHeader [0x88#8, 0x7E#8, 0x12#8, 0x34#8] = .instr (.hdrE16U true 0x8#4 0x1234#16) [] := by decide
/-- R84 E16M: `1000 0010  1 1111110  01 00  AA BB CC DD` (R112's example). -/
theorem test_decode_hdrE16M : decodeHeader [0x82#8, 0xFE#8, 0x01#8, 0x00#8, 0xAA#8, 0xBB#8, 0xCC#8, 0xDD#8] =
    .instr (.hdrE16M true 0x2#4 256#16 ⟨0xAA#8, 0xBB#8, 0xCC#8, 0xDD#8⟩) [] := by decide
/-- R84 E64U: HI = 0, LO = 01 02 03 04. -/
theorem test_decode_hdrE64U : decodeHeader [0x02#8, 0x7F#8, 0#8, 0#8, 0#8, 0#8, 1#8, 2#8, 3#8, 4#8] =
    .instr (.hdrE64U false 0x2#4 0x01020304#32) [] := by decide
/-- R84 E64M: 14 bytes. -/
theorem test_decode_hdrE64M : decodeHeader [0x82#8, 0xFF#8, 0#8, 0#8, 0#8, 0#8, 0#8, 0#8, 0#8, 0x7E#8, 1#8, 2#8, 3#8, 4#8] =
    .instr (.hdrE64M true 0x2#4 126#32 ⟨1#8, 2#8, 3#8, 4#8⟩) [] := by decide

theorem test_decode_frameCont : decodeOpcode [0x00#8, 0x01#8] = .instr (.frameCont false (.s7u 1#7)) [] := by decide
theorem test_decode_frameText : decodeOpcode [0x81#8, 0x7E#8, 0x00#8, 0x7E#8] = .instr (.frameText true (.e16u 126#16)) [] := by decide
theorem test_decode_frameBin : decodeOpcode [0x02#8, 0x02#8] = .instr (.frameBin false (.s7u 2#7)) [] := by decide
theorem test_decode_frameRsvd3 : decodeOpcode [0x83#8, 0x03#8] = .instr (.frameRsvd3 true (.s7u 3#7)) [] := by decide
theorem test_decode_frameRsvd4 : decodeOpcode [0x04#8, 0x04#8] = .instr (.frameRsvd4 false (.s7u 4#7)) [] := by decide
theorem test_decode_frameRsvd5 : decodeOpcode [0x85#8, 0x05#8] = .instr (.frameRsvd5 true (.s7u 5#7)) [] := by decide
theorem test_decode_frameRsvd6 : decodeOpcode [0x06#8, 0x06#8] = .instr (.frameRsvd6 false (.s7u 6#7)) [] := by decide
theorem test_decode_frameRsvd7 : decodeOpcode [0x87#8, 0x07#8] = .instr (.frameRsvd7 true (.s7u 7#7)) [] := by decide
theorem test_decode_frameClose : decodeOpcode [0x88#8, 0x00#8] = .instr (.frameClose true (.s7u 0#7)) [] := by decide
theorem test_decode_framePing : decodeOpcode [0x89#8, 0x80#8, 1#8, 2#8, 3#8, 4#8] =
    .instr (.framePing true (.s7m 0#7 ⟨1#8, 2#8, 3#8, 4#8⟩)) [] := by decide
theorem test_decode_framePong : decodeOpcode [0x0A#8, 0x00#8] = .instr (.framePong false (.s7u 0#7)) [] := by decide
theorem test_decode_frameRsvdB : decodeOpcode [0x8B#8, 0x0B#8] = .instr (.frameRsvdB true (.s7u 11#7)) [] := by decide
theorem test_decode_frameRsvdC : decodeOpcode [0x0C#8, 0x0C#8] = .instr (.frameRsvdC false (.s7u 12#7)) [] := by decide
theorem test_decode_frameRsvdD : decodeOpcode [0x8D#8, 0x0D#8] = .instr (.frameRsvdD true (.s7u 13#7)) [] := by decide
theorem test_decode_frameRsvdE : decodeOpcode [0x0E#8, 0x0E#8] = .instr (.frameRsvdE false (.s7u 14#7)) [] := by decide
theorem test_decode_frameRsvdF : decodeOpcode [0x8F#8, 0x0F#8] = .instr (.frameRsvdF true (.s7u 15#7)) [] := by decide

/-- 95_test_vectors.md 2.1: `C1`, `A1`, `91`; one byte suffices (D7), and the RSV check comes before the length (R205). -/
theorem test_decode_illRsv1 : decodeHeader [0xC1#8] = .instr (.illRsv1 0xC1#8) [] := by decide
theorem test_decode_illRsv2 : decodeOpcode [0xA1#8, 0x00#8] = .instr (.illRsv2 0xA1#8) [0x00#8] := by decide
theorem test_decode_illRsv3 : decodeHeader [0x91#8, 0x7F#8, 0#8, 0#8, 0#8, 1#8, 0#8, 0#8, 0#8, 0#8] =
    .instr (.illRsv3 0x91#8) [0x7F#8, 0#8, 0#8, 0#8, 1#8, 0#8, 0#8, 0#8, 0#8] := by decide
/-- 95_test_vectors.md 2.1: the upper half is 0x80000000; and with MASK = 1 the key is not waited for. -/
theorem test_decode_illE64Hi : decodeHeader [0x82#8, 0xFF#8, 0x80#8, 0#8, 0#8, 0#8, 0#8, 0#8, 0#8, 5#8] =
    .instr (.illE64Hi true 0x2#4 true 0x80000000#32 5#32) [] := by decide

/-- R176: the encoder's four values of byte 0. -/
theorem test_decode_encTextFin : decodeEncByte 0x81#8 [1#8] = some (.encTextFin [1#8]) := by decide
theorem test_decode_encTextNonfin : decodeEncByte 0x01#8 [1#8] = some (.encTextNonfin [1#8]) := by decide
theorem test_decode_encBinFin : decodeEncByte 0x82#8 [1#8] = some (.encBinFin [1#8]) := by decide
theorem test_decode_encBinNonfin : decodeEncByte 0x02#8 [1#8] = some (.encBinNonfin [1#8]) := by decide
theorem test_decode_enc_other : decodeEncByte 0x88#8 [] = none := by decide

/-- 95_test_vectors.md 2.1: the incomplete headers. -/
theorem test_decode_incomplete : decodeHeader [0x80#8] = .needMore ∧ decodeHeader [0x81#8, 0x7E#8, 0x00#8] = .needMore ∧
    decodeHeader [0x81#8, 0x7F#8, 0#8, 0#8, 0#8, 1#8] = .needMore ∧
    decodeHeader [0x81#8, 0xFF#8, 0#8, 0#8, 0#8, 0#8, 0#8, 0#8, 0#8, 5#8, 1#8, 2#8, 3#8] = .needMore ∧
    decodeHeader [] = .nothing := by decide

/-- The table numbers `w = S[0]*256 + S[1]` (R100): 0x82FE is E16M of opcode 2. -/
theorem test_table_word : decodeTableWord 16 0x82FE = some (.hdrE16M true 0x2#4 0#16 zeroKey) ∧
    decodeTableWord 8 0x8B = some (.frameRsvdB true (.s7u 0#7)) ∧ decodeTableWord 8 0x20 = some (.illRsv2 0x20#8) := by decide

/-! ## One step: the vectors of 95_test_vectors.md -/

/-- 2.3: `81 01 41 42` emits `{1, 0x1, 0, 1, 41, 3}` and returns `42`. -/
theorem test_step_decode : look (step (issued (.decode [0x81#8, 0x01#8, 0x41#8, 0x42#8]))) (fun s =>
    s.q = [⟨true, false, false, false, 0x1#4, false, 1#32, [0x41#8], 3#33⟩] && s.result = .remainder [0x42#8]) = true := by decide
/-- 2.3: an eleven-byte frame completed from AWAIT_PAY; the key phase runs on from `RB` (R154), `frameLen` is 11 (R127). -/
theorem test_step_decode_completes :
    look (exec (.decode [0x40#8, 0x50#8, 0x81#8, 0x00#8]) (awaiting (ppf5 [0x10#8, 0x20#8, 0x30#8]))) (fun s =>
      s.q = [⟨true, false, false, false, 0x2#4, true, 5#32, [0x11#8, 0x22#8, 0x33#8, 0x44#8, 0x51#8], 11#33⟩] &&
      s.result = .remainder [0x81#8, 0x00#8]) = true := by decide
/-- P1: two coalesced frames, the second masked. -/
theorem test_step_feed : look (step (issued (.feed [0x81#8, 0x02#8, 0x48#8, 0x69#8, 0x82#8, 0x83#8, 0x0A#8, 0x0B#8, 0x0C#8, 0x0D#8,
    0x0B#8, 0x09#8, 0x0F#8]))) (fun s =>
      s.q = [⟨true, false, false, false, 0x1#4, false, 2#32, [0x48#8, 0x69#8], 4#33⟩,
        ⟨true, false, false, false, 0x2#4, true, 3#32, [1#8, 2#8, 3#8], 9#33⟩] && s.result = .ok) = true := by decide
/-- P4: the first frame is queued, then ProtocolError; the rest is discarded. -/
theorem test_step_feed_error : look (step (issued (.feed [0x81#8, 0x01#8, 0x41#8, 0xC1#8, 0x01#8, 0x42#8, 0x81#8, 0x00#8]))) (fun s =>
    s.st = .error && s.err = .protocol && s.q.length = 1 && s.result = .error (.protocol 0xC1#8 none)) = true := by decide
/-- 2.5: QREAD keeps the queue, QCLEAR empties it, DRAIN does both; the PPF survives (R164). -/
theorem test_step_qread : look (exec .qread { awaiting (ppf5 []) with q := [frame0] }) (fun s =>
    s.result = .frames [frame0] && s.q = [frame0]) = true := by decide
theorem test_step_qclear : look (exec .qclear { awaiting (ppf5 []) with q := [frame0] }) (fun s =>
    s.q = [] && s.ppf = some (ppf5 [])) = true := by decide
theorem test_step_drain : look (exec .drain { dead with q := [frame0] }) (fun s =>
    s.result = .frames [frame0] && s.q = [] && s.st = .error) = true := by decide
/-- P4: STATUS in ERROR with one Frame queued is (3, 1, 1). -/
theorem test_step_status : look (exec .status { dead with q := [frame0] }) (fun s => s.result = .status 3#2 1#2 1) = true := by decide
/-- 2.7: RESET from ERROR. -/
theorem test_step_reset : look (exec .reset { dead with q := [frame0] }) (fun s =>
    s.st = .idle && s.err = .none && s.q = []) = true := by decide
/-- 2.2: the example of R150, and bytes beyond `payloadLen` ignored. -/
theorem test_step_unmask : look (exec (.unmask [0x7F#8, 0x9F#8, 0x4D#8, 0x51#8, 0x58#8] 5#32 ⟨0x37#8, 0xFA#8, 0x21#8, 0x3D#8⟩) State.reset)
    (fun s => s.result = .bytes [0x48#8, 0x65#8, 0x6C#8, 0x6C#8, 0x6F#8]) = true := by decide
theorem test_step_unmask_longer : look (exec (.unmask [0xAA#8, 0xBB#8, 0xCC#8] 2#32 ⟨0xFF#8, 0xFF#8, 0xFF#8, 0xFF#8⟩) State.reset)
    (fun s => s.result = .bytes [0x55#8, 0x44#8]) = true := by decide
/-- 2.6: `CREATEFRAME(48 69, 0x1, 1)`. -/
theorem test_step_createFrame : look (exec (.createFrame [0x48#8, 0x69#8] 0x1#4 true) State.reset)
    (fun s => s.result = .bytes [0x81#8, 0x02#8, 0x48#8, 0x69#8]) = true := by decide
set_option maxRecDepth 3000 in
/-- 2.6: the 126-byte boundary, and 127 bytes (R177, R182). -/
theorem test_step_createFrame_126 : (encoderBytes 0x02#8 (List.replicate 126 0x41#8)).take 5 = [0x02#8, 0x7E#8, 0x00#8, 0x7E#8, 0x41#8] ∧
    (encoderBytes 0x02#8 (List.replicate 127 0x41#8)).take 3 = [0x02#8, 0x7F#8, 0x41#8] := by decide
theorem test_step_encBinFin : look (exec (.encBinFin [0x41#8]) dead) (fun s => s.result = .bytes [0x82#8, 0x01#8, 0x41#8]) = true := by decide
/-- 2.3: `89 80 01 02 03 04` is a ping whose key is consumed and dropped (R131). -/
theorem test_step_framePing : look (exec (.framePing true (.s7m 0#7 ⟨1#8, 2#8, 3#8, 4#8⟩)) State.reset) (fun s =>
    s.q = [⟨true, false, false, false, 0x9#4, true, 0#32, [], 6#33⟩]) = true := by decide
/-- 2.3: `81 03` with no payload byte yet creates a PPF with an empty `RB` (90_conflicts.md C4). -/
theorem test_step_hdrS7U : look (exec (.hdrS7U true 0x1#4 3#7) State.reset) (fun s =>
    s.st = .awaitPay && s.ppf = some ⟨true, false, false, false, 0x1#4, false, 3#32, zeroKey, 2#4, []⟩) = true := by decide
/-- 2.7: `82 7E 04 01` with `PAYLOAD_CAP` = 1024, and a frame into a full queue. -/
theorem test_step_hdrE16U_cap : look (exec (.hdrE16U true 0x2#4 1025#16) { State.reset with cfg := { payloadCap := 1024 } }) (fun s =>
    s.st = .error && s.err = .unsupportedLength) = true := by decide
theorem test_step_full_queue : look (exec (.frameText true (.s7u 0#7)) full) (fun s => s.err = .queueOverflow && s.q = [frame0]) = true := by decide
/-- P6, last FEED: the 16-byte frame of the longest header. -/
theorem test_step_hdrE64M : look (exec (.feed [0x6B#8]) (awaiting ⟨true, false, false, false, 0x1#4, true, 2#32, ⟨1#8, 2#8, 3#8, 4#8⟩, 14#4, [0x49#8]⟩))
    (fun s => s.q = [⟨true, false, false, false, 0x1#4, true, 2#32, [0x48#8, 0x69#8], 16#33⟩] && s.st = .idle) = true := by decide
/-- A table word placed for the next step runs: 0x8100 is the frame `81 00`. -/
theorem test_withFetchWord : look (step (State.reset.withFetchWord 16 0x8100)) (fun s => s.q = [frame0]) = true := by decide
/-- ILL.RSV2 and ILL.E64HI as the first instruction after reset. -/
theorem test_withFetchWord_illegal : look (step (State.reset.withFetchWord 8 0x20)) (fun s => s.err = .protocol) = true := by decide
theorem test_step_illE64Hi : look (exec (.illE64Hi true 0x1#4 false 1#32 2#32) State.reset) (fun s =>
    s.err = .unsupportedLength && s.result = .error (.unsupportedLength 1#32 2#32)) = true := by decide

/-! ## The invariant holds of a state in each of the four rows of R34 -/

theorem inv_reset : Inv State.reset where
  idle := fun _ => ⟨rfl, rfl, rfl⟩
  awaitHdr := by simp [State.reset]
  awaitPay := by simp [State.reset]
  error := by simp [State.reset]
  frames := by simp [State.reset]
  depth := by simp [State.reset]
  inp := rfl

theorem inv_holding : Inv (holding [0x81#8]) where
  idle := by simp [holding]
  awaitHdr := fun _ => by decide
  awaitPay := by simp [holding]
  error := by simp [holding]
  frames := by simp [holding, State.reset]
  depth := by simp [holding, State.reset]
  inp := rfl

/-- `RB` may hold as many as `payloadLen - 1` bytes (R25). -/
theorem inv_awaiting : Inv (awaiting (ppf5 [0x10#8, 0x20#8, 0x30#8, 0x40#8])) where
  idle := by simp [awaiting]
  awaitHdr := by simp [awaiting]
  awaitPay := fun _ => ⟨rfl, rfl, _, rfl,
    { short := by decide, rsv1 := rfl, rsv2 := rfl, rsv3 := rfl, offset := by simp [legalHl, ppf5], key := by simp [ppf5], cap := by decide }⟩
  error := by simp [awaiting]
  frames := by simp [awaiting, State.reset]
  depth := by simp [awaiting, State.reset]
  inp := rfl

theorem inv_dead : Inv dead where
  idle := by simp [dead]
  awaitHdr := by simp [dead]
  awaitPay := by simp [dead]
  error := fun _ => by decide
  frames := by simp [dead, State.reset]
  depth := by simp [dead, State.reset]
  inp := rfl

/-- A queue as full as `QUEUE_CAP` lets it be. -/
theorem inv_full : Inv full where
  idle := fun _ => ⟨rfl, rfl, rfl⟩
  awaitHdr := by simp [full, tight, State.reset]
  awaitPay := by simp [full, tight, State.reset]
  error := by simp [full, tight, State.reset]
  frames := by
    intro f hf
    simp only [full, List.mem_singleton] at hf
    subst hf
    exact { length := rfl, rsv1 := rfl, rsv2 := rfl, rsv3 := rfl, total := ⟨2#4, by simp [legalHl, frame0], rfl⟩ }
  depth := by intro c hc; cases hc; decide
  inp := rfl

theorem inv_tight : Inv tight where
  idle := fun _ => ⟨rfl, rfl, rfl⟩
  awaitHdr := by simp [tight, State.reset]
  awaitPay := by simp [tight, State.reset]
  error := by simp [tight, State.reset]
  frames := by simp [tight, State.reset]
  depth := by intro c hc; cases hc; decide
  inp := rfl

theorem room_tight : Room tight := by intro c hc; cases hc; decide

/-- `tight` takes a chunk of exactly its `CHUNK_MAX`. -/
theorem accepts_tight : Accepts tight (List.replicate 200 0#8) := by
  intro m hm; cases hm; exact Nat.le_of_eq List.length_replicate

/-- An instance with no limits takes any chunk. -/
theorem accepts_reset (chunk : List Byte) : Accepts State.reset chunk := by intro m hm; cases hm

/-! ## Every hypothesis can be met: one witness for each statement that has any -/

theorem witness_FormatRowsRoundTrip : ∀ i ∈ [Instr.hdrS7U true 0xF#4 125#7, .hdrS7M false 0x0#4 125#7 zeroKey, .hdrE16U true 0x1#4 0xFFFF#16,
    .hdrE16M true 0x1#4 0#16 zeroKey, .hdrE64U true 0x2#4 0xFFFFFFFF#32, .hdrE64M false 0x2#4 0#32 zeroKey, .illRsv1 0x40#8, .illRsv2 0x3F#8,
    .illRsv3 0x10#8, .illE64Hi true 0x1#4 true 1#32 0#32], i.wf = true ∧ headerRow i = true := by decide

theorem witness_OpcodeRowsRoundTrip : ∀ i ∈ [Instr.frameCont true (.s7u 125#7), .frameText true (.s7m 125#7 zeroKey), .frameBin true (.e16u 0#16),
    .frameRsvd3 true (.e16m 0#16 zeroKey), .frameRsvd4 true (.e64u 0#32), .frameRsvd5 true (.e64m 0#32 zeroKey), .frameRsvd6 false (.s7u 0#7),
    .frameRsvd7 false (.s7u 0#7), .frameClose false (.s7u 0#7), .framePing false (.s7u 0#7), .framePong false (.s7u 0#7),
    .frameRsvdB false (.s7u 0#7), .frameRsvdC false (.s7u 0#7), .frameRsvdD false (.s7u 0#7), .frameRsvdE false (.s7u 0#7),
    .frameRsvdF false (.s7u 0#7), .illRsv1 0xFF#8, .illRsv2 0x20#8, .illRsv3 0x1F#8, .illE64Hi false 0x0#4 false 0x80000000#32 0#32],
    i.wf = true ∧ opcodeRow i = true := by decide

theorem witness_DecodedBytesAreTheEncoding : decodeHeader [0x81#8, 0x7D#8, 0x41#8] = .instr (.hdrS7U true 0x1#4 125#7) [0x41#8] ∧
    decodeOpcode [0x81#8, 0x7D#8, 0x41#8] = .instr (.frameText true (.s7u 125#7)) [0x41#8] := by decide

theorem witness_DecoderIsTotal : decodeHeader [0x81#8, 0xFF#8, 0#8, 0#8, 0#8, 0#8, 0#8, 0#8, 0#8, 5#8, 1#8, 2#8, 3#8] = .needMore ∧
    decodeHeader [0x81#8] = .needMore ∧ 14 ≤ (List.replicate 14 0#8 : List Byte).length := by decide

theorem witness_ByteZeroRowsMatchTheTable : (0x70#8 &&& 0x40#8 = 0x40#8) ∧ (0x30#8 &&& 0x40#8 = 0#8 ∧ 0x30#8 &&& 0x20#8 = 0x20#8) ∧
    (0x10#8 &&& 0x60#8 = 0#8 ∧ 0x10#8 &&& 0x10#8 = 0x10#8) ∧ (0x8F#8 &&& 0x70#8 = 0#8) ∧
    ∀ op : Nibble, op.setWidth 8 &&& 0x7F#8 = (op.setWidth 8 : Byte) ∧ (0x80#8 ||| op.setWidth 8) &&& 0x7F#8 = (op.setWidth 8 : Byte) := by decide

theorem witness_ParsedHeaderFields :
    parseHeader {} [0x81#8, 0x7D#8] = .header ⟨true, false, false, false, 0x1#4, false, 125#32, zeroKey, 2#4⟩ ∧
    parseHeader {} [0x82#8, 0x7E#8, 0xFF#8, 0xFF#8] = .header ⟨true, false, false, false, 0x2#4, false, 65535#32, zeroKey, 4#4⟩ ∧
    parseHeader {} [0x82#8, 0xFF#8, 0#8, 0#8, 0#8, 0#8, 0xFF#8, 0xFF#8, 0xFF#8, 0xFF#8, 1#8, 2#8, 3#8, 4#8] =
      .header ⟨true, false, false, false, 0x2#4, true, 0xFFFFFFFF#32, ⟨1#8, 2#8, 3#8, 4#8⟩, 14#4⟩ := by decide

/-- The longest sequence each clause of ParseHeaderWaitsForItsBytes speaks of; its conclusion is seen on them too. -/
theorem witness_ParseHeaderWaitsForItsBytes : ∀ S ∈ ([[0x80#8], [0x81#8, 0x7E#8, 0#8], [0x81#8, 0x7F#8, 0#8, 0#8, 0#8, 1#8, 0#8, 0#8, 0#8],
    [0x81#8, 0xFD#8, 1#8, 2#8, 3#8], [0x81#8, 0xFE#8, 0xFF#8, 0xFF#8, 1#8, 2#8, 3#8],
    [0x81#8, 0xFF#8, 0#8, 0#8, 0#8, 0#8, 0xFF#8, 0xFF#8, 0xFF#8, 0xFF#8, 1#8, 2#8, 3#8]] : List (List Byte)),
    S ≠ [] ∧ S.getD 0 0#8 &&& 0x70#8 = 0#8 ∧ parseHeader {} S = .incomplete := by decide

/-- The shortest, a short and the longest header, each with exactly the bytes it calls for. -/
theorem witness_EverythingElseIsALegalHeader : 2 ^ 32 - 1 ≤ ({} : Config).payloadCap ∧
    ∀ S ∈ ([[0x81#8, 0#8], [0x82#8, 0x7E#8, 0xFF#8, 0xFF#8],
      [0x8F#8, 0xFF#8, 0#8, 0#8, 0#8, 0#8, 0xFF#8, 0xFF#8, 0xFF#8, 0xFF#8, 0#8, 0#8, 0#8, 0#8]] : List (List Byte)),
    2 ≤ S.length ∧ calledLength S ≤ S.length ∧ S.getD 0 0#8 &&& 0x70#8 = 0#8 ∧
    ((S.getD 1 0#8).toNat % 128 = 127 → ∀ i, 2 ≤ i → i ≤ 5 → S.getD i 0#8 = 0#8) := by
  refine ⟨by decide, fun S hS => ?_⟩
  simp only [List.mem_cons, List.not_mem_nil, or_false] at hS
  rcases hS with rfl | rfl | rfl <;> refine ⟨by decide, by decide, by decide, fun h => ?_⟩
  · exact absurd h (by decide)
  · exact absurd h (by decide)
  intro i h2 h5
  have : i = 2 ∨ i = 3 ∨ i = 4 ∨ i = 5 := by omega
  rcases this with rfl | rfl | rfl | rfl <;> rfl

/-- At the capacity, the payload exactly complete, one place left in `Q`; the same length fits all six formats. -/
theorem witness_FormatRowsEmitTheirFrame : ∃ s : State, s.st = .idle ∧ Room s ∧ (125#7).toNat ≤ 125 ∧ (125#7).toNat ≤ s.cfg.payloadCap ∧
    (125#7).toNat ≤ s.inp.length ∧ (125#16).toNat ≤ s.cfg.payloadCap ∧ (125#16).toNat ≤ s.inp.length ∧
    (125#32).toNat ≤ s.cfg.payloadCap ∧ (125#32).toNat ≤ s.inp.length :=
  ⟨{ tight with inp := List.replicate 125 0x41#8 }, rfl, room_tight, by decide, by decide, by simp, by decide, by simp, by decide, by simp⟩

/-- One byte short. -/
theorem witness_FormatRowsSaveAPartialFrame : ∃ s : State, s.st = .idle ∧ (125#7).toNat ≤ 125 ∧ (125#7).toNat ≤ s.cfg.payloadCap ∧
    s.inp.length < (125#7).toNat ∧ (125#16).toNat ≤ s.cfg.payloadCap ∧ s.inp.length < (125#16).toNat ∧
    (125#32).toNat ≤ s.cfg.payloadCap ∧ s.inp.length < (125#32).toNat :=
  ⟨{ tight with inp := List.replicate 124 0x41#8 }, rfl, by decide, by decide, by simp, by decide, by simp, by decide, by simp⟩

theorem witness_FormatRowsRaiseAtTheLimits : full.st = .idle ∧ (HdrForm.e16u 126#16).wf = true ∧
    full.cfg.payloadCap < (formHeader true 0x1#4 (.e16u 126#16)).payloadLen.toNat ∧
    (formHeader true 0x1#4 (.e16u 0#16)).payloadLen.toNat ≤ full.cfg.payloadCap ∧
    (formHeader true 0x1#4 (.e16u 0#16)).payloadLen.toNat ≤ full.inp.length ∧ ∃ c, full.cfg.queueCap = some c ∧ c ≤ full.q.length :=
  ⟨rfl, rfl, by decide, by decide, by decide, 1, rfl, by decide⟩

theorem witness_OpcodeRowsEmitTheirFrame : ∃ s : State, s.st = .idle ∧ Room s ∧ ∀ f ∈ [HdrForm.s7u 2#7, .s7m 2#7 zeroKey],
    f.wf = true ∧ (formHeader true 0x8#4 f).payloadLen.toNat ≤ s.cfg.payloadCap ∧ (formHeader true 0x8#4 f).payloadLen.toNat ≤ s.inp.length :=
  ⟨{ tight with inp := [0x48#8, 0x69#8] }, rfl, room_tight, by decide⟩

theorem witness_IllegalRowsRaise : State.reset.st = .idle := rfl

/-- A frame instruction in each of the four states. -/
theorem witness_FrameInstructionIsDecodeOfItsBytes : ∀ s ∈ [State.reset, holding [0x81#8], awaiting (ppf5 []), dead],
    (Instr.hdrS7U true 0x1#4 2#7).wf = true ∧ headerRow (.hdrS7U true 0x1#4 2#7) = true ∧ (s.st = .idle → s.hb = []) ∧
    Accepts s (encode (.hdrS7U true 0x1#4 2#7) ++ s.inp) := by
  intro s hs
  fin_cases hs <;> exact ⟨by decide, by decide, by decide, by intro m hm; cases hm⟩

theorem witness_EncoderRowsReturnTheirFrame : State.reset.cfg.encPresent = true ∧ (List.replicate 255 0x41#8).length < 256 ∧
    (List.replicate 126 0x41#8).length = 126 :=
  ⟨rfl, by simp only [List.length_replicate]; omega, List.length_replicate⟩

theorem witness_CreateFrameResult : State.reset.cfg.encPresent = true ∧ (0x9#4 ≠ 0x1#4 ∧ 0x9#4 ≠ 0x2#4) ∧
    256 ≤ (List.replicate 256 0x41#8).length ∧ (List.replicate 255 0x41#8).length < 256 := by
  exact ⟨rfl, by decide, Nat.le_of_eq List.length_replicate.symm, by rw [List.length_replicate]; omega⟩

theorem witness_EncoderLimits : ({ State.reset with cfg := { encPresent := false } } : State).cfg.encPresent = false ∧
    State.reset.cfg.encPresent = true ∧ 256 ≤ (List.replicate 256 0x41#8).length :=
  ⟨rfl, rfl, Nat.le_of_eq List.length_replicate.symm⟩

theorem witness_UnmaskResult : ([0xAA#8] : List Byte).length < (2#32).toNat ∧ (2#32).toNat ≤ ([0xAA#8, 0xBB#8] : List Byte).length := by decide

theorem witness_UnmaskIsAnInvolution : ([0x48#8, 0x65#8, 0x6C#8, 0x6C#8, 0x6F#8] : List Byte).length = (5#32).toNat := by decide

theorem witness_UnmaskWithZeroKey : (3#32).toNat ≤ ([0xAA#8, 0xBB#8, 0xCC#8] : List Byte).length := by decide

/-- The clauses of StatusReturnsTheRecord: a state for each code. -/
theorem witness_StatusReturnsTheRecord : State.reset.st = .idle ∧ (holding [0x81#8]).st = .awaitHdr ∧ (awaiting (ppf5 [])).st = .awaitPay ∧
    dead.st = .error ∧ State.reset.err = .none ∧ dead.err = .protocol ∧ (dead.raised (.unsupportedLength 1#32 0#32)).err = .unsupportedLength ∧
    (dead.raised .queueOverflow).err = .queueOverflow := by decide

/-- From IDLE, and from AWAIT_HDR up to 13 bytes held. -/
theorem witness_DecodeHoldsAnIncompleteHeader : (State.reset.st = .idle ∧ State.reset.hb ++ [0x81#8] ≠ [] ∧
      parseHeader State.reset.cfg (State.reset.hb ++ [0x81#8]) = .incomplete) ∧
    ((holding [0x81#8]).st = .awaitHdr ∧
      parseHeader {} ((holding [0x81#8]).hb ++ [0xFF#8, 0#8, 0#8, 0#8, 0#8, 0#8, 0#8, 0#8, 5#8, 1#8, 2#8, 3#8]) = .incomplete) ∧
    Accepts State.reset [0x81#8] :=
  ⟨by decide, by decide, accepts_reset _⟩

theorem witness_DecodeOfNothingIsANoop : (Inv State.reset ∧ State.reset.st ≠ .error) ∧ (Inv (holding [0x81#8]) ∧ (holding [0x81#8]).st ≠ .error) ∧
    Inv (awaiting (ppf5 [0x10#8, 0x20#8, 0x30#8, 0x40#8])) ∧ (awaiting (ppf5 [0x10#8, 0x20#8, 0x30#8, 0x40#8])).st ≠ .error :=
  ⟨⟨inv_reset, by decide⟩, ⟨inv_holding, by decide⟩, inv_awaiting, by decide⟩

theorem witness_DecodeBuffersAShortChunk : (awaiting (ppf5 [0x10#8, 0x20#8])).st = .awaitPay ∧
    (awaiting (ppf5 [0x10#8, 0x20#8])).ppf = some (ppf5 [0x10#8, 0x20#8]) ∧ Accepts (awaiting (ppf5 [0x10#8, 0x20#8])) [0x30#8, 0x40#8] ∧
    (ppf5 [0x10#8, 0x20#8]).rb.length + [0x30#8, 0x40#8].length < (ppf5 [0x10#8, 0x20#8]).payloadLen.toNat :=
  ⟨rfl, rfl, accepts_reset _, by decide⟩

/-- The chunk ends exactly with the frame; a longer one meets the hypotheses too. -/
theorem witness_DecodeCompletesAPendingFrame : (awaiting (ppf5 [0x10#8, 0x20#8])).st = .awaitPay ∧
    (awaiting (ppf5 [0x10#8, 0x20#8])).ppf = some (ppf5 [0x10#8, 0x20#8]) ∧
    Accepts (awaiting (ppf5 [0x10#8, 0x20#8])) [0x30#8, 0x40#8, 0x50#8] ∧ Room (awaiting (ppf5 [0x10#8, 0x20#8])) ∧
    (ppf5 [0x10#8, 0x20#8]).mask = true ∧ ({ ppf5 [] with mask := false, key := zeroKey, byteOffset := 2#4 } : PPF).mask = false ∧
    (ppf5 [0x10#8, 0x20#8]).rb.length < (ppf5 [0x10#8, 0x20#8]).payloadLen.toNat ∧
    (ppf5 [0x10#8, 0x20#8]).payloadLen.toNat ≤ (ppf5 [0x10#8, 0x20#8]).rb.length + [0x30#8, 0x40#8, 0x50#8].length :=
  ⟨rfl, rfl, accepts_reset _, (by intro c hc; cases hc), rfl, rfl, by decide, by decide⟩

theorem witness_DecodeIntoAFullQueueRaises : ∃ s : State, s.st = .awaitPay ∧ s.ppf = some (ppf5 [1#8, 2#8, 3#8, 4#8]) ∧ Accepts s [5#8] ∧
    s.cfg.queueCap = some 1 ∧ 1 ≤ s.q.length ∧
    (ppf5 [1#8, 2#8, 3#8, 4#8]).payloadLen.toNat ≤ (ppf5 [1#8, 2#8, 3#8, 4#8]).rb.length + [5#8].length :=
  ⟨{ full with st := .awaitPay, ppf := some (ppf5 [1#8, 2#8, 3#8, 4#8]) }, rfl, rfl, (by intro m hm; cases hm; decide), rfl, by decide, by decide⟩

theorem witness_DecodeAndFeedRefusals : dead.st = .error ∧ tight.st ≠ .error ∧ tight.cfg.chunkMax = some 200 ∧
    200 < (List.replicate 201 0#8 : List Byte).length := ⟨rfl, by decide, rfl, by rw [List.length_replicate]; omega⟩

theorem witness_DecodeRaisesOnAnIllegalHeader : (State.reset.st = .idle ∧ State.reset.hb ++ [0x90#8] ≠ [] ∧
      (State.reset.hb ++ [0x90#8]).getD 0 0#8 &&& 0x70#8 ≠ 0#8) ∧
    ∃ S : List Byte, S = (holding [0x81#8]).hb ++ [0x7F#8, 0#8, 0#8, 0#8, 1#8, 0#8, 0#8, 0#8, 0#8] ∧ S.getD 0 0#8 &&& 0x70#8 = 0#8 ∧
      10 ≤ S.length ∧ (S.getD 1 0#8).toNat % 128 = 127 ∧ S.getD 2 0#8 ++ S.getD 3 0#8 ++ S.getD 4 0#8 ++ S.getD 5 0#8 ≠ 0#32 :=
  ⟨by decide, _, rfl, by decide⟩

/-- The remainder `42` of `81 01 41 42`. -/
theorem witness_RemainderIsAShorterSuffix : Inv State.reset ∧
    ∃ t, exec (.decode [0x81#8, 0x01#8, 0x41#8, 0x42#8]) State.reset = .next t ∧ t.result = .remainder [0x42#8] :=
  ⟨inv_reset, _, rfl, rfl⟩

theorem witness_FeedIsTheDecodeLoop : Inv State.reset ∧ Inv (awaiting (ppf5 [0x10#8, 0x20#8, 0x30#8, 0x40#8])) ∧ Inv dead :=
  ⟨inv_reset, inv_awaiting, inv_dead⟩

theorem witness_FeedTerminates : Inv State.reset ∧ Inv (holding [0x81#8]) ∧ Inv dead := ⟨inv_reset, inv_holding, inv_dead⟩

/-- At the frame boundary, and with byte 0 held. -/
theorem witness_StepRunsTheDecodedInstruction : ((issued (.decode [0x81#8, 0x00#8])).pending = [.decode [0x81#8, 0x00#8]] ∧
      (issued (.decode [0x81#8, 0x00#8])).st = .idle ∧ decodeHeader ([] ++ [0x81#8, 0x00#8]) = .instr (.hdrS7U true 0x1#4 0#7) []) ∧
    ((holding [0x81#8]).st = .awaitHdr ∧
      decodeOpcode ((holding [0x81#8]).hb ++ [0x00#8, 0x82#8]) = .instr (.frameText true (.s7u 0#7)) [0x82#8]) ∧
    Accepts (holding [0x81#8]) [0x00#8, 0x82#8] := ⟨by decide, by decide, accepts_reset _⟩

theorem witness_StepRunsTheOldestHostOperation : State.reset.pending = [] ∧ (issued .qread).pending = .qread :: [] := by decide

theorem witness_FetchedTableWordRuns : Accepts State.reset (List.replicate 14 0#8) ∧
    decodeTableWord 16 0x8100 = some (.hdrS7U true 0x1#4 0#7) ∧ decodeTableWord 8 0x40 = some (.illRsv1 0x40#8) :=
  ⟨accepts_reset _, by decide, by decide⟩

theorem witness_StepKeepsTheInvariant : Inv (issued (.decode [0x81#8])) ∧ ∃ t, step (issued (.decode [0x81#8])) = .next t ∧ t.st = .awaitHdr :=
  ⟨inv_reset.withPending _, _, rfl, rfl⟩

theorem witness_EveryStepCompletes : Inv State.reset ∧ Inv (issued (.createFrame [] 0x1#4 true)) := ⟨inv_reset, inv_reset.withPending _⟩

theorem witness_OnlyResetLeavesError : dead.st = .error ∧ Instr.drain ≠ .reset ∧ (∃ t, exec .drain dead = .next t) ∧
    ∃ t, exec .reset dead = .next t := ⟨rfl, by decide, ⟨_, rfl⟩, _, rfl⟩

/-- One instruction for each error. -/
theorem witness_ErrorEntry : (∃ t, exec (.illRsv1 0xC1#8) State.reset = .next t ∧ t.result = .error (.protocol 0xC1#8 none)) ∧
    (∃ t, exec (.illE64Hi true 0x1#4 false 1#32 0#32) State.reset = .next t ∧ t.result = .error (.unsupportedLength 1#32 0#32)) ∧
    ∃ t, exec (.frameText true (.s7u 0#7)) full = .next t ∧ t.result = .error .queueOverflow :=
  ⟨⟨_, rfl, rfl⟩, ⟨_, rfl, rfl⟩, _, rfl, rfl⟩

/-- The FEED of P4 ends with an error, and its second turn starts at the bad frame with the first one queued. -/
theorem witness_ErrorEntry_feed : (∃ t, exec (.feed [0x81#8, 0x01#8, 0x41#8, 0xC1#8, 0x01#8]) State.reset = .next t ∧
      t.result = .error (.protocol 0xC1#8 none)) ∧
    ∃ u, FeedReaches [0x81#8, 0x01#8, 0x41#8, 0xC1#8, 0x01#8] State.reset [0xC1#8, 0x01#8] u ∧ u.q.length = 1 :=
  ⟨⟨_, rfl, rfl⟩, _, .turn rfl rfl (.start _ _), rfl⟩

/-- Three of the refusals of R219; the other two stand in witness_DecodeAndFeedRefusals and witness_CreateFrameResult. -/
theorem witness_RefusalChangesNothing : (Inv dead ∧ ∃ t, exec (.feed []) dead = .next t ∧ t.result = .refused .dead) ∧
    (Inv State.reset ∧ ∃ t, exec (.unmask [0xAA#8] 2#32 zeroKey) State.reset = .next t ∧ t.result = .refused .shortInput) ∧
    ∃ t, exec (.createFrame [] 0x9#4 true) State.reset = .next t ∧ t.result = .refused .encodeOpcodeUnsupported :=
  ⟨⟨inv_dead, _, rfl, rfl⟩, ⟨inv_reset, _, rfl, rfl⟩, _, rfl, rfl⟩

theorem witness_FramesLeaveOnlyByClearing : (∃ t, exec .qread full = .next t) ∧ Instr.qread ≠ .qclear ∧ Instr.qread ≠ .drain ∧
    Instr.qread ≠ .reset ∧ (∃ t, exec .qclear full = .next t) ∧ (∃ t, exec .drain full = .next t) ∧ ∃ t, exec .reset full = .next t :=
  ⟨⟨_, rfl⟩, by decide, by decide, by decide, ⟨_, rfl⟩, ⟨_, rfl⟩, _, rfl⟩

theorem witness_ConfigurationIsFixed : ∃ t, exec .reset full = .next t := ⟨_, rfl⟩

/-- Two states that differ in the PPF alone. -/
theorem witness_PendingFrameIsNeverExposed : ∃ s s' : State, s ≠ s' ∧ s.st = s'.st ∧ s.err = s'.err ∧ s.q = s'.q ∧ s.cfg = s'.cfg ∧
    (∃ t, exec .qread s = .next t) ∧ ∃ t', exec .qread s' = .next t' :=
  ⟨awaiting (ppf5 []), awaiting (ppf5 [1#8]), by decide, rfl, rfl, rfl, rfl, ⟨_, rfl⟩, _, rfl⟩

/-- The two frames of P1. -/
def framesP1 : List WireFrame := [⟨true, 0x1#4, .s7u 2#7, [0x48#8, 0x69#8]⟩,
  ⟨true, 0x2#4, .s7m 3#7 ⟨0x0A#8, 0x0B#8, 0x0C#8, 0x0D#8⟩, [0x0B#8, 0x09#8, 0x0F#8]⟩]

theorem framesP1_ok : ∀ w ∈ framesP1, WireOk State.reset.cfg w := by
  intro w hw
  simp only [framesP1, List.mem_cons, List.not_mem_nil, or_false] at hw
  rcases hw with rfl | rfl <;> exact ⟨by decide, by decide, by decide⟩

/-- Their bytes are P1's encoding. -/
theorem test_framesP1_bytes : streamBytes framesP1 = [0x81#8, 0x02#8, 0x48#8, 0x69#8, 0x82#8, 0x83#8, 0x0A#8, 0x0B#8, 0x0C#8, 0x0D#8,
    0x0B#8, 0x09#8, 0x0F#8] := by decide

/-- Room for the frames of P1, in an unbounded queue and in one of exactly two places. -/
theorem roomFor_framesP1 : RoomFor State.reset framesP1.length ∧
    RoomFor { State.reset with cfg := { queueCap := some 2 } } framesP1.length := by
  constructor <;> intro c h <;> cases h
  decide

theorem witness_StreamOfFramesIsQueuedInOrder : Inv State.reset ∧ State.reset.st = .idle ∧ RoomFor State.reset framesP1.length ∧
    (∀ w ∈ framesP1, WireOk State.reset.cfg w) ∧ Accepts State.reset (streamBytes framesP1) :=
  ⟨inv_reset, rfl, roomFor_framesP1.1, framesP1_ok, accepts_reset _⟩

theorem witness_ErrorIsPreciseInAStream : Inv State.reset ∧ State.reset.st = .idle ∧ RoomFor State.reset framesP1.length ∧
    (∀ w ∈ framesP1, WireOk State.reset.cfg w) ∧ 0x90#8 &&& 0x70#8 ≠ 0#8 ∧ Accepts State.reset (streamBytes framesP1 ++ 0x90#8 :: [0x00#8]) ∧
    1#32 ≠ 0#32 ∧ Accepts State.reset (streamBytes framesP1 ++ (encode (.illE64Hi true 0x1#4 false 1#32 0#32) ++ [])) :=
  ⟨inv_reset, rfl, roomFor_framesP1.1, framesP1_ok, by decide, accepts_reset _, by decide, accepts_reset _⟩

/-- `81 02 48 69` whole and cut inside the header, on an instance with a finite `CHUNK_MAX`. -/
theorem witness_ChunkPartitionInvariance : ∃ cs ds : List (List Byte), Inv tight ∧ cs ≠ ds ∧ cs.flatten = ds.flatten ∧
    (∀ c ∈ cs, Accepts tight c) ∧ ∀ d ∈ ds, Accepts tight d := by
  refine ⟨[[0x81#8, 0x02#8, 0x48#8, 0x69#8]], [[0x81#8], [], [0x02#8, 0x48#8], [0x69#8]], inv_tight, by decide, by decide, ?_, ?_⟩ <;>
  · intro c hc m hm
    cases hm
    fin_cases hc <;> simp

/-- 126 bytes, `PAYLOAD_CAP` 126, one place in `Q`, `CHUNK_MAX` 130. -/
theorem witness_EncodedFrameDecodesBack : ∃ s : State, Inv s ∧ s.st = .idle ∧ s.q = [] ∧ Room s ∧ s.cfg.encPresent = true ∧
    (List.replicate 126 0x41#8).length ≤ 126 ∧ (List.replicate 126 0x41#8).length ≤ s.cfg.payloadCap ∧
    ∀ m, s.cfg.chunkMax = some m → (List.replicate 126 0x41#8).length + 4 ≤ m := by
  refine ⟨{ State.reset with cfg := { payloadCap := 126, queueCap := some 1, chunkMax := some 130 } }, ?_, rfl, rfl, ?_, rfl, by simp, by simp, ?_⟩
  · exact { idle := fun _ => ⟨rfl, rfl, rfl⟩, awaitHdr := by simp [State.reset], awaitPay := by simp [State.reset],
            error := by simp [State.reset], frames := by simp [State.reset], depth := by simp [State.reset], inp := rfl }
  · intro c hc; cases hc; decide
  · intro m hm; cases hm; rw [List.length_replicate]

/-- The lengths where the clauses meet, with an upper half of zeros and one that is not. -/
theorem witness_LongEncodedFramesAreMisframed : State.reset.cfg.encPresent = true ∧
    (∀ n ∈ [127, 128, 253, 254, 255], 127 ≤ (List.replicate n 0x00#8).length ∧ (List.replicate n 0x00#8).length ≤ 255) ∧
    (0x00#8 ++ 0x00#8 ++ 0x00#8 ++ 0x00#8 = 0#32) ∧ (0x41#8 ++ 0x41#8 ++ 0x41#8 ++ 0x41#8 ≠ 0#32) := by
  refine ⟨rfl, ?_, by decide, by decide⟩
  intro n hn
  rw [List.length_replicate]
  simp only [List.mem_cons, List.not_mem_nil, or_false] at hn
  omega

end Sys2Proof.Tests
end

section
/-! PROOFS. The step, said once for each shape of `pending`, and what follows for the host's operations (R9, R67, R217). -/

namespace Sys2Proof.Machine

open Sys2Proof

/-- R217: between operations the block holds its state. -/
theorem step_of_pending_nil {s : State} (h : s.pending = []) : step s = .next s := by
  simp only [step, h]

/-- R67: the oldest operation leaves the list and runs whole. -/
theorem step_of_pending_cons {s : State} {op : HostOp} {ops : List HostOp} (h : s.pending = op :: ops) :
    step s = exec (issue op) { s with pending := ops } := by
  simp only [step, h]

/-- Settles O39: `step` is given by the list of issued operations, and `issue` names each of the nine as the instruction beside it. -/
theorem stepRunsTheOldestHostOperation : Obligations.StepRunsTheOldestHostOperation := by
  intro s
  refine ⟨step_of_pending_nil, ?_⟩
  intro ops raw payload chunk len key op fin p hp hpending
  have hissue : issue p.1 = p.2 := by
    simp only [List.mem_cons, List.not_mem_nil, or_false] at hp
    rcases hp with rfl | rfl | rfl | rfl | rfl | rfl | rfl | rfl | rfl <;> rfl
  rw [step_of_pending_cons hpending, hissue]

end Sys2Proof.Machine
end

section
/-! PROOFS. What an operation keeps: one rule for each shared operation and one for the nine host operations, so that a claim about
every operation is left with DECODE, a delivered result, an emptied queue and RESET (R166). -/

namespace Sys2Proof.Machine

open Sys2Proof

/-- `P` holds where the operation ends, if it ends in a state at all. -/
def Ends (P : State → Prop) : Out → Prop
  | .next t => P t
  | .fault _ => True
  | .refused _ => True

/-- The operation leads from states with `P` to states with `P`. -/
def Keeps (P : State → Prop) (o : State → Out) : Prop := ∀ s, P s → Ends P (o s)

theorem Ends.of_eq {P : State → Prop} {o : Out} {t : State} (h : Ends P o) (ht : o = .next t) : P t := by
  subst ht; exact h

/-! ## What the host may read (R37) -/

/-- Agreement on everything the host-visible reads depend on: `ST`, `ERR`, `Q` and the configuration, not `HB` or the PPF (R37). -/
structure SameView (s s' : State) : Prop where
  st : s.st = s'.st
  err : s.err = s'.err
  q : s.q = s'.q
  cfg : s.cfg = s'.cfg

theorem SameView.refl (s : State) : SameView s s := ⟨rfl, rfl, rfl, rfl⟩

/-- All that the operation does is deliver a result, and what the host may read of `s` fixes that result, or that there is none. -/
def OnlyReplies (o : State → Out) (s : State) : Prop :=
  (∃ r, ∀ s', SameView s s' → o s' = .next (s'.reply r)) ∨ ∀ s', SameView s s' → o s' = .refused .encoderAbsent

theorem onlyReplies_qread (s : State) : OnlyReplies (exec .qread) s :=
  .inl ⟨.frames s.q, fun _ h => by rw [h.q]; rfl⟩

theorem onlyReplies_status (s : State) : OnlyReplies (exec .status) s :=
  .inl ⟨statusView s, fun _ h => by simp only [statusView, h.st, h.err, h.q]; rfl⟩

/-- UNMASK does not read the state at all (R150). -/
theorem onlyReplies_unmask (raw : List Byte) (len : BitVec 32) (key : Key) (s : State) :
    OnlyReplies (exec (.unmask raw len key)) s := by
  by_cases hshort : raw.length < len.toNat
  · exact .inl ⟨.refused .shortInput, fun _ _ => if_pos hshort⟩
  · exact .inl ⟨.bytes (unmaskBytes raw len.toNat key), fun _ _ => if_neg hshort⟩

/-- The encoder reads no more of the state than whether the unit exists (R184). -/
theorem onlyReplies_encodeWith (b0 : Byte) (payload : List Byte) (s : State) : OnlyReplies (encodeWith b0 payload) s := by
  by_cases henc : s.cfg.encPresent = true
  · by_cases hlong : 256 ≤ payload.length
    · exact .inl ⟨.refused .encodeLengthUnsupported, fun _ h => by
        simp only [encodeWith, ← h.cfg, henc, hlong, if_true]⟩
    · exact .inl ⟨.bytes (encoderBytes b0 payload), fun _ h => by
        simp only [encodeWith, ← h.cfg, henc, hlong, if_true, if_false]⟩
  · exact .inr fun _ h => by simp only [encodeWith, ← h.cfg, henc, if_false, Bool.false_eq_true]

theorem onlyReplies_createFrame (payload : List Byte) (op : Nibble) (fin : Bool) (s : State) :
    OnlyReplies (exec (.createFrame payload op fin)) s := by
  by_cases henc : s.cfg.encPresent = false
  · exact .inr fun _ h => if_pos (h.cfg ▸ henc)
  have htext {s' : State} (h : SameView s s') : exec (.createFrame payload op fin) s' =
      if op ≠ 0x1#4 ∧ op ≠ 0x2#4 then .next (s'.reply (.refused .encodeOpcodeUnsupported))
      else encodeWith (encoderByte0 op fin) payload s' := if_neg (h.cfg ▸ henc)
  by_cases hop : op ≠ 0x1#4 ∧ op ≠ 0x2#4
  · exact .inl ⟨.refused .encodeOpcodeUnsupported, fun _ h => (htext h).trans (if_pos hop)⟩
  · have hcoded {s' : State} (h : SameView s s') := (htext h).trans (if_neg hop)
    exact (onlyReplies_encodeWith (encoderByte0 op fin) payload s).imp
      (fun ⟨r, hr⟩ => ⟨r, fun s' h => (hcoded h).trans (hr s' h)⟩) (fun hr s' h => (hcoded h).trans (hr s' h))

/-! ## The rules -/

/-- An operation that only delivers a result keeps what a delivered result keeps. -/
theorem OnlyReplies.ends {P : State → Prop} {o : State → Out} {s : State} (ho : OnlyReplies o s) (hreply : ∀ r, P (s.reply r)) :
    Ends P (o s) := by
  obtain ⟨r, hr⟩ | hr := ho <;> rw [hr s (.refl s)]
  · exact hreply r
  · trivial

/-- FEED keeps what DECODE and a delivered result keep: the induction over its turns (R121). -/
theorem keeps_feedLoop {P : State → Prop} (hdecode : ∀ chunk, Keeps P (decodeChunk chunk))
    (hreply : ∀ s r, P s → P (s.reply r)) : ∀ n r, Keeps P (feedLoop n r) := by
  intro n
  induction n with
  | zero => exact fun _ _ _ => trivial
  | succ n ih =>
    intro r s hs
    have hturn := hdecode r s hs
    cases hd : decodeChunk r s with
    | fault f => simp only [feedLoop, hd, Ends]
    | refused f => simp only [feedLoop, hd, Ends]
    | next t =>
      have ht : P t := hturn.of_eq hd
      by_cases hrem : ∃ l, t.result = .remainder l
      · obtain ⟨l, hl⟩ := hrem
        cases l with
        | nil => rw [feedLoop_done hd hl]; exact hreply t .ok ht
        | cons b bs => rw [feedLoop_more hd hl]; exact ih (b :: bs) t ht
      · rw [feedLoop_stop hd (not_exists.mp hrem)]; exact ht

/-- What DECODE, RESET, an emptied queue and a delivered result keep, every host operation keeps (R166). -/
theorem keeps_issue {P : State → Prop} (hdecode : ∀ chunk, Keeps P (decodeChunk chunk)) (hreset : ∀ s, P s → P s.restarted)
    (hclear : ∀ s, P s → P s.cleared) (hreply : ∀ s r, P s → P (s.reply r)) (op : HostOp) : Keeps P (exec (issue op)) := by
  intro s hs
  cases op with
  | reset => exact hreset s hs
  | feed chunk => exact keeps_feedLoop hdecode hreply (feedTurns chunk s) chunk s hs
  | decode chunk => exact hdecode chunk s hs
  | qread => exact (onlyReplies_qread s).ends (hreply s · hs)
  | qclear => exact hreply s.cleared .done (hclear s hs)
  | drain => exact hreply s.cleared (.frames s.q) (hclear s hs)
  | status => exact (onlyReplies_status s).ends (hreply s · hs)
  | unmask raw len key => exact (onlyReplies_unmask raw len key s).ends (hreply s · hs)
  | createFrame payload opcode fin => exact (onlyReplies_createFrame payload opcode fin s).ends (hreply s · hs)

end Sys2Proof.Machine
end

section
/-! PROOFS. The invariant of R34: RESET reaches it from any state, DECODE keeps it transition by transition (R130), and so every
step does. -/

namespace Sys2Proof.Machine

open Sys2Proof

/-! ## The reset state -/

/-- The state R38 lists meets the first row of R34's table. -/
theorem Inv.of_empty {s : State} (hst : s.st = .idle) (herr : s.err = .none) (hhb : s.hb = []) (hppf : s.ppf = none)
    (hq : s.q = []) (hinp : s.inp = []) : Inv s where
  idle := fun _ => ⟨hhb, hppf, herr⟩
  awaitHdr := by simp [hst]
  awaitPay := by simp [hst]
  error := by simp [hst]
  frames := by simp [hq]
  depth := by simp [hq]
  inp := hinp

theorem inv_restarted (s : State) : Inv s.restarted := .of_empty rfl rfl rfl rfl rfl rfl

/-- Settles O41: both states are given field by field, and a state with those fields meets the invariant. -/
theorem resetMeetsTheInvariant : Obligations.ResetMeetsTheInvariant :=
  ⟨⟨.of_empty rfl rfl rfl rfl rfl rfl, rfl, rfl, rfl, rfl, rfl⟩,
    fun s => ⟨s.restarted, rfl, inv_restarted s, rfl, rfl, rfl, rfl, rfl⟩⟩

/-! ## The transitions of DECODE -/

/-- Where a header is awaited there is no PPF and no error. -/
theorem Inv.header_awaited {s : State} (hi : Inv s) (hs : s.st = .idle ∨ s.st = .awaitHdr) : s.ppf = none ∧ s.err = .none := by
  rcases hs with hs | hs
  · exact (hi.idle hs).2
  · obtain ⟨_, _, _, _, hrest⟩ := hi.awaitHdr hs
    exact hrest

/-- The second row of R34's table: header bytes that do not make a header are held. -/
theorem Inv.holding {s : State} (hi : Inv s) (hs : s.st = .idle ∨ s.st = .awaitHdr) {S : List Byte} (hS : S ≠ [])
    (hp : parseHeader s.cfg S = .incomplete) (r : Result) : Inv ((s.held S).answer r) where
  idle := by simp
  awaitHdr := fun _ =>
    have ⟨hpos, hmax, hcalled⟩ := parseHeader_incomplete hS hp
    ⟨hpos, hmax, hcalled, hp, hi.header_awaited hs⟩
  awaitPay := by simp
  error := by simp
  frames := hi.frames
  depth := hi.depth
  inp := rfl

/-- The third row of R34's table: a live PPF, in a state `t` that differs from `s` in no part the other clauses speak of. -/
theorem Inv.pendingFrame {s t : State} (hi : Inv s) {p : PPF} (hst : t.st = .awaitPay) (hhb : t.hb = []) (herr : t.err = .none)
    (hppf : t.ppf = some p) (hp : PpfOk s.cfg p) (hcfg : t.cfg = s.cfg) (hq : t.q = s.q) (hinp : t.inp = []) : Inv t where
  idle := by simp [hst]
  awaitHdr := by simp [hst]
  awaitPay := fun _ => ⟨hhb, herr, p, hppf, hcfg ▸ hp⟩
  error := by simp [hst]
  frames := hq ▸ hi.frames
  depth := by rw [hcfg, hq]; exact hi.depth
  inp := hinp

/-- The PPF that SavePartial makes of a parsed header whose payload is not all there (R115). -/
theorem ppfOk_ppfOf {cfg : Config} {S rest : List Byte} {h : Header} (hS : S ≠ []) (hp : parseHeader cfg S = .header h)
    (hrest : rest.length < h.payloadLen.toNat) : PpfOk cfg (ppfOf h rest) :=
  have ⟨hrsv1, hrsv2, hrsv3, hlegal, hkey, hcap, _, _⟩ := parseHeader_facts hS hp
  ⟨hrest, hrsv1, hrsv2, hrsv3, hlegal, hkey, hcap⟩

/-- More raw bytes leave a PPF well-formed while the payload is not complete (R117). -/
theorem PpfOk.extended {cfg : Config} {p : PPF} (hp : PpfOk cfg p) {more : List Byte}
    (hmore : p.rb.length + more.length < p.payloadLen.toNat) : PpfOk cfg { p with rb := p.rb ++ more } :=
  { hp with short := by simpa using hmore }

/-- DECODE while a header is awaited keeps the invariant: the first five rows of R130, and the full queue. -/
theorem Inv.decodeChunk_header {s : State} {chunk : List Byte} (hi : Inv s) (hs : s.st = .idle ∨ s.st = .awaitHdr)
    (ha : Accepts s chunk) : Ends Inv (decodeChunk chunk s) := by
  obtain ⟨hppf, herr⟩ := hi.header_awaited hs
  rcases decodeChunk_header_cases hs ha with ⟨_, hd⟩ | ⟨_, e, _, hd⟩ | ⟨hS, hp, hd⟩ | ⟨hS, h, hp, hpay⟩
  · rw [hd]; exact hi.answered _
  · rw [hd]; exact hi.errored e
  · rw [hd]; exact hi.holding hs hS hp _
  obtain ⟨_, _, _, hlegal, _⟩ := parseHeader_facts hS hp
  rcases hpay with ⟨hshort, hd⟩ | ⟨_, _, hd⟩ | ⟨hfull, hroom, hd⟩ <;> rw [hd]
  · exact hi.pendingFrame rfl rfl herr rfl (ppfOk_ppfOf hS hp hshort) rfl rfl rfl
  · exact hi.errored .queueOverflow
  · have hraw : ((afterHeader s chunk h).take h.payloadLen.toNat).length = h.payloadLen.toNat :=
      List.length_take_of_le hfull
    exact hi.appended (frameOk_frameOf hlegal hraw) hroom _ rfl hppf herr rfl rfl

/-- DECODE while a payload is awaited keeps the invariant: the sixth and seventh rows of R130, and the full queue. -/
theorem Inv.decodeChunk_payload {s : State} {chunk : List Byte} (hi : Inv s) (hs : s.st = .awaitPay) (ha : Accepts s chunk) :
    Ends Inv (decodeChunk chunk s) := by
  obtain ⟨hhb, herr, p, hppf, hp⟩ := hi.awaitPay hs
  rcases decodeChunk_payload_cases hs hppf ha with ⟨hshort, hd⟩ | ⟨_, _, hd⟩ | ⟨hfull, hroom, hd⟩ <;> rw [hd]
  · exact hi.pendingFrame hs hhb herr rfl (hp.extended hshort) rfl rfl rfl
  · exact hi.errored .queueOverflow
  · have hraw : (p.rb ++ chunk.take (p.payloadLen.toNat - p.rb.length)).length = (headerOf p).payloadLen.toNat := by
      have hrb := hp.short
      rw [List.length_append, List.length_take_of_le (by omega)]
      exact Nat.add_sub_cancel' hrb.le
    exact hi.appended (frameOk_frameOf (h := headerOf p) hp.offset hraw) hroom _ hhb rfl herr rfl rfl

theorem decodeChunk_keeps_inv (chunk : List Byte) : Keeps Inv (decodeChunk chunk) := by
  intro s hi
  rcases decodeChunk_cases s chunk hi.ppf_present with ⟨_, hd⟩ | ⟨_, _, hd⟩ | ⟨ha, hs⟩ | ⟨ha, hs, _⟩
  · rw [hd]; exact hi.answered _
  · rw [hd]; exact hi.answered _
  · exact hi.decodeChunk_header hs ha
  · exact hi.decodeChunk_payload hs ha

/-- Every host operation keeps the invariant. A row of the byte stream need not, given fields that no bytes encode. -/
theorem exec_issue_keeps_inv (op : HostOp) : Keeps Inv (exec (issue op)) :=
  keeps_issue decodeChunk_keeps_inv (fun s _ => inv_restarted s) (fun _ hi => hi.emptied) (fun _ r hi => hi.replied r) op

/-- Settles O42: a step is the oldest host operation, and each of the nine keeps the invariant. -/
theorem stepKeepsTheInvariant : Obligations.StepKeepsTheInvariant := by
  intro s t hi ht
  cases hpending : s.pending with
  | nil =>
    rw [step_of_pending_nil hpending] at ht
    cases ht
    exact hi
  | cons op ops =>
    rw [step_of_pending_cons hpending] at ht
    exact (exec_issue_keeps_inv op _ (hi.withPending ops)).of_eq ht

end Sys2Proof.Machine
end

section
/-! PROOFS. What no instruction writes: the configuration and the host's later operations (R33, R67). Every state change of the model
leaves both alone by definition, so the work is to see that every instruction is made of state changes. -/

namespace Sys2Proof.Machine

open Sys2Proof

/-- The configuration is `cfg` and the host's later operations are `ops`. -/
def HostSide (cfg : Config) (ops : List HostOp) (s : State) : Prop := s.cfg = cfg ∧ s.pending = ops

/-! ## The parts of DECODE -/

theorem emitFrame_keeps_hostSide {cfg : Config} {ops : List HostOp} (h : Header) (raw rem : List Byte) :
    Keeps (HostSide cfg ops) (emitFrame h raw rem) := by
  intro s hs
  rcases emitFrame_cases h raw rem s with ⟨_, he⟩ | ⟨_, he⟩ <;> rw [he] <;> exact hs

theorem acceptHeader_keeps_hostSide {cfg : Config} {ops : List HostOp} (h : Header) (rest : List Byte) :
    Keeps (HostSide cfg ops) (acceptHeader h rest) := by
  intro s hs
  rcases acceptHeader_cases h rest s with ⟨_, he⟩ | ⟨_, he⟩ <;> rw [he]
  · exact hs
  · exact emitFrame_keeps_hostSide h _ _ (s.headerTaken rest) hs

theorem takeHeader_keeps_hostSide {cfg : Config} {ops : List HostOp} (h : Header) :
    Keeps (HostSide cfg ops) (takeHeader h) := by
  intro s hs
  rcases takeHeader_cases h s with ⟨_, he⟩ | ⟨_, he⟩ <;> rw [he]
  · exact hs
  · exact acceptHeader_keeps_hostSide h s.inp s hs

theorem raise_keeps_hostSide {cfg : Config} {ops : List HostOp} (e : ErrorInfo) : Keeps (HostSide cfg ops) (raise e) :=
  fun _ hs => hs

theorem startFrame_keeps_hostSide {cfg : Config} {ops : List HostOp} : Keeps (HostSide cfg ops) startFrame := by
  intro s hs
  rcases startFrame_cases s with ⟨_, he⟩ | ⟨_, _, _, he⟩ | ⟨_, _, he⟩ | ⟨_, h, _, he⟩ <;> rw [he]
  · exact hs
  · exact hs
  · exact hs
  · exact acceptHeader_keeps_hostSide h _ s hs

theorem continuePayload_keeps_hostSide {cfg : Config} {ops : List HostOp} (p : PPF) :
    Keeps (HostSide cfg ops) (continuePayload p) := by
  intro s hs
  rcases continuePayload_cases p s with ⟨_, he⟩ | ⟨_, he⟩ <;> rw [he]
  · exact hs
  · exact emitFrame_keeps_hostSide _ _ _ s.ppfDestroyed hs

/-- The state R34 rules out: DECODE stops there. -/
theorem decodeIn_ppfAbsent {s : State} (h : s.st = .awaitPay) (hp : s.ppf = none) : decodeIn s = .fault .ppfAbsent := by
  unfold decodeIn; simp only [h, hp]

theorem decodeIn_keeps_hostSide {cfg : Config} {ops : List HostOp} : Keeps (HostSide cfg ops) decodeIn := by
  intro s hs
  cases hst : s.st with
  | idle => rw [decodeIn_header (.inl hst)]; exact startFrame_keeps_hostSide s hs
  | awaitHdr => rw [decodeIn_header (.inr hst)]; exact startFrame_keeps_hostSide s hs
  | awaitPay =>
    cases hp : s.ppf with
    | none => rw [decodeIn_ppfAbsent hst hp]; trivial
    | some p => rw [decodeIn_payload hst hp]; exact continuePayload_keeps_hostSide p s hs
  | error => rw [decodeIn_error hst]; exact hs

theorem decodeChunk_keeps_hostSide {cfg : Config} {ops : List HostOp} (chunk : List Byte) :
    Keeps (HostSide cfg ops) (decodeChunk chunk) := by
  intro s hs
  by_cases hst : s.st = .error
  · rw [decodeChunk_error hst]; exact hs
  · cases hlong : chunkTooLong s.cfg chunk with
    | true => rw [decodeChunk_tooLong hst hlong]; exact hs
    | false =>
      rw [decodeChunk_accepted hst ((chunkTooLong_false_iff s chunk).mp hlong)]
      exact decodeIn_keeps_hostSide { s with inp := chunk } hs

/-! ## Every instruction -/

/-- Every instruction is one of four kinds: a header row in either view, a row that raises an error, an encoder row, or a host
operation (R100). -/
theorem exec_kinds (i : Instr) (s : State) :
    (∃ bytes h, exec i s = deliver bytes (takeHeader h) s) ∨ (∃ bytes e, exec i s = deliver bytes (raise e) s) ∨
    (∃ b0 payload, exec i s = encodeWith b0 payload s) ∨ ∃ op, i = issue op := by
  by_cases hrow : headerRow i = true ∨ opcodeRow i = true
  · have hlegal_or_ill : (∃ fin op f, i = hdrInstr fin op f ∨ i = frameInstr fin op f) ∨
        (∃ b, i = .illRsv1 b ∨ i = .illRsv2 b ∨ i = .illRsv3 b) ∨ ∃ fin op mask hi lo, i = .illE64Hi fin op mask hi lo := by
      rcases hrow with hrow | hrow
      · exact (headerRow_cases i hrow).imp_left fun ⟨fin, op, f, hi⟩ => ⟨fin, op, f, .inl hi⟩
      · exact (opcodeRow_cases i hrow).imp_left fun ⟨fin, op, f, hi⟩ => ⟨fin, op, f, .inr hi⟩
    rcases hlegal_or_ill with ⟨fin, op, f, rfl | rfl⟩ | ⟨b, rfl | rfl | rfl⟩ | ⟨fin, op, mask, hi, lo, rfl⟩
    · exact .inl ⟨_, _, exec_hdrInstr fin op f s⟩
    · exact .inl ⟨_, _, exec_frameInstr fin op f s⟩
    · exact .inr (.inl ⟨_, _, rfl⟩)
    · exact .inr (.inl ⟨_, _, rfl⟩)
    · exact .inr (.inl ⟨_, _, rfl⟩)
    · exact .inr (.inl ⟨_, _, rfl⟩)
  · refine .inr (.inr ?_)
    cases i with
    | encTextFin p => exact .inl ⟨_, p, rfl⟩
    | encTextNonfin p => exact .inl ⟨_, p, rfl⟩
    | encBinFin p => exact .inl ⟨_, p, rfl⟩
    | encBinNonfin p => exact .inl ⟨_, p, rfl⟩
    | reset => exact .inr ⟨.reset, rfl⟩
    | feed c => exact .inr ⟨.feed c, rfl⟩
    | decode c => exact .inr ⟨.decode c, rfl⟩
    | qread => exact .inr ⟨.qread, rfl⟩
    | qclear => exact .inr ⟨.qclear, rfl⟩
    | drain => exact .inr ⟨.drain, rfl⟩
    | status => exact .inr ⟨.status, rfl⟩
    | unmask raw len key => exact .inr ⟨.unmask raw len key, rfl⟩
    | createFrame p op fin => exact .inr ⟨.createFrame p op fin, rfl⟩
    | _ => simp [headerRow, opcodeRow] at hrow

/-- A row of the byte stream keeps what its own effect keeps, since DECODE of its bytes keeps it elsewhere. -/
theorem deliver_keeps_hostSide {cfg : Config} {ops : List HostOp} (bytes : List Byte) {f : State → Out}
    (hf : Keeps (HostSide cfg ops) f) : Keeps (HostSide cfg ops) (deliver bytes f) := by
  intro s hs
  by_cases hst : s.st = .idle
  · rw [deliver_idle hst]; exact hf s hs
  · rw [deliver_elsewhere hst]; exact decodeIn_keeps_hostSide { s with inp := bytes ++ s.inp } hs

theorem exec_keeps_hostSide {cfg : Config} {ops : List HostOp} (i : Instr) : Keeps (HostSide cfg ops) (exec i) := by
  intro s hs
  rcases exec_kinds i s with ⟨bytes, h, he⟩ | ⟨bytes, e, he⟩ | ⟨b0, payload, he⟩ | ⟨op, rfl⟩
  · rw [he]; exact deliver_keeps_hostSide bytes (takeHeader_keeps_hostSide h) s hs
  · rw [he]; exact deliver_keeps_hostSide bytes (raise_keeps_hostSide e) s hs
  · rw [he]; exact (onlyReplies_encodeWith b0 payload s).ends fun _ => hs
  · exact keeps_issue decodeChunk_keeps_hostSide (fun _ hs => hs) (fun _ hs => hs) (fun _ _ hs => hs) op s hs

/-- Settles O48: every instruction keeps the configuration and the later operations the state has before it. -/
theorem configurationIsFixed : Obligations.ConfigurationIsFixed :=
  fun i s _ ht => (exec_keeps_hostSide i s ⟨rfl, rfl⟩).of_eq ht

end Sys2Proof.Machine
end

section
/-! PROOFS. What the host reads, compared in two states that may differ in `HB` and the PPF (R37, R184, R212). -/

namespace Sys2Proof.Machine

open Sys2Proof

/-- Two runs that both end in a state return the same result and leave the same `Q`. -/
def AnswerAlike (o o' : Out) : Prop := ∀ t t', o = .next t → o' = .next t' → t.result = t'.result ∧ t.q = t'.q

theorem answerAlike_next {t t' : State} (hr : t.result = t'.result) (hq : t.q = t'.q) : AnswerAlike (.next t) (.next t') := by
  intro u u' hu hu'
  cases hu; cases hu'
  exact ⟨hr, hq⟩

theorem OnlyReplies.answerAlike {o : State → Out} {s s' : State} (ho : OnlyReplies o s) (h : SameView s s') :
    AnswerAlike (o s) (o s') := by
  obtain ⟨r, hr⟩ | hr := ho <;> rw [hr s (.refl s), hr s' h]
  · exact answerAlike_next rfl h.q
  · intro _ _ ht; cases ht

/-- Settles O49: QCLEAR and DRAIN empty `Q`, and DRAIN returns what was in it; the other operations only deliver a result, which the
view of R37 fixes. -/
theorem pendingFrameIsNeverExposed : Obligations.PendingFrameIsNeverExposed := by
  intro s s' t t' raw payload len key op fin hst herr hq hcfg i hi
  have hview : SameView s s' := ⟨hst, herr, hq, hcfg⟩
  suffices h : AnswerAlike (exec i s) (exec i s') from h t t'
  simp only [List.mem_cons, List.not_mem_nil, or_false] at hi
  rcases hi with rfl | rfl | rfl | rfl | rfl | rfl | rfl | rfl | rfl | rfl
  · exact (onlyReplies_qread s).answerAlike hview
  · exact answerAlike_next rfl rfl
  · exact answerAlike_next (congrArg Result.frames hq) rfl
  · exact (onlyReplies_status s).answerAlike hview
  · exact (onlyReplies_unmask raw len key s).answerAlike hview
  · exact (onlyReplies_createFrame payload op fin s).answerAlike hview
  · exact (onlyReplies_encodeWith 0x81#8 payload s).answerAlike hview
  · exact (onlyReplies_encodeWith 0x01#8 payload s).answerAlike hview
  · exact (onlyReplies_encodeWith 0x82#8 payload s).answerAlike hview
  · exact (onlyReplies_encodeWith 0x02#8 payload s).answerAlike hview

end Sys2Proof.Machine
end

section
/-! PROOFS. What the bytes of a decoded row are to DECODE: the two readings of the parse view, by the decoder of R102 and by
ParseHeader of R112, run the same instruction. -/

namespace Sys2Proof.Machine

open Sys2Proof

/-- The rows a view of the decoder answers with, and the bytes each was read from: an RSV row, the E64HI row, or a legal header
(R92, R93, R100, R102). -/
theorem decodeWith_instr {row : Bool → Nibble → HdrForm → Instr} {S rest : List Byte} {i : Instr}
    (h : decodeWith row S = .instr i rest) :
    (∃ b, (rsv1Of b || rsv2Of b || rsv3Of b) = true ∧ S = b :: rest ∧ (i = .illRsv1 b ∨ i = .illRsv2 b ∨ i = .illRsv3 b)) ∨
    (∃ fin op mask hi lo, hi ≠ 0#32 ∧ i = .illE64Hi fin op mask hi lo ∧ S = encode i ++ rest) ∨
    ∃ fin op f, f.wf = true ∧ i = row fin op f ∧ S = headerBytes fin op f ++ rest := by
  cases S with
  | nil => cases h
  | cons b t =>
    rcases decodeWith_cons row b t with ⟨h1, hd⟩ | ⟨h1, h2, hd⟩ | ⟨h1, h2, h3, hd⟩ | ⟨h1, h2, h3, hlegal⟩
    · rw [hd] at h; cases h
      exact .inl ⟨b, by simp [h1], rfl, .inl rfl⟩
    · rw [hd] at h; cases h
      exact .inl ⟨b, by simp [h2], rfl, .inr (.inl rfl)⟩
    · rw [hd] at h; cases h
      exact .inl ⟨b, by simp [h3], rfl, .inr (.inr rfl)⟩
    · have hb := byte0_of_fields b h1 h2 h3
      rcases hlegal with ⟨_, hd⟩ | ⟨mask, hi, lo, r, hform, hd⟩ | ⟨f, r, hform, hd⟩ <;> rw [hd] at h <;> cases h
      · obtain ⟨hne, rfl⟩ := decodeForm_illegal hform
        exact .inr (.inl ⟨_, _, mask, hi, lo, hne, rfl, by simp [encode, hb]⟩)
      · obtain ⟨hwf, rfl⟩ := decodeForm_form hform
        exact .inr (.inr ⟨_, _, f, hwf, rfl, by simp [headerBytes, hb]⟩)

/-- The state moved past a header: at the frame boundary, `HB` emptied, the bytes after the header in `IN` (R51, R111). -/
def State.pastHeader (rest : List Byte) (s : State) : State := { s with st := .idle, hb := [], inp := rest }

/-- An error ParseHeader finds is raised (R111, R206). -/
theorem startFrame_error {s : State} {e : ErrorInfo} (hne : s.hb ++ s.inp ≠ [])
    (hp : parseHeader s.cfg (s.hb ++ s.inp) = .error e) : startFrame s = .next (s.raised e) := by
  simp only [startFrame, memRead_all, hne, if_false, hp, raise]

/-- A header ParseHeader completes is accepted with the bytes after it (R111). -/
theorem startFrame_header {s : State} {h : Header} (hne : s.hb ++ s.inp ≠ [])
    (hp : parseHeader s.cfg (s.hb ++ s.inp) = .header h) : startFrame s = acceptHeader h ((s.hb ++ s.inp).drop h.hl.toNat) s := by
  simp only [startFrame, memRead_all, hne, if_false, hp]

/-- StartFrame over the bytes of a well-formed header is the effect of that header at the frame boundary. -/
theorem startFrame_headerBytes {s : State} {fin : Bool} {op : Nibble} {f : HdrForm} {rest : List Byte} (hf : f.wf = true)
    (hview : s.hb ++ s.inp = headerBytes fin op f ++ rest) :
    startFrame s = takeHeader (formHeader fin op f) (s.pastHeader rest) := by
  have hne : s.hb ++ s.inp ≠ [] := by rw [hview]; simp [headerBytes]
  have hparse := parseHeader_headerBytes s.cfg fin op f hf rest
  rw [← hview] at hparse
  by_cases hcap : s.cfg.payloadCap < (formHeader fin op f).payloadLen.toNat
  · rw [if_pos hcap] at hparse
    rw [startFrame_error hne hparse]
    exact (if_pos hcap).symm
  · rw [if_neg hcap] at hparse
    have hrest : (s.hb ++ s.inp).drop (formHeader fin op f).hl.toNat = rest := by
      rw [hview, ← headerBytes_length]; exact List.drop_left
    rw [startFrame_header hne hparse, hrest]
    calc acceptHeader (formHeader fin op f) rest s
        = acceptHeader (formHeader fin op f) rest (s.pastHeader rest) := acceptHeader_reads rfl rfl rfl rfl rfl
      _ = takeHeader (formHeader fin op f) (s.pastHeader rest) := (if_neg hcap).symm

/-- StartFrame runs the row that a view of the decoder reads from the parse view, whichever way the view names a legal header. -/
theorem startFrame_runs_decoded {row : Bool → Nibble → HdrForm → Instr}
    (hrow : ∀ fin op f s, exec (row fin op f) s = deliver (headerBytes fin op f) (takeHeader (formHeader fin op f)) s)
    {s : State} {i : Instr} {rest : List Byte} (h : decodeWith row (s.hb ++ s.inp) = .instr i rest) :
    startFrame s = exec i (s.pastHeader rest) := by
  rcases decodeWith_instr h with ⟨b, hrsv, hview, hi⟩ | ⟨fin, op, mask, hi, lo, hne, rfl, hview⟩ | ⟨fin, op, f, hf, rfl, hview⟩
  · have hparse := parseHeader_rsv s.cfg b rest hrsv
    rw [← hview] at hparse
    rw [startFrame_error (by simp [hview]) hparse]
    rcases hi with rfl | rfl | rfl <;> rfl
  · have hparse := parseHeader_illE64Hi s.cfg fin op mask hi lo hne rest
    rw [← hview] at hparse
    rw [startFrame_error (by simp [hview, encode]) hparse]
    rfl
  · rw [startFrame_headerBytes hf hview, hrow]
    rfl

/-- Settles O38: DECODE at a header is StartFrame over the parse view, which runs the row that either view of the decoder reads. -/
theorem stepRunsTheDecodedInstruction : Obligations.StepRunsTheDecodedInstruction := by
  intro s chunk ops i rest hpending hst haccepts hdecoded
  have hlive : s.st ≠ .error := by rcases hst with hst | hst <;> simp [hst]
  have hstep : step s = startFrame { s with pending := ops, inp := chunk } := by
    calc step s
        = decodeChunk chunk { s with pending := ops } := step_of_pending_cons hpending
      _ = decodeIn { s with pending := ops, inp := chunk } := decodeChunk_accepted hlive haccepts
      _ = startFrame { s with pending := ops, inp := chunk } := decodeIn_header hst
  rw [hstep]
  rcases hdecoded with hview | hview
  · exact startFrame_runs_decoded exec_hdrInstr hview
  · exact startFrame_runs_decoded exec_frameInstr hview

end Sys2Proof.Machine
end

section
/-! PROOFS. The decoder and the encoder as inverses: the decoder's answer on the bytes of every row, and what an answer says of the
bytes it was read from (R90 to R93, R100, R102). -/

namespace Sys2Proof.Machine

open Sys2Proof

/-! ## The decoder's answer on a header whose RSV bits are zero -/

theorem decodeWith_byte0_form (row : Bool → Nibble → HdrForm → Instr) (fin : Bool) (op : Nibble) {t rest : List Byte}
    {f : HdrForm} (h : decodeForm t = .form f rest) : decodeWith row (byte0 fin op :: t) = .instr (row fin op f) rest := by
  simp [decodeWith, h]

theorem decodeWith_byte0_illegalHi (row : Bool → Nibble → HdrForm → Instr) (fin : Bool) (op : Nibble) {t rest : List Byte}
    {mask : Bool} {hi lo : BitVec 32} (h : decodeForm t = .illegalHi mask hi lo rest) :
    decodeWith row (byte0 fin op :: t) = .instr (.illE64Hi fin op mask hi lo) rest := by
  simp [decodeWith, h]

theorem decodeWith_byte0_needMore (row : Bool → Nibble → HdrForm → Instr) (fin : Bool) (op : Nibble) {t : List Byte}
    (h : decodeForm t = .needMore) : decodeWith row (byte0 fin op :: t) = .needMore := by
  simp [decodeWith, h]

/-- A well-formed header is named by its view's row, with whatever follows left over (R83, R84). -/
theorem decodeWith_headerBytes (row : Bool → Nibble → HdrForm → Instr) (fin : Bool) (op : Nibble) {f : HdrForm} (hf : f.wf = true)
    (rest : List Byte) : decodeWith row (headerBytes fin op f ++ rest) = .instr (row fin op f) rest :=
  decodeWith_byte0_form row fin op (decodeForm_formBytes f hf rest)

/-! ## The illegal rows -/

/-- A nonzero upper half is read with both halves (R93). -/
theorem decodeForm_illegalBytes (mask : Bool) {hi : BitVec 32} (hne : hi ≠ 0#32) (lo : BitVec 32) (t : List Byte) :
    decodeForm (byte1 mask 127#7 :: (bytes32 hi ++ bytes32 lo) ++ t) = .illegalHi mask hi lo t := by
  obtain ⟨a, b, c, d, hbytes, rfl⟩ := bytes32_eq hi
  obtain ⟨a', b', c', d', hbytes', rfl⟩ := bytes32_eq lo
  simp [decodeForm, hbytes, hbytes', hne]

theorem wf_illRsv1 (b : Byte) : (Instr.illRsv1 b).wf = rsv1Of b := (rsv1Of_eq_mask b).symm
theorem wf_illRsv2 (b : Byte) : (Instr.illRsv2 b).wf = (!rsv1Of b && rsv2Of b) := (rsv2Of_row b).symm
theorem wf_illRsv3 (b : Byte) : (Instr.illRsv3 b).wf = (!rsv1Of b && !rsv2Of b && rsv3Of b) := (rsv3Of_row b).symm

/-- A byte with an RSV bit is named by the one RSV row it is a well-formed encoding of (R92, notes/assumptions/6.md). -/
theorem decodeWith_rsv_iff_wf (row : Bool → Nibble → HdrForm → Instr) {i : Instr} {b : Byte} (t : List Byte)
    (hi : i = .illRsv1 b ∨ i = .illRsv2 b ∨ i = .illRsv3 b) :
    (rsv1Of b || rsv2Of b || rsv3Of b) = true ∧ decodeWith row (b :: t) = .instr i t ↔ i.wf = true := by
  rcases decodeWith_cons row b t with ⟨h1, hd⟩ | ⟨h1, h2, hd⟩ | ⟨h1, h2, h3, hd⟩ | ⟨h1, h2, h3, -⟩
  · rcases hi with rfl | rfl | rfl <;> simp [wf_illRsv1, wf_illRsv2, wf_illRsv3, h1, hd]
  · rcases hi with rfl | rfl | rfl <;> simp [wf_illRsv1, wf_illRsv2, wf_illRsv3, h1, h2, hd]
  · rcases hi with rfl | rfl | rfl <;> simp [wf_illRsv1, wf_illRsv2, wf_illRsv3, h1, h2, h3, hd]
  · rcases hi with rfl | rfl | rfl <;> simp [wf_illRsv1, wf_illRsv2, wf_illRsv3, h1, h2, h3]

/-! ## Round trips, for both views of a header -/

/-- The rows that stand in both views: the RSV rows and the E64HI row (R100). -/
def IllegalRow (i : Instr) : Prop :=
  (∃ b, i = .illRsv1 b ∨ i = .illRsv2 b ∨ i = .illRsv3 b) ∨ ∃ fin op mask hi lo, i = .illE64Hi fin op mask hi lo

theorem IllegalRow.in_both_views {i : Instr} (h : IllegalRow i) : headerRow i = true ∧ opcodeRow i = true := by
  rcases h with ⟨b, rfl | rfl | rfl⟩ | ⟨fin, op, mask, hi, lo, rfl⟩ <;> exact ⟨rfl, rfl⟩

/-- Decoding undoes encoding on every row of a view, its own and the illegal ones. -/
theorem decodeWith_encode {row : Bool → Nibble → HdrForm → Instr} (hwf : ∀ fin op f, (row fin op f).wf = f.wf)
    (hencode : ∀ fin op f, encode (row fin op f) = headerBytes fin op f) {i : Instr} (hi : i.wf = true)
    (hrow : (∃ fin op f, i = row fin op f) ∨ IllegalRow i) (rest : List Byte) :
    decodeWith row (encode i ++ rest) = .instr i rest := by
  rcases hrow with ⟨fin, op, f, rfl⟩ | ⟨b, hb⟩ | ⟨fin, op, mask, hi', lo, rfl⟩
  · rw [hencode]
    exact decodeWith_headerBytes row fin op (hwf fin op f ▸ hi) rest
  · have hbytes : encode i = [b] := by rcases hb with rfl | rfl | rfl <;> rfl
    rw [hbytes]
    exact ((decodeWith_rsv_iff_wf row rest hb).mpr hi).2
  · have hne : hi' ≠ 0#32 := of_decide_eq_true hi
    exact decodeWith_byte0_illegalHi row fin op (decodeForm_illegalBytes mask hne lo rest)

/-- What a view answers is a well-formed row, and the bytes are its encoding and then the rest. -/
theorem encode_of_decodeWith {row : Bool → Nibble → HdrForm → Instr} (hwf : ∀ fin op f, (row fin op f).wf = f.wf)
    (hencode : ∀ fin op f, encode (row fin op f) = headerBytes fin op f) {S rest : List Byte} {i : Instr}
    (h : decodeWith row S = .instr i rest) : i.wf = true ∧ S = encode i ++ rest := by
  rcases decodeWith_instr h with ⟨b, hrsv, rfl, hb⟩ | ⟨fin, op, mask, hi, lo, hne, rfl, hS⟩ | ⟨fin, op, f, hf, rfl, rfl⟩
  · exact ⟨(decodeWith_rsv_iff_wf row rest hb).mp ⟨hrsv, h⟩, by rcases hb with rfl | rfl | rfl <;> rfl⟩
  · exact ⟨decide_eq_true hne, hS⟩
  · exact ⟨(hwf fin op f).trans hf, by rw [hencode]⟩

/-- A view answers with its own rows and the illegal ones. -/
theorem row_of_decodeWith {row : Bool → Nibble → HdrForm → Instr} {S rest : List Byte} {i : Instr}
    (h : decodeWith row S = .instr i rest) : (∃ fin op f, i = row fin op f) ∨ IllegalRow i := by
  rcases decodeWith_instr h with ⟨b, -, -, hb⟩ | ⟨fin, op, mask, hi, lo, -, hi', -⟩ | ⟨fin, op, f, -, hi, -⟩
  · exact .inr (.inl ⟨b, hb⟩)
  · exact .inr (.inr ⟨fin, op, mask, hi, lo, hi'⟩)
  · exact .inl ⟨fin, op, f, hi⟩

theorem headerRow_of_decodeHeader {S rest : List Byte} {i : Instr} (h : decodeHeader S = .instr i rest) : headerRow i = true := by
  rcases row_of_decodeWith h with ⟨fin, op, f, rfl⟩ | hill
  · exact headerRow_hdrInstr fin op f
  · exact hill.in_both_views.1

theorem opcodeRow_of_decodeOpcode {S rest : List Byte} {i : Instr} (h : decodeOpcode S = .instr i rest) : opcodeRow i = true := by
  rcases row_of_decodeWith h with ⟨fin, op, f, rfl⟩ | hill
  · exact opcodeRow_frameInstr fin op f
  · exact hill.in_both_views.2

/-- Settles O2: the rows of the format view are the six format rows and the illegal ones, and the decoder undoes the encoder on each. -/
theorem formatRowsRoundTrip : Obligations.FormatRowsRoundTrip := fun i rest hwf hrow =>
  decodeWith_encode wf_hdrInstr encode_hdrInstr hwf (headerRow_cases i hrow) rest

/-- Settles O3: the same for the sixteen opcode rows; the encoder's table has one row for each of its four values of byte 0. -/
theorem opcodeRowsRoundTrip : Obligations.OpcodeRowsRoundTrip := by
  refine ⟨fun i rest hwf hrow => decodeWith_encode wf_frameInstr encode_frameInstr hwf (opcodeRow_cases i hrow) rest, ?_⟩
  intro payload i hi
  simp only [List.mem_cons, List.not_mem_nil, or_false] at hi
  rcases hi with rfl | rfl | rfl | rfl <;> rfl

/-- Settles O4: an answer of either view is a well-formed row of that view, and its bytes stand at the front. -/
theorem decodedBytesAreTheEncoding : Obligations.DecodedBytesAreTheEncoding := by
  intro S i rest
  refine ⟨fun h => ?_, fun h => ?_⟩
  · obtain ⟨hwf, hS⟩ := encode_of_decodeWith wf_hdrInstr encode_hdrInstr h
    exact ⟨hwf, headerRow_of_decodeHeader h, hS⟩
  · obtain ⟨hwf, hS⟩ := encode_of_decodeWith wf_frameInstr encode_frameInstr h
    exact ⟨hwf, opcodeRow_of_decodeOpcode h, hS⟩

/-! ## Totality -/

/-- The bytes after byte 0 decide, unless they end inside a header: at most 13 bytes, fewer than byte 1 calls for (R89, R102). -/
theorem decodeForm_needMore_length {b0 : Byte} {t : List Byte} (hrsv : (rsv1Of b0 || rsv2Of b0 || rsv3Of b0) = false)
    (h : decodeForm t = .needMore) : (b0 :: t).length ≤ 13 ∧ (b0 :: t).length < calledLength (b0 :: t) := by
  -- no length read is over the default capacity, which every 32-bit length fits
  rcases parseHeader_needMore {} b0 t hrsv h with ⟨-, hshort, hcalled⟩ | ⟨len, hcap, -⟩
  · exact ⟨by simpa using hshort, hcalled⟩
  · have hfits : len.toNat ≤ 4294967295 := by have := len.isLt; omega
    exact absurd hcap (Nat.not_lt.mpr hfits)

theorem decodeWith_eq_nothing_iff (row : Bool → Nibble → HdrForm → Instr) (S : List Byte) : decodeWith row S = .nothing ↔ S = [] := by
  cases S with
  | nil => simp [decodeWith]
  | cons b t =>
    rcases decodeWith_cons row b t with ⟨-, hd⟩ | ⟨-, -, hd⟩ | ⟨-, -, -, hd⟩ | ⟨-, -, -, ⟨-, hd⟩ | ⟨_, _, _, _, -, hd⟩ | ⟨_, _, -, hd⟩⟩ <;>
      simp [hd]

theorem decodeWith_needMore_length {row : Bool → Nibble → HdrForm → Instr} {S : List Byte} (h : decodeWith row S = .needMore) :
    S.length ≤ 13 ∧ S.length < calledLength S := by
  cases S with
  | nil => cases h
  | cons b t =>
    rcases decodeWith_cons row b t with ⟨-, hd⟩ | ⟨-, -, hd⟩ | ⟨-, -, -, hd⟩ |
      ⟨h1, h2, h3, ⟨hform, -⟩ | ⟨_, _, _, _, -, hd⟩ | ⟨_, _, -, hd⟩⟩
    case inr.inr.inr.inl => exact decodeForm_needMore_length (by simp [h1, h2, h3]) hform
    all_goals rw [hd] at h; cases h

/-- Settles O5: with 14 bytes there is something, and no more can be needed, so an instruction is all that is left to answer. -/
theorem decoderIsTotal : Obligations.DecoderIsTotal := by
  intro S
  refine ⟨decodeWith_eq_nothing_iff hdrInstr S, decodeWith_needMore_length, fun hlen => ?_⟩
  cases hd : decodeHeader S with
  | nothing =>
    obtain rfl := (decodeWith_eq_nothing_iff hdrInstr S).mp hd
    simp at hlen
  | needMore =>
    have := (decodeWith_needMore_length hd).1
    omega
  | instr i rest => exact ⟨i, rest, rfl⟩

/-! ## The byte-0 rows of the opcode table -/

/-- The sixteen opcodes, in the order of the opcode table (R90). -/
def opcodes : List Nibble := (List.range 16).map (BitVec.ofNat 4)

theorem rsv_false_of_mask {b : Byte} (h : b &&& 0x70#8 = 0#8) : (rsv1Of b || rsv2Of b || rsv3Of b) = false := by
  simp [anyRsv_eq_mask, h]

/-- With the RSV bits zero, a byte is the byte 0 of a legal header (R84, R92). -/
theorem byte0_of_mask {b : Byte} (h : b &&& 0x70#8 = 0#8) : byte0 (finOf b) (opcodeOf b) = b := by
  have hrsv := rsv_false_of_mask h
  simp only [Bool.or_eq_false_iff] at hrsv
  obtain ⟨⟨h1, h2⟩, h3⟩ := hrsv
  exact byte0_of_fields b h1 h2 h3

/-- The match of an opcode row under its mask `0x7F` (R90): the opcode with the RSV bits zero. -/
theorem byte0_of_opcode_match {b : Byte} {op : Nibble} (h : b &&& 0x7F#8 = op.setWidth 8) : byte0 (finOf b) op = b := by
  have hfields (b : Byte) : byte0 (finOf b) 0#4 ||| (b &&& 0x7F#8) = b := by revert b; decide
  have hbyte0 (fin : Bool) (op : Nibble) : byte0 fin 0#4 ||| op.setWidth 8 = byte0 fin op := by revert fin op; decide
  rw [← hbyte0, ← h, hfields]

/-- Settles O6: the masks say which RSV row a byte is well-formed for, and an opcode's match leaves FIN free. -/
theorem byteZeroRowsMatchTheTable : Obligations.ByteZeroRowsMatchTheTable := by
  intro b
  refine ⟨fun h => ?_, fun h1 h2 => ?_, fun h12 h3 => ?_, fun h => ?_, ?_⟩
  · exact ((decodeWith_rsv_iff_wf hdrInstr [] (.inl rfl)).mpr (decide_eq_true h)).2
  · have h : b &&& 0x60#8 = 0x20#8 := by
      calc b &&& 0x60#8 = (b &&& 0x40#8) ||| (b &&& 0x20#8) := by rw [← BitVec.and_or_distrib_left]; rfl
        _ = 0x20#8 := by rw [h1, h2]; rfl
    exact ((decodeWith_rsv_iff_wf hdrInstr [] (.inr (.inl rfl))).mpr (decide_eq_true h)).2
  · have h : b &&& 0x70#8 = 0x10#8 := by
      calc b &&& 0x70#8 = (b &&& 0x60#8) ||| (b &&& 0x10#8) := by rw [← BitVec.and_or_distrib_left]; rfl
        _ = 0x10#8 := by rw [h12, h3]; rfl
    exact ((decodeWith_rsv_iff_wf hdrInstr [] (.inr (.inr rfl))).mpr (decide_eq_true h)).2
  · rw [← byte0_of_mask h]
    exact decodeWith_byte0_needMore hdrInstr _ _ rfl
  · intro p hp hmatch
    obtain ⟨op, -, rfl⟩ := List.mem_map.mp
      (show p ∈ opcodes.map fun op => (op.setWidth 8, frameInstr (b.getLsbD 7) op (.s7u 0#7)) from hp)
    calc decodeOpcode [b, 0#8]
        = decodeOpcode (headerBytes (finOf b) op (.s7u 0#7) ++ []) := by rw [headerBytes, byte0_of_opcode_match hmatch]; rfl
      _ = .instr (frameInstr (b.getLsbD 7) op (.s7u 0#7)) [] := decodeWith_headerBytes frameInstr (finOf b) op rfl []

/-! ## Words written out -/

/-- Settles O1: the decoder run on the seven words, each written out from its layout. -/
theorem writtenWordsDecode : Obligations.WrittenWordsDecode := by
  refine ⟨?_, ?_, ?_, ?_, ?_, ?_, ?_⟩ <;> decide

end Sys2Proof.Machine
end

section
/-! PROOFS. What a header answer of ParseHeader says, step by step (R85 to R89, R112), and that nothing but the RSV bits and the upper
length half makes a header illegal (R96). -/

namespace Sys2Proof.Machine

open Sys2Proof

theorem len7Of_toNat (b : Byte) : (len7Of b).toNat = b.toNat % 128 := BitVec.toNat_setWidth 7 b

theorem opcodeOf_toNat (b : Byte) : (opcodeOf b).toNat = b.toNat % 16 := BitVec.toNat_setWidth 4 b

/-! ## The steps that answered -/

/-- The steps a header answer has passed: byte 0, byte 1, the length, the capacity, the key (R112). -/
theorem parseHeader_header_steps {cfg : Config} {S : List Byte} {h : Header} (hp : parseHeader cfg S = .header h) :
    byteAt S 0 &&& 0x70#8 = 0#8 ∧ 2 ≤ S.length ∧
    ∃ len off, lengthField S (len7Of (byteAt S 1)) = .known len off ∧ len.toNat ≤ cfg.payloadCap ∧
      keyField S (byteAt S 0) (maskOf (byteAt S 1)) len off = .header h := by
  unfold parseHeader at hp
  simp only [anyRsv_eq_mask, decide_eq_true_eq] at hp
  split_ifs at hp with hrsv hlen
  cases hl : lengthField S (len7Of (byteAt S 1)) with
  | incomplete => simp only [hl] at hp; cases hp
  | error e => simp only [hl] at hp; cases hp
  | known len off =>
    simp only [hl] at hp
    split_ifs at hp with hcap
    exact ⟨not_not.mp hrsv, by omega, len, off, rfl, by omega, hp⟩

/-- A length that is known, by LEN7: the 7 bits themselves (R85), the big-endian 16 bits (R86), or the second of two big-endian 32-bit
halves, the first being zero (R87). `off` is the offset of the first byte after it. -/
theorem lengthField_known {S : List Byte} {l : BitVec 7} {len : BitVec 32} {off : Nat} (h : lengthField S l = .known len off) :
    (l.toNat ≤ 125 ∧ off = 2 ∧ len.toNat = l.toNat) ∨
    (l.toNat = 126 ∧ off = 4 ∧ 4 ≤ S.length ∧ len.toNat = (byteAt S 2).toNat * 256 + (byteAt S 3).toNat) ∨
    (l.toNat = 127 ∧ off = 10 ∧ 10 ≤ S.length ∧
      ((byteAt S 2).toNat = 0 ∧ (byteAt S 3).toNat = 0 ∧ (byteAt S 4).toNat = 0 ∧ (byteAt S 5).toNat = 0) ∧
      len.toNat = (byteAt S 6).toNat * 2 ^ 24 + (byteAt S 7).toNat * 2 ^ 16 + (byteAt S 8).toNat * 2 ^ 8 + (byteAt S 9).toNat) := by
  unfold lengthField at h
  simp only [ne_eq, ite_not] at h
  split_ifs at h with h126 hshort h127 hshort hhi
  · cases h
    have hle := (be16 (byteAt S 2) (byteAt S 3)).isLt
    refine .inr (.inl ⟨by rw [h126]; rfl, rfl, by omega, ?_⟩)
    rw [BitVec.toNat_setWidth, Nat.mod_eq_of_lt (by omega), be16_toNat]
  · cases h
    have hzero := congrArg BitVec.toNat hhi
    rw [be32_toNat, BitVec.toNat_ofNat] at hzero
    exact .inr (.inr ⟨by rw [h127]; rfl, rfl, by omega, by omega, be32_toNat _ _ _ _⟩)
  · cases h
    have hle := s7_le h126 h127
    refine .inl ⟨hle, rfl, ?_⟩
    rw [BitVec.toNat_setWidth, Nat.mod_eq_of_lt (by omega)]

/-- The key verbatim or all zero (R88), and the header length: past the length field, and past the key if there is one (R89). -/
theorem keyField_header {S : List Byte} {b0 : Byte} {mask : Bool} {len : BitVec 32} {off : Nat} {h : Header}
    (hk : keyField S b0 mask len off = .header h) (hoff : off ≤ S.length) :
    off + (if mask then 4 else 0) ≤ S.length ∧
    h = ⟨finOf b0, rsv1Of b0, rsv2Of b0, rsv3Of b0, opcodeOf b0, mask, len,
      if mask then ⟨byteAt S off, byteAt S (off + 1), byteAt S (off + 2), byteAt S (off + 3)⟩ else zeroKey,
      BitVec.ofNat 4 (off + if mask then 4 else 0)⟩ := by
  unfold keyField at hk
  cases mask with
  | false => cases hk; exact ⟨hoff, rfl⟩
  | true =>
    simp only [if_true] at hk
    split_ifs at hk with hshort
    cases hk
    exact ⟨by simp only [if_true]; omega, rfl⟩

/-- Settles O7: the steps that answered fix the fields, LEN7 deciding where the length ends. -/
theorem parsedHeaderFields : Obligations.ParsedHeaderFields := by
  intro cfg S h _ hp at' b0 b1 len7 ext o
  obtain ⟨hmask, hlen, len, off, hl, hcap, hk⟩ := parseHeader_header_steps hp
  have hrsv := rsv_false_of_mask hmask
  simp only [Bool.or_eq_false_iff] at hrsv
  obtain ⟨⟨h1, h2⟩, h3⟩ := hrsv
  have hlength := lengthField_known hl
  rw [show (len7Of (byteAt S 1)).toNat = len7 from len7Of_toNat b1] at hlength
  -- the length field ends at `2 + EXT`, where the key starts
  have hoff : off = o ∧ off ≤ S.length ∧ off ≤ 10 := by
    rcases hlength with ⟨h, rfl, -⟩ | ⟨h, rfl, hS, -⟩ | ⟨h, rfl, hS, -⟩
    · have hext : ext = 0 := by simp only [ext]; rw [if_neg (by omega), if_neg (by omega)]
      omega
    · have hext : ext = 2 := if_pos h
      omega
    · have hext : ext = 8 := by simp only [ext, h]; rfl
      omega
  obtain ⟨ho, hoS, hle⟩ := hoff
  obtain ⟨hend, rfl⟩ := keyField_header hk hoS
  have hhl : (BitVec.ofNat 4 (off + if b1.getLsbD 7 then 4 else 0)).toNat = off + if b1.getLsbD 7 then 4 else 0 := by
    rw [BitVec.toNat_ofNat, Nat.mod_eq_of_lt]
    split_ifs <;> omega
  refine ⟨hmask, rfl, h1, h2, h3, opcodeOf_toNat b0, rfl, fun h => ?_, fun h => ?_, fun h => ?_, ?_, ?_, ?_, hcap⟩
  · change len.toNat = len7
    omega
  · change len.toNat = (byteAt S 2).toNat * 256 + (byteAt S 3).toNat
    omega
  · rcases hlength with ⟨h', -⟩ | ⟨h', -⟩ | ⟨-, -, -, ⟨hz2, hz3, hz4, hz5⟩, hlo⟩
    · omega
    · omega
    · exact ⟨hz2, hz3, hz4, hz5, hlo⟩
  · rw [← ho]; rfl
  · rw [← ho]; exact hhl
  · exact hhl.trans_le hend

/-- Settles O9: the decoder does not wait, since the called-for bytes are there, and the upper half is not illegal; so it reads a
format, whose length fits the capacity. -/
theorem everythingElseIsALegalHeader : Obligations.EverythingElseIsALegalHeader := by
  intro cfg S hcap hlen hcalled hmask hupper
  match S, hlen with
  | b0 :: b1 :: t, _ =>
    replace hmask : b0 &&& 0x70#8 = 0#8 := hmask
    replace hupper : b1.toNat % 128 = 127 → ∀ i, 2 ≤ i → i ≤ 5 → (b0 :: b1 :: t).getD i 0#8 = 0#8 := hupper
    cases hd : decodeForm (b1 :: t) with
    | needMore =>
      have := (decodeForm_needMore_length (rsv_false_of_mask hmask) hd).2
      omega
    | illegalHi mask hi lo rest =>
      obtain ⟨hne, hS⟩ := decodeForm_illegal hd
      obtain ⟨a, b, c, d, hbytes, rfl⟩ := bytes32_eq hi
      rw [hbytes] at hS
      obtain ⟨rfl, rfl⟩ := List.cons.inj hS
      have hzero := hupper (by rw [← len7Of_toNat, len7Of_byte1]; rfl)
      obtain rfl : a = 0#8 := hzero 2 (by omega) (by omega)
      obtain rfl : b = 0#8 := hzero 3 (by omega) (by omega)
      obtain rfl : c = 0#8 := hzero 4 (by omega) (by omega)
      obtain rfl : d = 0#8 := hzero 5 (by omega) (by omega)
      exact absurd be32_zero hne
    | form f rest =>
      obtain ⟨hf, hS⟩ := decodeForm_form hd
      have hparse := parseHeader_headerBytes cfg (finOf b0) (opcodeOf b0) f hf rest
      have hbytes : headerBytes (finOf b0) (opcodeOf b0) f ++ rest = b0 :: b1 :: t := by
        rw [headerBytes, byte0_of_mask hmask, List.cons_append, ← hS]
      have hfits := (formHeader (finOf b0) (opcodeOf b0) f).payloadLen.isLt
      rw [hbytes, if_neg (by omega)] at hparse
      exact ⟨_, hparse⟩

end Sys2Proof.Machine
end

section
/-! PROOFS. The rows of the byte stream at a frame boundary: the Frame a complete one emits, in either view, and the error an illegal
one raises (R91, R114, R116, R206). -/

namespace Sys2Proof.Machine

open Sys2Proof

/-! ## The format rows -/

/-- The state after a complete frame: the Frame appended, `n` payload bytes consumed and the rest returned (R114, R116). -/
def State.emitted (f : Frame) (n : Nat) (s : State) : State :=
  { s with hb := [], inp := [], result := .remainder (s.inp.drop n), q := s.q ++ [f] }

/-- At a frame boundary a format row is its header taken. -/
theorem exec_hdrInstr_idle {s : State} (hs : s.st = .idle) (fin : Bool) (op : Nibble) (f : HdrForm) :
    exec (hdrInstr fin op f) s = takeHeader (formHeader fin op f) s := by
  rw [exec_hdrInstr, deliver_idle hs]

section
variable {s : State} {f : HdrForm} {len : BitVec 32} {n : Nat} (hs : s.st = .idle) (hr : Room s) (fin : Bool) (op : Nibble)
  (hlen : (formHeader fin op f).payloadLen = len) (hn : len.toNat = n) (hc : n ≤ s.cfg.payloadCap) (hl : n ≤ s.inp.length)
include hs hr hlen hn hc hl

/-- A complete frame is emitted with the Frame of its header (R116). -/
theorem exec_hdrInstr_emits :
    exec (hdrInstr fin op f) s = .next (s.emitted (frameOf (formHeader fin op f) (s.inp.take n)) n) := by
  subst hlen hn
  rw [exec_hdrInstr_idle hs, takeHeader_emits hs hr hc hl]
  rfl

/-- With MASK = 0 the payload is delivered as it stands. -/
theorem exec_hdrInstr_emits_plain (hm : (formHeader fin op f).mask = false) :
    exec (hdrInstr fin op f) s = .next (s.emitted ⟨fin, false, false, false, op, false, len, s.inp.take n,
      BitVec.ofNat 33 ((formHeader fin op f).hl.toNat + n)⟩ n) := by
  rw [exec_hdrInstr_emits hs hr fin op hlen hn hc hl, frameOf_plain _ _ hm, formHeader_fin, formHeader_opcode, hlen, hn]

/-- With MASK = 1 it is delivered unmasked (R150, R156). -/
theorem exec_hdrInstr_emits_masked (hm : (formHeader fin op f).mask = true) :
    ∃ payload, IsUnmasked (formHeader fin op f).key s.inp n payload ∧
      exec (hdrInstr fin op f) s = .next (s.emitted ⟨fin, false, false, false, op, true, len, payload,
        BitVec.ofNat 33 ((formHeader fin op f).hl.toNat + n)⟩ n) := by
  refine ⟨_, unmaskBytes_isUnmasked _ s.inp n hl, ?_⟩
  have hframe := frameOf_masked (formHeader fin op f) s.inp hm
  rw [formHeader_fin, formHeader_opcode, hlen, hn] at hframe
  rw [exec_hdrInstr_emits hs hr fin op hlen hn hc hl, hframe]

end

/-- A length field of at most 32 bits is the payload length, zero-extended (R85, R86). -/
theorem payloadLen_of_field {w : Nat} (hw : w ≤ 32) (l : BitVec w) :
    l.setWidth 32 = BitVec.ofNat 32 l.toNat ∧ (BitVec.ofNat 32 l.toNat).toNat = l.toNat := by
  refine ⟨(BitVec.ofNat_toNat 32 l).symm, ?_⟩
  rw [BitVec.toNat_ofNat, Nat.mod_eq_of_lt (l.isLt.trans_le (Nat.pow_le_pow_right (by omega) hw))]

/-- Settles O10: the six formats, each with its mask bit and the width of its length field. -/
theorem formatRowsEmitTheirFrame : Obligations.FormatRowsEmitTheirFrame := by
  intro s fin op key hs hr
  refine ⟨fun l _ hc hl => ?_, fun l _ hc hl => ?_, fun l hc hl => ?_, fun l hc hl => ?_, fun l hc hl => ?_, fun l hc hl => ?_⟩
  · obtain ⟨hlen, hn⟩ := payloadLen_of_field (by omega) l
    exact exec_hdrInstr_emits_plain (f := .s7u l) hs hr fin op hlen hn hc hl rfl
  · obtain ⟨hlen, hn⟩ := payloadLen_of_field (by omega) l
    exact exec_hdrInstr_emits_masked (f := .s7m l key) hs hr fin op hlen hn hc hl rfl
  · obtain ⟨hlen, hn⟩ := payloadLen_of_field (by omega) l
    exact exec_hdrInstr_emits_plain (f := .e16u l) hs hr fin op hlen hn hc hl rfl
  · obtain ⟨hlen, hn⟩ := payloadLen_of_field (by omega) l
    exact exec_hdrInstr_emits_masked (f := .e16m l key) hs hr fin op hlen hn hc hl rfl
  · exact exec_hdrInstr_emits_plain (f := .e64u l) hs hr fin op rfl rfl hc hl rfl
  · exact exec_hdrInstr_emits_masked (f := .e64m l key) hs hr fin op rfl rfl hc hl rfl

/-! ## The opcode rows -/

/-- Settles O13: every opcode row, like the format row beside it, delivers the bytes of its header and takes that header. -/
theorem opcodeRowsTakeTheFormatPath : Obligations.OpcodeRowsTakeTheFormatPath := by
  intro s fin f p hp
  obtain ⟨op, -, rfl⟩ := List.mem_map.mp (show p ∈ opcodes.map fun op => (frameInstr fin op f, op) from hp)
  exact (exec_frameInstr fin op f s).trans (exec_hdrInstr fin op f s).symm

/-- Settles O14: by O13 an opcode row is the format row with its opcode, which emits its Frame. -/
theorem opcodeRowsEmitTheirFrame : Obligations.OpcodeRowsEmitTheirFrame := by
  intro s fin f hs hr _ p hp h hc hl
  rw [opcodeRowsTakeTheFormatPath s fin f p hp]
  cases hm : h.mask with
  | false =>
    exact ⟨_, nofun, fun _ => rfl, exec_hdrInstr_emits_plain hs hr fin p.2 rfl rfl hc hl hm⟩
  | true =>
    obtain ⟨payload, hpayload, hemits⟩ := exec_hdrInstr_emits_masked hs hr fin p.2 rfl rfl hc hl hm
    exact ⟨payload, fun _ => hpayload, nofun, hemits⟩

/-! ## The illegal rows -/

/-- Settles O15: at a frame boundary an illegal row has its own effect, which raises its error. -/
theorem illegalRowsRaise : Obligations.IllegalRowsRaise := by
  intro s hs
  refine ⟨fun b i hi => ?_, fun fin op mask hi lo => deliver_idle hs _ _⟩
  simp only [List.mem_cons, List.not_mem_nil, or_false] at hi
  rcases hi with rfl | rfl | rfl <;> exact deliver_idle hs _ _

end Sys2Proof.Machine
end

section
/-! PROOFS. A table word as the operand of the next DECODE: the bytes are those of the row the table decoder reads, and the step runs
that row (R51, R100). -/

namespace Sys2Proof.Machine

open Sys2Proof

theorem wordsToBytes_length (n w : Nat) : (wordsToBytes n w).length = 2 * n := by
  induction n generalizing w with
  | zero => rfl
  | succ n ih => simp only [wordsToBytes, List.length_cons, ih]; omega

/-- A table word is padded to the longest header (R89, notes/assumptions/7.md). -/
theorem tableBytes_length (nbits w : Nat) : (tableBytes nbits w).length = 14 := by
  unfold tableBytes
  split_ifs
  · simp
  · exact wordsToBytes_length 7 _

/-- `CHUNK_MAX` looks at the operand's length only (R110). -/
theorem Accepts.of_length_eq {s s' : State} {a b : List Byte} (h : Accepts s a) (hcfg : s'.cfg = s.cfg) (hlen : b.length = a.length) :
    Accepts s' b := by
  intro m hm
  rw [hlen]
  exact h m (hcfg ▸ hm)

/-- The table decoder answers with what one of the two views reads from the word's bytes. -/
theorem decodeTableWord_some {nbits w : Nat} {i : Instr} (h : decodeTableWord nbits w = some i) :
    ∃ rest, decodeHeader (tableBytes nbits w) = .instr i rest ∨ decodeOpcode (tableBytes nbits w) = .instr i rest := by
  unfold decodeTableWord at h
  split at h
  · next rest hview =>
    cases h
    refine ⟨rest, ?_⟩
    split_ifs at hview
    · exact .inr hview
    · exact .inl hview
  · cases h
  · cases h

/-- Settles O40: by O4 the word's bytes are the encoding of the row read and a rest, and by O38 the DECODE of them runs the row. -/
theorem fetchedTableWordRuns : Obligations.FetchedTableWordRuns := by
  intro s nbits w i haccepts hword
  obtain ⟨rest, hview⟩ := decodeTableWord_some hword
  have hbytes : tableBytes nbits w = encode i ++ rest := by
    obtain ⟨hheader, hopcode⟩ := decodedBytesAreTheEncoding (tableBytes nbits w) i rest
    rcases hview with hview | hview
    · exact (hheader hview).2.2
    · exact (hopcode hview).2.2
  refine ⟨rest, hbytes, ?_⟩
  have hfits : Accepts (s.withFetchWord nbits w) (tableBytes nbits w) :=
    haccepts.of_length_eq rfl (tableBytes_length nbits w)
  exact stepRunsTheDecodedInstruction (s.withFetchWord nbits w) _ s.pending i rest rfl (.inl rfl) hfits hview

end Sys2Proof.Machine
end

section
/-! PROOFS. The steps of ParseHeader in the positions of the bytes they read, and what each waits for (R86, R87, R88, R112). -/

namespace Sys2Proof.Machine

open Sys2Proof

/-- An error the length field raises is ParseHeader's answer, once byte 0 has passed (R87, R112). -/
theorem parseHeader_of_lengthField_error {cfg : Config} {S : List Byte} {e : ErrorInfo} (hmask : byteAt S 0 &&& 0x70#8 = 0#8)
    (hlen : 2 ≤ S.length) (hl : lengthField S (len7Of (byteAt S 1)) = .error e) : parseHeader cfg S = .error e := by
  simp only [parseHeader, rsv_false_of_mask hmask, Nat.not_lt.mpr hlen, hl, if_false, Bool.false_eq_true]

/-- While bytes of the length field are missing, so is the answer (R112). -/
theorem parseHeader_of_lengthField_incomplete {cfg : Config} {S : List Byte} (hmask : byteAt S 0 &&& 0x70#8 = 0#8)
    (hlen : 2 ≤ S.length) (hl : lengthField S (len7Of (byteAt S 1)) = .incomplete) : parseHeader cfg S = .incomplete := by
  simp only [parseHeader, rsv_false_of_mask hmask, Nat.not_lt.mpr hlen, hl, if_false, Bool.false_eq_true]

/-- A length within the capacity leaves the answer to the key (R112). -/
theorem parseHeader_of_lengthField_known {cfg : Config} {S : List Byte} {len : BitVec 32} {off : Nat}
    (hmask : byteAt S 0 &&& 0x70#8 = 0#8) (hlen : 2 ≤ S.length) (hl : lengthField S (len7Of (byteAt S 1)) = .known len off)
    (hcap : len.toNat ≤ cfg.payloadCap) :
    parseHeader cfg S = keyField S (byteAt S 0) (maskOf (byteAt S 1)) len off := by
  simp only [parseHeader, rsv_false_of_mask hmask, Nat.not_lt.mpr hlen, Nat.not_lt.mpr hcap, hl, if_false, Bool.false_eq_true]

theorem len7Of_eq_iff (b : Byte) (l : BitVec 7) : len7Of b = l ↔ b.toNat % 128 = l.toNat := by
  rw [← len7Of_toNat, BitVec.toNat_inj]

/-- A 16-bit length whose two bytes are present (R86). -/
theorem lengthField_16 {S : List Byte} (h : 4 ≤ S.length) :
    lengthField S 126#7 = .known ((be16 (byteAt S 2) (byteAt S 3)).setWidth 32) 4 := by
  simp only [lengthField, Nat.not_lt.mpr h, if_true, if_false]

/-- A 64-bit length whose eight bytes are present: its upper half decides (R87). -/
theorem lengthField_64 {S : List Byte} (h : 10 ≤ S.length) :
    lengthField S 127#7 =
      if be32 (byteAt S 2) (byteAt S 3) (byteAt S 4) (byteAt S 5) ≠ 0#32 then
        .error (.unsupportedLength (be32 (byteAt S 2) (byteAt S 3) (byteAt S 4) (byteAt S 5))
          (be32 (byteAt S 6) (byteAt S 7) (byteAt S 8) (byteAt S 9)))
      else .known (be32 (byteAt S 6) (byteAt S 7) (byteAt S 8) (byteAt S 9)) 10 := by
  simp only [lengthField, show (127#7 = 126#7) = False by decide, Nat.not_lt.mpr h, if_true, if_false]

/-- A masked header waits for its four key bytes (R88, R112). -/
theorem parseHeader_waits_for_key {cfg : Config} {S : List Byte} {len : BitVec 32} {off : Nat}
    (hmask : byteAt S 0 &&& 0x70#8 = 0#8) (hlen : 2 ≤ S.length) (hm : (byteAt S 1).getLsbD 7 = true)
    (hl : lengthField S (len7Of (byteAt S 1)) = .known len off) (hcap : len.toNat ≤ cfg.payloadCap) (hshort : S.length < off + 4) :
    parseHeader cfg S = .incomplete := by
  rw [parseHeader_of_lengthField_known hmask hlen hl hcap, show maskOf (byteAt S 1) = true from hm, keyField_short hshort]

/-- Settles O8: byte 1, the extended length and the key, each while it is missing. -/
theorem parseHeaderWaitsForItsBytes : Obligations.ParseHeaderWaitsForItsBytes := by
  intro cfg S _ hmask at' len7
  have hlen7 (l : BitVec 7) : len7 = l.toNat → len7Of (byteAt S 1) = l := (len7Of_eq_iff (byteAt S 1) l).mpr
  refine ⟨fun hlen => ?_, fun hlen h126 hshort => ?_, fun hlen h127 hshort => ?_, fun hm =>
    ⟨fun hlen hs7 hcap hshort => ?_, fun hlen h126 hcap hshort => ?_, fun hlen h127 hz2 hz3 hz4 hz5 hcap hshort => ?_⟩⟩
  · have hrsv : (rsv1Of (byteAt S 0) || rsv2Of (byteAt S 0) || rsv3Of (byteAt S 0)) = false := rsv_false_of_mask hmask
    simp only [parseHeader, hrsv, hlen, if_true, if_false, Bool.false_eq_true]
  · exact parseHeader_of_lengthField_incomplete hmask hlen (by rw [hlen7 126#7 h126, lengthField_e16_short hshort])
  · exact parseHeader_of_lengthField_incomplete hmask hlen (by rw [hlen7 127#7 h127, lengthField_e64_short hshort])
  · have hlow : (len7Of (byteAt S 1)).toNat ≤ 125 := (len7Of_toNat _).trans_le hs7
    obtain ⟨h126, h127⟩ := s7_ne hlow
    refine parseHeader_waits_for_key hmask hlen hm (lengthField_s7 S h126 h127) ?_ hshort
    rw [BitVec.toNat_setWidth, len7Of_toNat]
    exact (Nat.mod_le _ _).trans hcap
  · have hl := lengthField_16 hlen
    rw [← hlen7 126#7 h126] at hl
    refine parseHeader_waits_for_key hmask (by omega) hm hl ?_ hshort
    rw [BitVec.toNat_setWidth, be16_toNat]
    exact (Nat.mod_le _ _).trans hcap
  · have hzero : be32 (byteAt S 2) (byteAt S 3) (byteAt S 4) (byteAt S 5) = 0#32 := by
      apply BitVec.eq_of_toNat_eq
      rw [be32_toNat]
      simp only [at'] at hz2 hz3 hz4 hz5
      simp only [byteAt, hz2, hz3, hz4, hz5]
      rfl
    have hl := (lengthField_64 hlen).trans (if_neg (not_not.mpr hzero))
    rw [← hlen7 127#7 h127] at hl
    refine parseHeader_waits_for_key hmask (by omega) hm hl ?_ hshort
    rw [be32_toNat]
    exact hcap

end Sys2Proof.Machine
end

section
/-! PROOFS. DECODE by state, and what each state makes of a chunk: refused, held, buffered, completed, raised, or nothing at all
(R110 to R120, R128). -/

namespace Sys2Proof.Machine

open Sys2Proof

/-! ## DECODE of an operand -/

/-- An operand within `CHUNK_MAX` stands in `IN`, and DECODE goes by `ST`, in every state (R110). -/
theorem decodeChunk_eq_decodeIn {s : State} {chunk : List Byte} (ha : Accepts s chunk) :
    decodeChunk chunk s = decodeIn { s with inp := chunk } := by
  by_cases hst : s.st = .error
  · rw [decodeChunk_error hst, decodeIn_error (s := { s with inp := chunk }) hst]
    rfl
  · exact decodeChunk_accepted hst ha

/-- While a header is awaited, DECODE is StartFrame (R110). -/
theorem decodeChunk_eq_startFrame {s : State} {chunk : List Byte} (hs : s.st = .idle ∨ s.st = .awaitHdr) (ha : Accepts s chunk) :
    decodeChunk chunk s = startFrame { s with inp := chunk } :=
  (decodeChunk_eq_decodeIn ha).trans (decodeIn_header hs)

/-- While a payload is awaited, DECODE is ContinuePayload (R110). -/
theorem decodeChunk_eq_continuePayload {s : State} {p : PPF} {chunk : List Byte} (hs : s.st = .awaitPay) (hp : s.ppf = some p)
    (ha : Accepts s chunk) : decodeChunk chunk s = continuePayload p { s with inp := chunk } :=
  (decodeChunk_eq_decodeIn ha).trans (decodeIn_payload hs hp)

theorem accepts_nil (s : State) : Accepts s [] := fun _ _ => Nat.zero_le _

/-- Settles O33: DECODE tests both conditions before it parses, and a refusal ends FEED in its first turn. -/
theorem decodeAndFeedRefusals : Obligations.DecodeAndFeedRefusals := by
  intro s chunk i hi
  simp only [List.mem_cons, List.not_mem_nil, or_false] at hi
  refine ⟨fun hst => ?_, fun hst m hm hlong => ?_⟩
  · have hd := decodeChunk_error hst chunk
    rcases hi with rfl | rfl
    · exact hd
    · exact feedLoop_stop hd (by simp)
  · have hd := decodeChunk_tooLong hst ((chunkTooLong_true_iff s.cfg chunk).mpr ⟨m, hm, hlong⟩)
    rcases hi with rfl | rfl
    · exact hd
    · exact feedLoop_stop hd (by simp)

/-! ## While a header is awaited -/

theorem startFrame_nothing {s : State} (h : s.hb ++ s.inp = []) : startFrame s = .next (s.answer (.remainder [])) := by
  simp only [startFrame, memRead_all, h, if_true]

/-- An incomplete header is held (R113). -/
theorem startFrame_incomplete {s : State} (hne : s.hb ++ s.inp ≠ []) (hp : parseHeader s.cfg (s.hb ++ s.inp) = .incomplete) :
    startFrame s = .next ((s.held (s.hb ++ s.inp)).answer (.remainder [])) := by
  simp only [startFrame, memRead_all, hne, if_false, hp]

/-- Settles O28: StartFrame holds the parse view, and what ParseHeader calls incomplete is a proper part of a header. -/
theorem decodeHoldsAnIncompleteHeader : Obligations.DecodeHoldsAnIncompleteHeader := by
  intro s chunk hs ha hne hp
  exact ⟨(decodeChunk_eq_startFrame hs ha).trans (startFrame_incomplete (s := { s with inp := chunk }) hne hp),
    parseHeader_incomplete hne hp⟩

/-! ## While a payload is awaited -/

/-- A chunk shorter than what is missing is buffered (R117). -/
theorem continuePayload_short {s : State} {p : PPF} (h : p.rb.length + s.inp.length < p.payloadLen.toNat) :
    continuePayload p s = .next ((s.buffered { p with rb := p.rb ++ s.inp }).answer (.remainder [])) := by
  rcases continuePayload_cases p s with ⟨-, hd⟩ | ⟨hfull, -⟩
  · exact hd
  · omega

/-- A chunk that has what is missing completes the frame (R118). -/
theorem continuePayload_full {s : State} {p : PPF} (h : p.payloadLen.toNat ≤ p.rb.length + s.inp.length) :
    continuePayload p s = emitFrame (headerOf p) (p.rb ++ s.inp.take (p.payloadLen.toNat - p.rb.length))
      (s.inp.drop (p.payloadLen.toNat - p.rb.length)) s.ppfDestroyed := by
  rcases continuePayload_cases p s with ⟨hshort, -⟩ | ⟨-, hd⟩
  · omega
  · exact hd

/-- Settles O30: ContinuePayload with a chunk that is too short for the frame. -/
theorem decodeBuffersAShortChunk : Obligations.DecodeBuffersAShortChunk := by
  intro s p chunk hs hp ha hshort
  exact (decodeChunk_eq_continuePayload hs hp ha).trans (continuePayload_short (s := { s with inp := chunk }) hshort)

/-- Settles O31: the chunk completes the frame and `Q` has room; the raw payload is the first `P.PAYLOADLEN` bytes of `RB` and the
chunk, and the key index runs over all of it. -/
theorem decodeCompletesAPendingFrame : Obligations.DecodeCompletesAPendingFrame := by
  intro s p chunk hs hp ha hroom hrb hfull need
  rcases decodeChunk_payload_cases hs hp ha with ⟨hshort, _⟩ | ⟨_, hover, _⟩ | ⟨_, _, hd⟩
  · omega
  · exact absurd ((queueFull_false_iff s).mpr hroom) (by simp [hover])
  have hraw : p.rb ++ chunk.take need = (p.rb ++ chunk).take (headerOf p).payloadLen.toNat := by
    rw [List.take_append, List.take_of_length_le (show p.rb.length ≤ (headerOf p).payloadLen.toNat from hrb.le)]
    rfl
  cases hm : p.mask with
  | false =>
    have hframe := frameOf_plain (headerOf p) (p.rb ++ chunk.take need) hm
    exact ⟨_, nofun, fun _ => rfl, hd.trans (by rw [hframe]; rfl)⟩
  | true =>
    have hframe := frameOf_masked (headerOf p) (p.rb ++ chunk) hm
    rw [← hraw] at hframe
    exact ⟨_, fun _ => unmaskBytes_isUnmasked p.key (p.rb ++ chunk) _ (by rw [List.length_append]; exact hfull), nofun,
      hd.trans (by rw [hframe]; rfl)⟩

/-! ## Nothing -/

/-- What already stands in `HB` is held again unchanged (R113). -/
theorem State.held_self {s : State} (hst : s.st = .awaitHdr) : s.held s.hb = s := by
  unfold State.held; rw [← hst]

/-- What already stands in the PPF is buffered again unchanged (R117). -/
theorem State.buffered_self {s : State} {p : PPF} (hp : s.ppf = some p) : s.buffered p = s := by
  unfold State.buffered; rw [← hp]

/-- With `IN` empty, as it is between operations, an answer is a delivered result. -/
theorem State.answer_eq_reply {s : State} (h : s.inp = []) (r : Result) : s.answer r = s.reply r := by
  unfold State.answer State.reply; rw [← h]

/-- DECODE of nothing delivers the empty remainder and does nothing else (R120). -/
theorem decodeChunk_nil {s : State} (hi : Inv s) (hs : s.st ≠ .error) : decodeChunk [] s = .next (s.reply (.remainder [])) := by
  have hin : ({ s with inp := [] } : State) = s := by rw [← hi.inp]
  rw [decodeChunk_eq_decodeIn (accepts_nil s), hin, ← State.answer_eq_reply hi.inp]
  cases hst : s.st with
  | idle =>
    obtain ⟨hhb, -⟩ := hi.idle hst
    rw [decodeIn_header (.inl hst), startFrame_nothing (by rw [hhb, hi.inp]; rfl)]
  | awaitHdr =>
    obtain ⟨hpos, -, -, hp, -⟩ := hi.awaitHdr hst
    have hview : s.hb ++ s.inp = s.hb := by rw [hi.inp, List.append_nil]
    rw [decodeIn_header (.inr hst), startFrame_incomplete (by rw [hview]; exact List.length_pos_iff.mp hpos) (by rw [hview]; exact hp),
      hview, State.held_self hst]
  | awaitPay =>
    obtain ⟨-, -, p, hppf, hp⟩ := hi.awaitPay hst
    have hshort : p.rb.length + s.inp.length < p.payloadLen.toNat := by rw [hi.inp]; exact hp.short
    rw [decodeIn_payload hst hppf, continuePayload_short hshort, hi.inp, List.append_nil, State.buffered_self hppf]
  | error => exact absurd hst hs

/-- Settles O29: in none of the three states is there anything to parse or to complete. -/
theorem decodeOfNothingIsANoop : Obligations.DecodeOfNothingIsANoop := fun _ hi hs => decodeChunk_nil hi hs

/-! ## An illegal header -/

/-- Settles O34: the RSV bits are met first, and the upper half as soon as its eight bytes are there. -/
theorem decodeRaisesOnAnIllegalHeader : Obligations.DecodeRaisesOnAnIllegalHeader := by
  intro s chunk hs ha hne S at'
  have hraise {e : ErrorInfo} (hp : parseHeader s.cfg S = .error e) : exec (.decode chunk) s = .next (s.raised e) :=
    (decodeChunk_eq_startFrame hs ha).trans (startFrame_error (s := { s with inp := chunk }) hne hp)
  refine ⟨fun hrsv => ?_, fun hmask hlen h127 hhi => ?_⟩
  · obtain ⟨b0, t, hS⟩ := List.exists_cons_of_ne_nil hne
    have hb0 : at' 0 = b0 := by simp only [at', S, hS, List.getD_cons_zero]
    have hp := parseHeader_rsv s.cfg b0 t (by rw [anyRsv_eq_mask, ← hb0]; exact decide_eq_true hrsv)
    rw [← hS, ← hb0] at hp
    exact hraise hp
  · have hl := (lengthField_64 hlen).trans (if_pos hhi)
    rw [← (len7Of_eq_iff (byteAt S 1) 127#7).mpr h127] at hl
    exact hraise (parseHeader_of_lengthField_error hmask (by omega) hl)

end Sys2Proof.Machine
end

section
/-! PROOFS. The rows of the byte stream: what a partial frame saves (R115), and that a row is DECODE of its bytes (R110, R111). -/

namespace Sys2Proof.Machine

open Sys2Proof

/-- A format row whose payload is not all there leaves its header in the P registers and the bytes so far in `RB` (R24, R115). -/
theorem exec_hdrInstr_saves {s : State} (hs : s.st = .idle) (fin : Bool) (op : Nibble) {f : HdrForm} {len : BitVec 32} {n : Nat}
    (hlen : (formHeader fin op f).payloadLen = len) (hn : len.toNat = n) (hc : n ≤ s.cfg.payloadCap) (hl : s.inp.length < n) :
    exec (hdrInstr fin op f) s = .next { s with
      st := .awaitPay, hb := [], inp := [], result := .remainder [], ppf := some (ppfOf (formHeader fin op f) s.inp) } := by
  subst hlen hn
  rw [exec_hdrInstr_idle hs, takeHeader_saves hc hl]

/-- Settles O11: the six formats, each with the width of its length field. -/
theorem formatRowsSaveAPartialFrame : Obligations.FormatRowsSaveAPartialFrame := by
  intro s fin op key hs
  refine ⟨fun l _ hc hl => ?_, fun l hc hl => ?_, fun l hc hl => ?_⟩
  · obtain ⟨hlen, hn⟩ := payloadLen_of_field (by omega) l
    rw [← hlen] at hn ⊢
    exact ⟨exec_hdrInstr_saves (f := .s7u l) hs fin op rfl hn hc hl, exec_hdrInstr_saves (f := .s7m l key) hs fin op rfl hn hc hl⟩
  · obtain ⟨hlen, hn⟩ := payloadLen_of_field (by omega) l
    rw [← hlen] at hn ⊢
    exact ⟨exec_hdrInstr_saves (f := .e16u l) hs fin op rfl hn hc hl, exec_hdrInstr_saves (f := .e16m l key) hs fin op rfl hn hc hl⟩
  · exact ⟨exec_hdrInstr_saves (f := .e64u l) hs fin op rfl rfl hc hl, exec_hdrInstr_saves (f := .e64m l key) hs fin op rfl rfl hc hl⟩

/-- A row of either view delivers its own encoding. -/
theorem exec_eq_deliver {i : Instr} (h : headerRow i = true ∨ opcodeRow i = true) (s : State) :
    ∃ f, exec i s = deliver (encode i) f s := by
  rcases h with h | h
  · rcases headerRow_cases i h with ⟨fin, op, f, rfl⟩ | ⟨b, rfl | rfl | rfl⟩ | ⟨fin, op, mask, hi, lo, rfl⟩
    · exact ⟨_, by rw [encode_hdrInstr]; exact exec_hdrInstr fin op f s⟩
    all_goals exact ⟨_, rfl⟩
  · rcases opcodeRow_cases i h with ⟨fin, op, f, rfl⟩ | ⟨b, rfl | rfl | rfl⟩ | ⟨fin, op, mask, hi, lo, rfl⟩
    · exact ⟨_, by rw [encode_frameInstr]; exact exec_frameInstr fin op f s⟩
    all_goals exact ⟨_, rfl⟩

/-- At a frame boundary only `IN` moves past a header (R111). -/
theorem State.pastHeader_idle {s : State} (hst : s.st = .idle) (hhb : s.hb = []) (bytes rest : List Byte) :
    ({ s with inp := bytes } : State).pastHeader rest = { s with inp := rest } := by
  unfold State.pastHeader; rw [← hst, ← hhb]

/-- Settles O16: at a frame boundary the encoding decodes to the row (O2, O3), which StartFrame runs; elsewhere the row is delivered as
its bytes. -/
theorem frameInstructionIsDecodeOfItsBytes : Obligations.FrameInstructionIsDecodeOfItsBytes := by
  intro i s hwf hrow hhb ha
  by_cases hst : s.st = .idle
  · have hpast := State.pastHeader_idle hst (hhb hst) (encode i ++ s.inp) s.inp
    have hstart : exec (.decode (encode i ++ s.inp)) s = startFrame { s with inp := encode i ++ s.inp } :=
      decodeChunk_eq_startFrame (.inl hst) ha
    have hview : s.hb ++ (encode i ++ s.inp) = encode i ++ s.inp := by rw [hhb hst, List.nil_append]
    rw [hstart]
    rcases hrow with hrow | hrow
    · have hd := formatRowsRoundTrip i s.inp hwf hrow
      rw [← hview] at hd
      rw [startFrame_runs_decoded exec_hdrInstr (s := { s with inp := encode i ++ s.inp }) hd, hpast]
    · have hd := opcodeRowsRoundTrip.1 i s.inp hwf hrow
      rw [← hview] at hd
      rw [startFrame_runs_decoded exec_frameInstr (s := { s with inp := encode i ++ s.inp }) hd, hpast]
  · obtain ⟨f, hf⟩ := exec_eq_deliver hrow s
    rw [hf, deliver_elsewhere hst]
    exact (decodeChunk_eq_decodeIn ha).symm

end Sys2Proof.Machine
end

section
/-! PROOFS. The remainder of a DECODE, and FEED as the loop over it (R110, R121, R122): a remainder with bytes in it is shorter than
its operand, so the bound on FEED's turns is never met and plays no part in what FEED does. -/

namespace Sys2Proof.Machine

open Sys2Proof

/-! ## The remainder of a DECODE -/

/-- A header that was not complete in the bytes held reaches past them (R112, R113). -/
theorem parseHeader_header_past {cfg : Config} {S t : List Byte} {h : Header} (hheld : S = [] ∨ parseHeader cfg S = .incomplete)
    (hne : S ++ t ≠ []) (hp : parseHeader cfg (S ++ t) = .header h) : S.length < h.hl.toNat ∧ h.hl.toNat ≤ (S ++ t).length := by
  obtain ⟨-, -, -, -, -, -, hle, htwo⟩ := parseHeader_facts hne hp
  refine ⟨?_, hle⟩
  rcases hheld with rfl | hinc
  · rw [List.length_nil]; omega
  by_contra hpast
  -- the header's bytes would all stand in `S`, and ParseHeader would not have waited
  obtain ⟨fin, op, f, r, hf, rfl, hS, -⟩ := parseHeader_header hne hp
  rw [← headerBytes_length, Nat.not_lt] at hpast
  obtain ⟨r', hr'⟩ : headerBytes fin op f <+: S :=
    List.prefix_of_prefix_length_le ⟨r, hS.symm⟩ (List.prefix_append S t) hpast
  have hparse := parseHeader_headerBytes cfg fin op f hf r'
  rw [hr', hinc] at hparse
  split_ifs at hparse

/-- While a header is awaited, `HB` is empty or holds an incomplete header (R34). -/
theorem Inv.held_incomplete {s : State} (hi : Inv s) (hs : s.st = .idle ∨ s.st = .awaitHdr) :
    s.hb = [] ∨ parseHeader s.cfg s.hb = .incomplete := by
  rcases hs with hs | hs
  · exact .inl (hi.idle hs).1
  · obtain ⟨-, -, -, hp, -⟩ := hi.awaitHdr hs
    exact .inr hp

/-- What a DECODE may leave of `chunk`: nothing, or a suffix short of at least one byte (R110, R122). -/
def ShorterSuffix (rem chunk : List Byte) : Prop := rem <:+ chunk ∧ (rem ≠ [] → rem.length < chunk.length)

theorem shorterSuffix_nil (chunk : List Byte) : ShorterSuffix [] chunk := ⟨List.nil_suffix, fun h => absurd rfl h⟩

theorem shorterSuffix_drop {n : Nat} (hn : 0 < n) (chunk : List Byte) : ShorterSuffix (chunk.drop n) chunk := by
  refine ⟨List.drop_suffix n chunk, fun hne => ?_⟩
  have := List.length_pos_iff.mpr hne
  rw [List.length_drop] at this ⊢
  omega

/-- An error or a refusal: the results that end a FEED before its operand is consumed (R121). -/
def Stops (r : Result) : Prop := (∃ e, r = .error e) ∨ ∃ w, r = .refused w

theorem Stops.not_remainder {r : Result} (h : Stops r) (l : List Byte) : r ≠ .remainder l := by
  rcases h with ⟨_, rfl⟩ | ⟨_, rfl⟩ <;> simp

/-- How a DECODE of `chunk` ends: with a remainder, or with an error or a refusal (R110). -/
def DecodeResult (chunk : List Byte) (r : Result) : Prop := (∃ rem, r = .remainder rem ∧ ShorterSuffix rem chunk) ∨ Stops r

theorem decodeResult_remainder {chunk rem : List Byte} (h : DecodeResult chunk (.remainder rem)) : ShorterSuffix rem chunk := by
  rcases h with ⟨_, hr, h⟩ | h
  · cases hr; exact h
  · exact absurd rfl (h.not_remainder rem)

/-- A header that completes reaches past `HB`, so it takes at least one byte of the chunk (R111). -/
theorem decodeChunk_header_result {s : State} {chunk : List Byte} (hi : Inv s) (hs : s.st = .idle ∨ s.st = .awaitHdr)
    (ha : Accepts s chunk) : ∃ t, decodeChunk chunk s = .next t ∧ DecodeResult chunk t.result := by
  rcases decodeChunk_header_cases hs ha with ⟨-, hd⟩ | ⟨-, e, -, hd⟩ | ⟨-, -, hd⟩ | ⟨hne, h, hp, ⟨-, hd⟩ | ⟨-, -, hd⟩ | ⟨-, -, hd⟩⟩
  · exact ⟨_, hd, .inl ⟨[], rfl, shorterSuffix_nil chunk⟩⟩
  · exact ⟨_, hd, .inr (.inl ⟨e, rfl⟩)⟩
  · exact ⟨_, hd, .inl ⟨[], rfl, shorterSuffix_nil chunk⟩⟩
  · exact ⟨_, hd, .inl ⟨[], rfl, shorterSuffix_nil chunk⟩⟩
  · exact ⟨_, hd, .inr (.inl ⟨.queueOverflow, rfl⟩)⟩
  · refine ⟨_, hd, .inl ⟨_, rfl, ?_⟩⟩
    have hpast := (parseHeader_header_past (hi.held_incomplete hs) hne hp).1
    have hrest : (afterHeader s chunk h).drop h.payloadLen.toNat =
        chunk.drop (h.hl.toNat - s.hb.length + h.payloadLen.toNat) := by
      rw [afterHeader, List.drop_append, List.drop_eq_nil_of_le hpast.le, List.nil_append, List.drop_drop]
    rw [hrest]
    exact shorterSuffix_drop (by omega) chunk

/-- A pending payload lacks at least one byte, so its completion takes one of the chunk (R118). -/
theorem decodeChunk_payload_result {s : State} {chunk : List Byte} (hi : Inv s) (hs : s.st = .awaitPay) (ha : Accepts s chunk) :
    ∃ t, decodeChunk chunk s = .next t ∧ DecodeResult chunk t.result := by
  obtain ⟨-, -, p, hppf, hp⟩ := hi.awaitPay hs
  have hshort := hp.short
  rcases decodeChunk_payload_cases hs hppf ha with ⟨-, hd⟩ | ⟨-, -, hd⟩ | ⟨-, -, hd⟩
  · exact ⟨_, hd, .inl ⟨[], rfl, shorterSuffix_nil chunk⟩⟩
  · exact ⟨_, hd, .inr (.inl ⟨.queueOverflow, rfl⟩)⟩
  · exact ⟨_, hd, .inl ⟨_, rfl, shorterSuffix_drop (by omega) chunk⟩⟩

/-- From a state that meets the invariant DECODE completes, and a remainder is a suffix of its operand (R110, R122). -/
theorem decodeChunk_result {s : State} (hi : Inv s) (chunk : List Byte) :
    ∃ t, decodeChunk chunk s = .next t ∧ Inv t ∧ DecodeResult chunk t.result := by
  suffices h : ∃ t, decodeChunk chunk s = .next t ∧ DecodeResult chunk t.result by
    obtain ⟨t, hd, hr⟩ := h
    exact ⟨t, hd, (decodeChunk_keeps_inv chunk s hi).of_eq hd, hr⟩
  rcases decodeChunk_cases s chunk hi.ppf_present with ⟨-, hd⟩ | ⟨-, -, hd⟩ | ⟨ha, hs⟩ | ⟨ha, hs, -⟩
  · exact ⟨_, hd, .inr (.inr ⟨.dead, rfl⟩)⟩
  · exact ⟨_, hd, .inr (.inr ⟨.chunkTooLong, rfl⟩)⟩
  · exact decodeChunk_header_result hi hs ha
  · exact decodeChunk_payload_result hi hs ha

/-- Settles O35: a header reaches past the bytes held and a pending payload wants at least one byte, so some byte is consumed. -/
theorem remainderIsAShorterSuffix : Obligations.RemainderIsAShorterSuffix := by
  intro s t chunk rem hi hd hr
  obtain ⟨t', hd', -, hr'⟩ := decodeChunk_result hi chunk
  obtain rfl : t = t' := by
    rw [show exec (.decode chunk) s = decodeChunk chunk s from rfl, hd'] at hd
    cases hd
    rfl
  exact decodeResult_remainder (hr ▸ hr')

/-! ## The turns of FEED -/

/-- A loop with more turns than its operand has bytes does not depend on how many more (R122). -/
theorem feedLoop_turns_irrelevant {n m : Nat} {r : List Byte} {s : State} (hi : Inv s) (hn : r.length < n) (hm : r.length < m) :
    feedLoop n r s = feedLoop m r s := by
  induction n generalizing m r s with
  | zero => omega
  | succ n ih =>
    obtain ⟨m, rfl⟩ : ∃ k, m = k + 1 := ⟨m - 1, by omega⟩
    obtain ⟨t, hd, ht, hres⟩ := decodeChunk_result hi r
    rcases hres with ⟨rem, hr, -, hshort⟩ | hstop
    · cases rem with
      | nil => rw [feedLoop_done hd hr, feedLoop_done hd hr]
      | cons b bs =>
        have := hshort (by simp)
        rw [feedLoop_more hd hr, feedLoop_more hd hr]
        exact ih ht (by omega) (by omega)
    · rw [feedLoop_stop hd hstop.not_remainder, feedLoop_stop hd hstop.not_remainder]

/-- The loop depends on its operand and state through the first DECODE only (R121). -/
theorem feedLoop_congr {r r' : List Byte} {s s' : State} (hd : decodeChunk r s = decodeChunk r' s') (n : Nat) :
    feedLoop n r s = feedLoop n r' s' := by
  cases n <;> simp only [feedLoop, hd]

/-- FEED ends with the DECODE that leaves nothing (R121). -/
theorem feed_done {s t : State} {chunk : List Byte} (hd : decodeChunk chunk s = .next t) (hr : t.result = .remainder []) :
    exec (.feed chunk) s = .next (t.reply .ok) := feedLoop_done hd hr

/-- FEED ends with an error or a refusal (R121). -/
theorem feed_stop {s t : State} {chunk : List Byte} (hd : decodeChunk chunk s = .next t) (hr : Stops t.result) :
    exec (.feed chunk) s = .next t := feedLoop_stop hd hr.not_remainder

/-- FEED goes on as the FEED of what a DECODE leaves (R121). -/
theorem feed_more {s t : State} {chunk : List Byte} (hi : Inv s) {b : Byte} {bs : List Byte} (hd : decodeChunk chunk s = .next t)
    (hr : t.result = .remainder (b :: bs)) : exec (.feed chunk) s = exec (.feed (b :: bs)) t := by
  obtain ⟨t', hd', ht, hres⟩ := decodeChunk_result hi chunk
  obtain rfl : t = t' := by rw [hd'] at hd; cases hd; rfl
  have hshort := (decodeResult_remainder (hr ▸ hres)).2 (by simp)
  exact (feedLoop_more hd hr).trans (feedLoop_turns_irrelevant ht (by omega) (by unfold feedTurns; omega))

/-- FEED of nothing only answers (R120, R121). -/
theorem feed_nil {s : State} (hi : Inv s) (hs : s.st ≠ .error) : exec (.feed []) s = .next (s.reply .ok) :=
  feed_done (t := s.reply (.remainder [])) (decodeChunk_nil hi hs) rfl

/-- Once a DECODE has returned a remainder, empty or not, FEED is FEED of the remainder (R121). -/
theorem feed_remainder {s t : State} {chunk rem : List Byte} (hi : Inv s) (hd : decodeChunk chunk s = .next t)
    (hr : t.result = .remainder rem) (ht : t.st ≠ .error) : exec (.feed chunk) s = exec (.feed rem) t := by
  cases rem with
  | nil => rw [feed_done hd hr, feed_nil ((decodeChunk_keeps_inv chunk s hi).of_eq hd) ht]
  | cons b bs => exact feed_more hi hd hr

/-- FEED of what DECODE does not tell from another operand, in another state, is FEED of that one (R121). -/
theorem feed_congr {s s' : State} {chunk chunk' : List Byte} (hi' : Inv s') (hd : decodeChunk chunk s = decodeChunk chunk' s')
    (hlen : chunk'.length ≤ chunk.length) : exec (.feed chunk) s = exec (.feed chunk') s' :=
  (feedLoop_congr hd _).trans (feedLoop_turns_irrelevant hi' (by unfold feedTurns; omega) (by unfold feedTurns; omega))

/-- Settles O36: the three rules above, by the result of the first DECODE. -/
theorem feedIsTheDecodeLoop : Obligations.FeedIsTheDecodeLoop := by
  intro s chunk hi
  obtain ⟨t, hd, -, ⟨rem, hr, -⟩ | hstop⟩ := decodeChunk_result hi chunk
  · cases rem with
    | nil => exact ⟨t, hd, .inl ⟨hr, feed_done hd hr⟩⟩
    | cons b bs => exact ⟨t, hd, .inr (.inl ⟨b, bs, hr, feed_more hi hd hr⟩)⟩
  · exact ⟨t, hd, .inr (.inr ⟨hstop, feed_stop hd hstop⟩)⟩

/-- Settles O37: by induction on the length of the operand, which a turn that goes on makes shorter (O35, O36). -/
theorem feedTerminates : Obligations.FeedTerminates := by
  intro s chunk hi
  induction hlen : chunk.length using Nat.strong_induction_on generalizing chunk s with
  | _ n ih =>
    obtain ⟨t, hd, ⟨-, hf⟩ | ⟨b, bs, hr, hf⟩ | ⟨hstop, hf⟩⟩ := feedIsTheDecodeLoop s chunk hi
    · exact ⟨_, hf, .inl rfl⟩
    · rw [hf]
      have hshort := (remainderIsAShorterSuffix s t chunk _ hi hd hr).2 (by simp)
      exact ih _ (by omega) t (b :: bs) ((decodeChunk_keeps_inv chunk s hi).of_eq hd) rfl
    · exact ⟨t, hf, .inr hstop⟩

end Sys2Proof.Machine
end

section
/-! PROOFS. A stream of complete frames: DECODE takes one frame off its front, and FEED all of them (R68, R80, R124, R126). -/

namespace Sys2Proof.Machine

open Sys2Proof

/-- A part of an accepted operand is accepted (R110). -/
theorem Accepts.mono {s t : State} {a b : List Byte} (h : Accepts s a) (hcfg : t.cfg = s.cfg) (hlen : b.length ≤ a.length) :
    Accepts t b := fun m hm => hlen.trans (h m (hcfg ▸ hm))

/-- The Frame of R116 is the Frame the wire frame stands for (R28, R127). -/
theorem frameOf_wireHeader {cfg : Config} {w : WireFrame} (hw : WireOk cfg w) : frameOf (wireHeader w) w.raw = wireDecoded w := by
  have htotal : (wireBytes w).length = (wireHeader w).hl.toNat + (wireHeader w).payloadLen.toNat := by
    rw [wireBytes, List.length_append, hw.length, headerBytes_length]; rfl
  simp only [frameOf, wireDecoded, frameLen_eq_ofNat, htotal, hw.length]
  simp only [wireHeader, formHeader_fin, formHeader_opcode]

/-- From IDLE, DECODE takes one complete frame off the front of its operand, and the bytes after it are the remainder (R114, R116). -/
theorem decodeChunk_wireBytes {s : State} {w : WireFrame} {rest : List Byte} (hi : Inv s) (hst : s.st = .idle) (hr : Room s)
    (hw : WireOk s.cfg w) (ha : Accepts s (wireBytes w ++ rest)) :
    decodeChunk (wireBytes w ++ rest) s = .next { s with q := s.q ++ [wireDecoded w], result := .remainder rest } := by
  obtain ⟨hhb, -⟩ := hi.idle hst
  have hview : s.hb ++ (wireBytes w ++ rest) = headerBytes w.fin w.opcode w.form ++ (w.raw ++ rest) := by
    rw [hhb, List.nil_append, wireBytes, List.append_assoc]
  have hlen : (w.raw ++ rest).length = (wireHeader w).payloadLen.toNat + rest.length := by rw [List.length_append, hw.length]
  calc decodeChunk (wireBytes w ++ rest) s
      = startFrame { s with inp := wireBytes w ++ rest } := decodeChunk_eq_startFrame (.inl hst) ha
    _ = takeHeader (wireHeader w) { s with inp := w.raw ++ rest } := by
        rw [startFrame_headerBytes hw.form hview, State.pastHeader_idle hst hhb]; rfl
    _ = .next { s with q := s.q ++ [wireDecoded w], result := .remainder rest } := by
        rw [takeHeader_emits (s := { s with inp := w.raw ++ rest }) hst hr hw.cap (by simp only [List.length_append, hw.length]; omega)]
        simp only [← hw.length, List.take_left, List.drop_left, frameOf_wireHeader hw]
        rw [hhb, hi.inp]

/-- Settles O50: by induction over the frames; a turn of FEED takes one, and leaves the state it found but for `Q` and the result. -/
theorem streamOfFramesIsQueuedInOrder : Obligations.StreamOfFramesIsQueuedInOrder := by
  intro s ws hi hst hroom hws ha
  induction ws generalizing s with
  | nil =>
    rw [show streamBytes [] = [] from rfl, feed_nil hi (by simp [hst]), List.map_nil, List.append_nil]
    rfl
  | cons w ws ih =>
    have hbytes : streamBytes (w :: ws) = wireBytes w ++ streamBytes ws := rfl
    have hroom_first : Room s := fun c hc => by have := hroom c hc; rw [List.length_cons] at this; omega
    rw [hbytes] at ha ⊢
    have hd := decodeChunk_wireBytes hi hst hroom_first (hws w List.mem_cons_self) ha
    rw [feed_remainder hi hd rfl (by simp [hst]), ih _ ((decodeChunk_keeps_inv _ s hi).of_eq hd) hst ?room
      (fun v hv => hws v (List.mem_cons_of_mem w hv)) (ha.mono rfl (by simp))]
    case room =>
      intro c hc
      have := hroom c hc
      simp only [List.length_append, List.length_cons, List.length_nil] at this ⊢
      omega
    rw [List.map_cons, List.append_assoc, List.singleton_append]

end Sys2Proof.Machine
end

section
/-! PROOFS. Chunk-partition invariance (R125). DECODE of a chunk is DECODE of its first byte and then of the bytes after it, whatever
the state, so FEED of a chunk runs through its bytes one by one, and where a chunk ends plays no part. -/

namespace Sys2Proof.Machine

open Sys2Proof

/-! ## One byte and the bytes after it -/

/-- What DECODE makes of a chunk, told by the state `u` its first byte leads to and the bytes `bs` after it. -/
inductive AfterFirstByte (u : State) (bs : List Byte) : Out → Prop where
  /-- The byte ended neither a frame nor the decoder: what follows is decoded from there. -/
  | goesOn : AfterFirstByte u bs (decodeIn { u with inp := bs })
  /-- The byte ended a frame: what follows is the remainder. -/
  | frameEnded (live : u.st ≠ .error) : AfterFirstByte u bs (.next (u.reply (.remainder bs)))
  /-- The decoder is in ERROR, by this byte or before it: what follows is ignored. -/
  | stopped (dead : u.st = .error) (stops : Stops u.result) : AfterFirstByte u bs (.next u)

/-- A byte of a chunk leads to one state whatever follows it, and to what follows from there: `o bs` is what DECODE makes of the byte
and the bytes `bs` after it. -/
def OneByteFirst (o : List Byte → Out) : Prop := ∃ u, o [] = .next u ∧ ∀ bs, AfterFirstByte u bs (o bs)

theorem OneByteFirst.congr {o o' : List Byte → Out} (h : OneByteFirst o') (he : ∀ bs, o bs = o' bs) : OneByteFirst o := funext he ▸ h

theorem OneByteFirst.of_decodeIn {o : List Byte → Out} {u : State} (h : o [] = .next u)
    (hgo : ∀ bs, o bs = decodeIn { u with inp := bs }) : OneByteFirst o := ⟨u, h, fun bs => hgo bs ▸ .goesOn⟩

theorem OneByteFirst.of_frameEnded {o : List Byte → Out} {u : State} (h : ∀ bs, o bs = .next (u.reply (.remainder bs)))
    (live : u.st ≠ .error) : OneByteFirst o :=
  ⟨u.reply (.remainder []), h [], fun bs => h bs ▸ .frameEnded (u := u.reply (.remainder [])) live⟩

theorem OneByteFirst.of_stop {o : List Byte → Out} {u : State} (h : ∀ bs, o bs = .next u) (dead : u.st = .error)
    (stops : Stops u.result) : OneByteFirst o := ⟨u, h [], fun bs => h bs ▸ .stopped dead stops⟩

/-- A byte that completes a frame ends it, or finds `Q` full (R116). -/
theorem emitFrame_oneByteFirst (h : Header) (raw : List Byte) (s : State) : OneByteFirst fun bs => emitFrame h raw bs s := by
  by_cases hfull : queueFull s = true
  · exact .of_stop (u := s.raised .queueOverflow) (fun _ => if_pos hfull) rfl (.inl ⟨.queueOverflow, rfl⟩)
  · have he (rem : List Byte) : emitFrame h raw rem s = .next ((s.pushed (frameOf h raw)).answer (.remainder rem)) := if_neg hfull
    exact .of_frameEnded (u := (s.pushed (frameOf h raw)).answer (.remainder [])) he (by simp)

/-- Payload bytes may be buffered first and what follows them taken from there: `RB` is all that has grown (R117, R118). -/
theorem continuePayload_append {s : State} {p : PPF} {a : List Byte} (hroom : p.rb.length + a.length ≤ p.payloadLen.toNat)
    (bs : List Byte) :
    continuePayload p { s with inp := a ++ bs } = continuePayload { p with rb := p.rb ++ a }
      { (s.buffered { p with rb := p.rb ++ a }).answer (.remainder []) with inp := bs } := by
  have hrb : (p.rb ++ a).length = p.rb.length + a.length := List.length_append
  have htotal : p.rb.length + (a ++ bs).length = (p.rb ++ a).length + bs.length := by rw [hrb, List.length_append, Nat.add_assoc]
  rcases Nat.lt_or_ge (p.rb.length + (a ++ bs).length) p.payloadLen.toNat with hshort | hfull
  · rw [continuePayload_short hshort, continuePayload_short (htotal ▸ hshort)]
    simp only [List.append_assoc]
    rfl
  · have hraw : p.rb ++ (a ++ bs).take (p.payloadLen.toNat - p.rb.length) =
        p.rb ++ a ++ bs.take (p.payloadLen.toNat - (p.rb ++ a).length) := by
      rw [List.take_append, List.take_of_length_le (by omega), List.append_assoc, hrb, Nat.sub_sub]
    have hrem : (a ++ bs).drop (p.payloadLen.toNat - p.rb.length) = bs.drop (p.payloadLen.toNat - (p.rb ++ a).length) := by
      rw [List.drop_append, List.drop_eq_nil_of_le (by omega), List.nil_append, hrb, Nat.sub_sub]
    rw [continuePayload_full hfull, continuePayload_full (htotal ▸ hfull), hraw, hrem]
    exact emitFrame_reads rfl rfl rfl rfl rfl rfl

/-- One byte of a payload is its last, or it is buffered (R117, R118). -/
theorem continuePayload_oneByteFirst {s : State} {p : PPF} (hst : s.st = .awaitPay) (hshort : p.rb.length < p.payloadLen.toNat)
    (b : Byte) : OneByteFirst fun bs => continuePayload p { s with inp := b :: bs } := by
  by_cases hlast : p.payloadLen.toNat = p.rb.length + 1
  · refine (emitFrame_oneByteFirst (headerOf p) (p.rb ++ [b]) s.ppfDestroyed).congr fun bs => ?_
    rw [continuePayload_full (by rw [List.length_cons]; omega), hlast, Nat.add_sub_cancel_left]
    exact emitFrame_reads rfl rfl rfl rfl rfl rfl
  · have hmore : p.rb.length + [b].length < p.payloadLen.toNat := by rw [List.length_singleton]; omega
    exact .of_decodeIn (continuePayload_short (s := { s with inp := [b] }) hmore)
      fun bs => (continuePayload_append (a := [b]) hshort bs).trans (Eq.symm (decodeIn_payload hst rfl))

/-- A header leaves what ContinuePayload takes up, whether or not payload bytes follow it in the chunk (R114, R115). -/
theorem acceptHeader_eq_continuePayload {s : State} (hppf : s.ppf = none) (h : Header) (rest : List Byte) :
    acceptHeader h rest s = continuePayload (ppfOf h [])
      { ((s.headerTaken []).saved (ppfOf h [])).answer (.remainder []) with inp := rest } := by
  have htotal : (ppfOf h []).rb.length + rest.length = rest.length := Nat.zero_add _
  rcases acceptHeader_cases h rest s with ⟨hshort, hd⟩ | ⟨hfull, hd⟩
  · rw [hd, continuePayload_short (htotal.trans_lt hshort)]
    rfl
  · rw [hd, continuePayload_full (hfull.trans_eq htotal.symm)]
    exact emitFrame_reads rfl rfl hppf rfl rfl rfl

/-- The byte that completes a header ends the frame if it has no payload, and else leaves a PPF (R114, R115). -/
theorem acceptHeader_oneByteFirst {s : State} (hppf : s.ppf = none) (h : Header) : OneByteFirst fun bs => acceptHeader h bs s := by
  by_cases hzero : h.payloadLen.toNat = 0
  · refine (emitFrame_oneByteFirst h [] (s.headerTaken [])).congr fun bs => ?_
    rcases acceptHeader_cases h bs s with ⟨hshort, -⟩ | ⟨-, hd⟩
    · omega
    · rw [hd, hzero]
      exact emitFrame_reads rfl rfl rfl rfl rfl rfl
  · refine .of_decodeIn ?_ fun bs => (acceptHeader_eq_continuePayload hppf h bs).trans (Eq.symm (decodeIn_payload rfl rfl))
    rcases acceptHeader_cases h [] s with ⟨-, hd⟩ | ⟨hfull, -⟩
    · exact hd
    · rw [List.length_nil] at hfull; omega

/-- One byte of a header makes it illegal, leaves it incomplete, or completes it (R112, R113). -/
theorem startFrame_oneByteFirst {s : State} (hi : Inv s) (hst : s.st = .idle ∨ s.st = .awaitHdr) (b : Byte) :
    OneByteFirst fun bs => startFrame { s with inp := b :: bs } := by
  have hne (bs : List Byte) : s.hb ++ b :: bs ≠ [] := by simp
  have hview (bs : List Byte) : s.hb ++ b :: bs = s.hb ++ [b] ++ bs := by simp
  -- an answer to the bytes so far is the answer to them with more behind them
  have hparse (bs : List Byte) (hp : parseHeader s.cfg (s.hb ++ [b]) ≠ .incomplete) :
      parseHeader s.cfg (s.hb ++ b :: bs) = parseHeader s.cfg (s.hb ++ [b]) := by
    rw [hview, parseHeader_append (hne []) hp]
  cases hp : parseHeader s.cfg (s.hb ++ [b]) with
  | error e =>
    refine .of_stop (u := s.raised e) (fun bs => ?_) rfl (.inl ⟨e, rfl⟩)
    exact startFrame_error (s := { s with inp := b :: bs }) (hne bs) ((hparse bs (by simp [hp])).trans hp)
  | incomplete =>
    refine .of_decodeIn (u := (s.held (s.hb ++ [b])).answer (.remainder []))
      (startFrame_incomplete (s := { s with inp := [b] }) (hne []) hp) fun bs => ?_
    rw [decodeIn_header (.inr rfl)]
    exact startFrame_reads rfl rfl rfl rfl rfl (hview bs) (hne bs)
  | header h =>
    have hhl : h.hl.toNat = (s.hb ++ [b]).length := by
      obtain ⟨hpast, hle⟩ := parseHeader_header_past (hi.held_incomplete hst) (hne []) hp
      rw [List.length_append, List.length_singleton] at hle ⊢
      omega
    refine (acceptHeader_oneByteFirst (hi.header_awaited hst).1 h).congr fun bs => ?_
    have hrest : (s.hb ++ b :: bs).drop h.hl.toNat = bs := by rw [hview, hhl, List.drop_left]
    rw [startFrame_header (s := { s with inp := b :: bs }) (hne bs) ((hparse bs (by simp [hp])).trans hp), hrest]
    exact acceptHeader_reads rfl rfl rfl rfl rfl

/-- DECODE of a chunk is DECODE of its first byte and then of the bytes after it, in every state that meets the invariant. -/
theorem decodeIn_oneByteFirst {s : State} (hi : Inv s) (b : Byte) : OneByteFirst fun bs => decodeIn { s with inp := b :: bs } := by
  obtain hst | hst | hst : (s.st = .idle ∨ s.st = .awaitHdr) ∨ s.st = .awaitPay ∨ s.st = .error := by cases s.st <;> simp
  · exact (startFrame_oneByteFirst hi hst b).congr fun bs => decodeIn_header (s := { s with inp := b :: bs }) hst
  · obtain ⟨-, -, p, hppf, hp⟩ := hi.awaitPay hst
    exact (continuePayload_oneByteFirst hst hp.short b).congr fun bs => decodeIn_payload (s := { s with inp := b :: bs }) hst hppf
  · exact .of_stop (u := s.answer (.refused .dead)) (fun bs => decodeIn_error (s := { s with inp := b :: bs }) hst) hst
      (.inr ⟨.dead, rfl⟩)

/-! ## FEED, byte by byte -/

/-- The state after one more byte of the stream. -/
def State.afterByte (s : State) (b : Byte) : State :=
  match decodeIn { s with inp := [b] } with
  | .next u => u
  | .fault _ => s
  | .refused _ => s

theorem State.afterByte_eq {s u : State} {b : Byte} (h : decodeIn { s with inp := [b] } = .next u) : s.afterByte b = u := by
  simp only [State.afterByte, h]

section
variable {s : State} (hi : Inv s)
include hi

/-- It is the state DECODE of that byte leads to, and what follows the byte is decoded from it. -/
theorem State.afterByte_first (b : Byte) :
    decodeIn { s with inp := [b] } = .next (s.afterByte b) ∧
    ∀ bs, AfterFirstByte (s.afterByte b) bs (decodeIn { s with inp := b :: bs }) := by
  obtain ⟨u, hu, hafter⟩ := decodeIn_oneByteFirst hi b
  rw [State.afterByte_eq hu]
  exact ⟨hu, hafter⟩

theorem decodeChunk_singleton {b : Byte} (ha : Accepts s [b]) : decodeChunk [b] s = .next (s.afterByte b) :=
  (decodeChunk_eq_decodeIn ha).trans (State.afterByte_first hi b).1

theorem Inv.afterByte {b : Byte} (ha : Accepts s [b]) : Inv (s.afterByte b) :=
  (decodeChunk_keeps_inv [b] s hi).of_eq (decodeChunk_singleton hi ha)

theorem State.afterByte_cfg {b : Byte} (ha : Accepts s [b]) : (s.afterByte b).cfg = s.cfg :=
  ((decodeChunk_keeps_hostSide [b] s ⟨rfl, rfl⟩).of_eq (decodeChunk_singleton hi ha)).1

/-- DECODE does not read the result of the operation before it (R62). -/
theorem State.afterByte_reply (r : Result) (b : Byte) : (s.reply r).afterByte b = s.afterByte b := by
  have hread : decodeIn { s.reply r with inp := [b] } = decodeIn { s with inp := [b] } := rfl
  exact State.afterByte_eq (hread.trans (State.afterByte_first hi b).1)

theorem foldl_afterByte_reply (bs : List Byte) (r r' : Result) :
    (bs.foldl State.afterByte (s.reply r)).reply r' = (bs.foldl State.afterByte s).reply r' := by
  cases bs with
  | nil => rfl
  | cons b bs => rw [List.foldl_cons, List.foldl_cons, State.afterByte_reply hi]

end

/-- In ERROR no byte changes anything but the result (R119, R208). -/
theorem foldl_afterByte_error {s : State} (hi : Inv s) (hs : s.st = .error) (bs : List Byte) :
    ∃ r, bs.foldl State.afterByte s = s.reply r := by
  induction bs generalizing s with
  | nil => exact ⟨s.result, rfl⟩
  | cons b bs ih =>
    have hb : s.afterByte b = s.answer (.refused .dead) := State.afterByte_eq (decodeIn_error (s := { s with inp := [b] }) hs)
    obtain ⟨r, hr⟩ := ih (hi.answered (.refused .dead)) hs
    rw [List.foldl_cons, hb, hr, State.answer_eq_reply hi.inp]
    exact ⟨r, rfl⟩

/-- FEED of a chunk runs through its bytes: by induction over them, each the first byte of a DECODE (R121). -/
theorem feed_eq_foldl {s : State} {chunk : List Byte} (hi : Inv s) (ha : Accepts s chunk) :
    ∃ r, exec (.feed chunk) s = .next ((chunk.foldl State.afterByte s).reply r) := by
  induction chunk generalizing s with
  | nil =>
    by_cases hs : s.st = .error
    · rw [feed_stop (decodeChunk_error hs []) (.inr ⟨.dead, rfl⟩), State.answer_eq_reply hi.inp]
      exact ⟨_, rfl⟩
    · exact ⟨_, feed_nil hi hs⟩
  | cons b bs ih =>
    have hab : Accepts s [b] := ha.mono rfl (by simp)
    have hu := hi.afterByte hab
    have habs : Accepts (s.afterByte b) bs := ha.mono (State.afterByte_cfg hi hab) (by simp)
    have hfirst := (State.afterByte_first hi b).2 bs
    rw [← decodeChunk_eq_decodeIn ha] at hfirst
    rw [List.foldl_cons]
    generalize hd : decodeChunk (b :: bs) s = o at hfirst
    cases hfirst with
    | goesOn =>
      rw [← decodeChunk_eq_decodeIn habs] at hd
      rw [feed_congr hu hd (by simp)]
      exact ih hu habs
    | frameEnded live =>
      obtain ⟨r, hr⟩ := ih (hu.replied (.remainder bs)) habs
      rw [feed_remainder hi hd rfl live, hr, foldl_afterByte_reply hu]
      exact ⟨r, rfl⟩
    | stopped dead stops =>
      obtain ⟨r, hr⟩ := foldl_afterByte_error hu dead bs
      rw [feed_stop hd stops, hr]
      exact ⟨(s.afterByte b).result, rfl⟩

/-- A sequence of FEEDs runs through the bytes of its chunks, one after another, and so depends on their concatenation (R125). -/
theorem feedAll_eq_foldl {s : State} {cs : List (List Byte)} (hi : Inv s) (ha : ∀ c ∈ cs, Accepts s c) :
    ∃ r, feedAll cs s = .next ((cs.flatten.foldl State.afterByte s).reply r) := by
  induction cs generalizing s with
  | nil => exact ⟨s.result, rfl⟩
  | cons c cs ih =>
    obtain ⟨r, hf⟩ := feed_eq_foldl hi (ha c List.mem_cons_self)
    have hnext : Inv ((c.foldl State.afterByte s).reply r) := (exec_issue_keeps_inv (.feed c) s hi).of_eq hf
    have hend : Inv (c.foldl State.afterByte s) := hnext.replied (c.foldl State.afterByte s).result
    have hcfg := (configurationIsFixed (.feed c) s _ hf).1
    obtain ⟨r', hr'⟩ := ih hnext fun d hd => (ha d (List.mem_cons_of_mem c hd)).mono hcfg le_rfl
    refine ⟨r', ?_⟩
    simp only [feedAll, hf]
    rw [hr', foldl_afterByte_reply hend, List.flatten_cons, List.foldl_append]

/-- Settles O52: both sequences run through the same bytes, and end in states that differ in the result at most. -/
theorem chunkPartitionInvariance : Obligations.ChunkPartitionInvariance := by
  intro s cs ds hi hflatten hcs hds
  obtain ⟨r, hc⟩ := feedAll_eq_foldl hi hcs
  obtain ⟨r', hd⟩ := feedAll_eq_foldl hi hds
  rw [hflatten] at hc
  exact ⟨_, _, hc, hd, rfl, rfl, rfl, rfl, rfl⟩

end Sys2Proof.Machine
end

section
/-! PROOFS. UNMASK as the caller uses it: what it answers (R150, R155), that it is its own inverse (R152) and that the all-zero key
leaves the payload as it is (R153). -/

namespace Sys2Proof.Machine

open Sys2Proof

/-! ## What the operation answers -/

/-- A short input is refused (R155). -/
theorem exec_unmask_short {raw : List Byte} {len : BitVec 32} (h : raw.length < len.toNat) (key : Key) (s : State) :
    exec (.unmask raw len key) s = .next (s.reply (.refused .shortInput)) := if_pos h

/-- An input that is long enough is transformed (R150). -/
theorem exec_unmask_bytes {raw : List Byte} {len : BitVec 32} (h : len.toNat ≤ raw.length) (key : Key) (s : State) :
    exec (.unmask raw len key) s = .next (s.reply (.bytes (unmaskBytes raw len.toNat key))) := if_neg (Nat.not_lt.mpr h)

/-! ## The transform -/

/-- Of a payload of just that length every byte is transformed. -/
theorem unmaskBytes_of_length_eq {bs : List Byte} {n : Nat} (h : bs.length = n) (k : Key) : unmaskBytes bs n k = xorFrom k 0 bs := by
  rw [unmaskBytes, ← h, List.take_length]

/-- The same key at the same index undoes the XOR (R152). -/
theorem unmaskBytes_unmaskBytes {bs : List Byte} {n : Nat} (h : bs.length = n) (k : Key) :
    unmaskBytes (unmaskBytes bs n k) n k = bs := by
  have hmasked : (xorFrom k 0 bs).length = n := (xorFrom_length k 0 bs).trans h
  rw [unmaskBytes_of_length_eq h, unmaskBytes_of_length_eq hmasked, xorFrom_xorFrom]

/-- With the all-zero key the first `n` bytes stay as they are (R153). -/
theorem unmaskBytes_zeroKey (bs : List Byte) (n : Nat) : unmaskBytes bs n zeroKey = bs.take n := xorFrom_zero 0 (bs.take n)

/-! ## The statements -/

/-- Settles O20: the two answers of UNMASK, the second by what the transform is byte by byte. -/
theorem unmaskResult : Obligations.UnmaskResult := by
  intro s raw len key
  constructor
  · intro hshort
    exact exec_unmask_short hshort key s
  · intro hlen
    exact ⟨_, unmaskBytes_isUnmasked key raw len.toNat hlen, exec_unmask_bytes hlen key s⟩

/-- Settles O21: the masked bytes are as many as the payload's, so the second UNMASK answers too, and undoes the first. -/
theorem unmaskIsAnInvolution : Obligations.UnmaskIsAnInvolution := by
  intro s payload len key hlen
  have hmasked : len.toNat ≤ (unmaskBytes payload len.toNat key).length := by simp [hlen]
  refine ⟨_, _, exec_unmask_bytes hlen.ge key s, rfl, ?_⟩
  rw [exec_unmask_bytes hmasked, unmaskBytes_unmaskBytes hlen]
  rfl

/-- Settles O22: UNMASK answers the transform of the input, which the all-zero key makes the identity. -/
theorem unmaskWithZeroKey : Obligations.UnmaskWithZeroKey := by
  intro s raw len hlen
  have hexec := exec_unmask_bytes hlen zeroKey s
  rw [unmaskBytes_zeroKey] at hexec
  exact hexec

end Sys2Proof.Machine
end

section
/-! PROOFS. `Q` and its operations: DECODE appends at most one Frame and touches no other (R27, R116, R206), so FEED only appends, and
only QCLEAR, DRAIN and RESET take Frames out (R160 to R162, R230). -/

namespace Sys2Proof.Machine

open Sys2Proof

/-! ## What the parts of DECODE do to `Q` -/

/-- `t` holds the Frames `fs` and nothing else, or one Frame more behind them and a remainder as its result: an error or a refusal
comes with no Frame. -/
def OneMoreAtMost (fs : List Frame) (t : State) : Prop := t.q = fs ∨ ∃ f rem, t.q = fs ++ [f] ∧ t.result = .remainder rem

/-- The operation appends at most one Frame to `Q` and leaves the others in their places. -/
def EmitsAtMostOne (o : State → Out) : Prop := ∀ s, Ends (OneMoreAtMost s.q) (o s)

theorem raise_emitsAtMostOne (e : ErrorInfo) : EmitsAtMostOne (raise e) := fun _ => .inl rfl

theorem emitFrame_emitsAtMostOne (h : Header) (raw rem : List Byte) : EmitsAtMostOne (emitFrame h raw rem) := by
  intro s
  rcases emitFrame_cases h raw rem s with ⟨_, he⟩ | ⟨_, he⟩ <;> rw [he]
  · exact .inl rfl
  · exact .inr ⟨frameOf h raw, rem, rfl, rfl⟩

theorem acceptHeader_emitsAtMostOne (h : Header) (rest : List Byte) : EmitsAtMostOne (acceptHeader h rest) := by
  intro s
  rcases acceptHeader_cases h rest s with ⟨_, he⟩ | ⟨_, he⟩ <;> rw [he]
  · exact .inl rfl
  · exact emitFrame_emitsAtMostOne h _ _ (s.headerTaken rest)

theorem takeHeader_emitsAtMostOne (h : Header) : EmitsAtMostOne (takeHeader h) := by
  intro s
  rcases takeHeader_cases h s with ⟨_, he⟩ | ⟨_, he⟩ <;> rw [he]
  · exact .inl rfl
  · exact acceptHeader_emitsAtMostOne h s.inp s

theorem startFrame_emitsAtMostOne : EmitsAtMostOne startFrame := by
  intro s
  rcases startFrame_cases s with ⟨_, he⟩ | ⟨_, _, _, he⟩ | ⟨_, _, he⟩ | ⟨_, h, _, he⟩ <;> rw [he]
  · exact .inl rfl
  · exact .inl rfl
  · exact .inl rfl
  · exact acceptHeader_emitsAtMostOne h _ s

theorem continuePayload_emitsAtMostOne (p : PPF) : EmitsAtMostOne (continuePayload p) := by
  intro s
  rcases continuePayload_cases p s with ⟨_, he⟩ | ⟨_, he⟩ <;> rw [he]
  · exact .inl rfl
  · exact emitFrame_emitsAtMostOne _ _ _ s.ppfDestroyed

theorem decodeIn_emitsAtMostOne : EmitsAtMostOne decodeIn := by
  intro s
  cases hst : s.st with
  | idle => rw [decodeIn_header (.inl hst)]; exact startFrame_emitsAtMostOne s
  | awaitHdr => rw [decodeIn_header (.inr hst)]; exact startFrame_emitsAtMostOne s
  | awaitPay =>
    cases hp : s.ppf with
    | none => rw [decodeIn_ppfAbsent hst hp]; trivial
    | some p => rw [decodeIn_payload hst hp]; exact continuePayload_emitsAtMostOne p s
  | error => rw [decodeIn_error hst]; exact .inl rfl

theorem decodeChunk_emitsAtMostOne (chunk : List Byte) : EmitsAtMostOne (decodeChunk chunk) := by
  intro s
  by_cases hst : s.st = .error
  · rw [decodeChunk_error hst]; exact .inl rfl
  · cases hlong : chunkTooLong s.cfg chunk with
    | true => rw [decodeChunk_tooLong hst hlong]; exact .inl rfl
    | false =>
      rw [decodeChunk_accepted hst ((chunkTooLong_false_iff s chunk).mp hlong)]
      exact decodeIn_emitsAtMostOne { s with inp := chunk }

/-- A row of the byte stream has its own effect at a frame boundary, and is DECODE of its bytes elsewhere. -/
theorem deliver_emitsAtMostOne (bytes : List Byte) {f : State → Out} (hf : EmitsAtMostOne f) : EmitsAtMostOne (deliver bytes f) := by
  intro s
  by_cases hst : s.st = .idle
  · rw [deliver_idle hst]; exact hf s
  · rw [deliver_elsewhere hst]; exact decodeIn_emitsAtMostOne { s with inp := bytes ++ s.inp }

/-! ## Which Frames stay -/

/-- The Frames `fs` stand at the front of `Q`, in their order. -/
def QueueStartsWith (fs : List Frame) (s : State) : Prop := fs <+: s.q

theorem OneMoreAtMost.isPrefix {fs : List Frame} {t : State} (h : OneMoreAtMost fs t) : fs <+: t.q := by
  obtain hq | ⟨f, _, hq, _⟩ := h
  · rw [hq]
  · exact hq ▸ List.prefix_append fs [f]

theorem Ends.mono {P P' : State → Prop} {o : Out} (h : Ends P o) (hP : ∀ t, P t → P' t) : Ends P' o := by
  cases o with
  | next t => exact hP t h
  | fault f => trivial
  | refused r => trivial

/-- What stands at the front of `Q` stays there when a Frame is appended. -/
theorem EmitsAtMostOne.keeps_queue {o : State → Out} (ho : EmitsAtMostOne o) (fs : List Frame) : Keeps (QueueStartsWith fs) o := by
  intro s hs
  exact (ho s).mono fun _ ht => List.IsPrefix.trans hs ht.isPrefix

/-- FEED appends in each of its turns (R121). -/
theorem exec_feed_keeps_queue (fs : List Frame) (chunk : List Byte) : Keeps (QueueStartsWith fs) (exec (.feed chunk)) := fun s =>
  keeps_feedLoop (fun r => (decodeChunk_emitsAtMostOne r).keeps_queue fs) (fun _ _ hs => hs) (feedTurns chunk s) chunk s

/-- Of the host's operations all but QCLEAR, DRAIN and RESET keep the Frames of `Q`. -/
theorem exec_issue_keeps_queue (fs : List Frame) (op : HostOp) (hclear : op ≠ .qclear) (hdrain : op ≠ .drain) (hreset : op ≠ .reset) :
    Keeps (QueueStartsWith fs) (exec (issue op)) := by
  intro s hs
  cases op with
  | reset => exact absurd rfl hreset
  | feed chunk => exact exec_feed_keeps_queue fs chunk s hs
  | decode chunk => exact (decodeChunk_emitsAtMostOne chunk).keeps_queue fs s hs
  | qread => exact (onlyReplies_qread s).ends fun _ => hs
  | qclear => exact absurd rfl hclear
  | drain => exact absurd rfl hdrain
  | status => exact (onlyReplies_status s).ends fun _ => hs
  | unmask raw len key => exact (onlyReplies_unmask raw len key s).ends fun _ => hs
  | createFrame payload opcode fin => exact (onlyReplies_createFrame payload opcode fin s).ends fun _ => hs

/-- Every instruction but QCLEAR, DRAIN and RESET keeps the Frames of `Q` (R27, R161). -/
theorem exec_keeps_queue (fs : List Frame) {i : Instr} (hclear : i ≠ .qclear) (hdrain : i ≠ .drain) (hreset : i ≠ .reset) :
    Keeps (QueueStartsWith fs) (exec i) := by
  intro s hs
  rcases exec_kinds i s with ⟨bytes, h, he⟩ | ⟨bytes, e, he⟩ | ⟨b0, payload, he⟩ | ⟨op, rfl⟩
  · rw [he]; exact (deliver_emitsAtMostOne bytes (takeHeader_emitsAtMostOne h)).keeps_queue fs s hs
  · rw [he]; exact (deliver_emitsAtMostOne bytes (raise_emitsAtMostOne e)).keeps_queue fs s hs
  · rw [he]; exact (onlyReplies_encodeWith b0 payload s).ends fun _ => hs
  · exact exec_issue_keeps_queue fs op (fun h => hclear (congrArg issue h)) (fun h => hdrain (congrArg issue h))
      (fun h => hreset (congrArg issue h)) s hs

/-- Settles O47: the Frames in `Q` before an instruction are still at its front after it, and each of the three leaves none. -/
theorem framesLeaveOnlyByClearing : Obligations.FramesLeaveOnlyByClearing := by
  intro i s t ht
  constructor
  · intro hclear hdrain hreset
    exact (exec_keeps_queue s.q hclear hdrain hreset s List.prefix_rfl).of_eq ht
  · rintro (rfl | rfl | rfl) <;> cases ht <;> rfl

/-! ## The queue operations and STATUS -/

/-- Settles O23: QREAD delivers `Q` as its result. -/
theorem qreadReturnsTheQueue : Obligations.QreadReturnsTheQueue := fun _ => rfl

/-- Settles O24: the state change of QCLEAR writes `Q` alone. -/
theorem qclearEmptiesTheQueue : Obligations.QclearEmptiesTheQueue := fun _ => rfl

/-- Settles O25: DRAIN is QCLEAR with the result of QREAD, read before `Q` is emptied. -/
theorem drainReadsAndClears : Obligations.DrainReadsAndClears := fun _ => rfl

/-- Settles O26: the two fields of the record are `stCode` of `ST` and `errBits` of `ERR`, which are the codes of R21 and R30. -/
theorem statusReturnsTheRecord : Obligations.StatusReturnsTheRecord := fun s =>
  ⟨stCode s.st, errBits s.err, rfl, congrArg stCode, congrArg stCode, congrArg stCode, congrArg stCode,
    congrArg errBits, congrArg errBits, congrArg errBits, congrArg errBits⟩

end Sys2Proof.Machine
end

section
/-! PROOFS. Where the encoder stops: with no encoder unit (R166), and at 256 bytes (R183). -/

namespace Sys2Proof.Machine

open Sys2Proof

theorem encodeWith_absent {s : State} (h : s.cfg.encPresent = false) (b0 : Byte) (payload : List Byte) :
    encodeWith b0 payload s = .refused .encoderAbsent := by
  simp only [encodeWith, h, Bool.false_eq_true, if_false]

theorem encodeWith_tooLong {s : State} {payload : List Byte} (h : s.cfg.encPresent = true) (hlong : 256 ≤ payload.length) (b0 : Byte) :
    encodeWith b0 payload s = .next (s.reply (.refused .encodeLengthUnsupported)) := by
  simp only [encodeWith, h, hlong, if_true]

theorem exec_createFrame_absent {s : State} (h : s.cfg.encPresent = false) (payload : List Byte) (op : Nibble) (fin : Bool) :
    exec (.createFrame payload op fin) s = .refused .encoderAbsent := if_pos h

/-- Each of the four encoder rows is CREATEFRAME from its byte 0 on (R176). -/
theorem exec_encoderRow {payload : List Byte} {i : Instr}
    (hi : i ∈ [Instr.encTextFin payload, .encTextNonfin payload, .encBinFin payload, .encBinNonfin payload]) :
    ∃ b0, ∀ s, exec i s = encodeWith b0 payload s := by
  simp only [List.mem_cons, List.not_mem_nil, or_false] at hi
  rcases hi with rfl | rfl | rfl | rfl
  · exact ⟨0x81#8, fun _ => rfl⟩
  · exact ⟨0x01#8, fun _ => rfl⟩
  · exact ⟨0x82#8, fun _ => rfl⟩
  · exact ⟨0x02#8, fun _ => rfl⟩

/-- Settles O19: CREATEFRAME tests for the unit itself, and the rows stop where the part they share does, whatever byte 0 is. -/
theorem encoderLimits : Obligations.EncoderLimits := by
  intro s payload
  constructor
  · intro habsent
    refine ⟨exec_createFrame_absent habsent payload, fun i hi => ?_⟩
    obtain ⟨b0, he⟩ := exec_encoderRow hi
    rw [he, encodeWith_absent habsent]
  · intro hpresent hlong i hi
    obtain ⟨b0, he⟩ := exec_encoderRow hi
    rw [he, encodeWith_tooLong hpresent hlong]
    rfl

end Sys2Proof.Machine
end

section
/-! PROOFS. What the encoder returns (R175 to R180), and the header decoder's reading of what it returns for 127 to 255 bytes, which
its length field of one byte mis-frames (R182). -/

namespace Sys2Proof.Machine

open Sys2Proof

/-! ## Bytes 0 and 1 as numbers -/

theorem encoderByte0_eq_ofNat (op : Nibble) (fin : Bool) :
    encoderByte0 op fin = BitVec.ofNat 8 ((if fin then 128 else 0) + op.toNat) := by
  revert op fin; decide

/-- The encoder's byte 0 is the byte 0 of a legal header (R84, R176). -/
theorem encoderByte0_eq_byte0 (op : Nibble) (fin : Bool) : encoderByte0 op fin = byte0 fin op := by
  revert op fin; decide

theorem ofNat_eq_byte1_plain {n : Nat} (h : n < 128) : BitVec.ofNat 8 n = byte1 false (BitVec.ofNat 7 n) := by
  revert n; decide

/-- A length of 128 or more sets the bit of byte 1 that the decoder reads as MASK (R82, R182). -/
theorem ofNat_eq_byte1_masked {n : Nat} (h : 128 ≤ n) (h' : n < 256) : BitVec.ofNat 8 n = byte1 true (BitVec.ofNat 7 (n - 128)) := by
  have hall : ∀ k < 128, BitVec.ofNat 8 (k + 128) = byte1 true (BitVec.ofNat 7 k) := by decide
  rw [← hall (n - 128) (by omega), Nat.sub_add_cancel h]

/-! ## The encoder's answers -/

/-- Below 256 bytes the encoder returns byte 0, the length field and the payload (R177, R179). -/
theorem encodeWith_bytes {s : State} {payload : List Byte} (h : s.cfg.encPresent = true) (hshort : payload.length < 256) (b0 : Byte) :
    encodeWith b0 payload s = .next (s.reply (.bytes (encoderBytes b0 payload))) := by
  simp only [encodeWith, h, Nat.not_le.mpr hshort, if_true, if_false]

/-- Settles O17: each row is the encoder from its own byte 0 on. -/
theorem encoderRowsReturnTheirFrame : Obligations.EncoderRowsReturnTheirFrame := by
  intro s payload hpresent hshort p hp
  have hrow : exec p.1 s = encodeWith p.2 payload s := by
    simp only [List.mem_cons, List.not_mem_nil, or_false] at hp
    rcases hp with rfl | rfl | rfl | rfl <;> rfl
  exact hrow.trans (encodeWith_bytes hpresent hshort p.2)

/-- An opcode other than text and binary is refused before the length is looked at (R175, R181). -/
theorem exec_createFrame_unsupported {s : State} (h : s.cfg.encPresent = true) {op : Nibble} (h1 : op ≠ 0x1#4) (h2 : op ≠ 0x2#4)
    (payload : List Byte) (fin : Bool) :
    exec (.createFrame payload op fin) s = .next (s.reply (.refused .encodeOpcodeUnsupported)) :=
  (if_neg (by simp [h])).trans (if_pos ⟨h1, h2⟩)

/-- With opcode text or binary CREATEFRAME is the encoder from byte 0 on (R175). -/
theorem exec_createFrame_supported {s : State} (h : s.cfg.encPresent = true) {op : Nibble} (hop : op = 0x1#4 ∨ op = 0x2#4)
    (payload : List Byte) (fin : Bool) : exec (.createFrame payload op fin) s = encodeWith (encoderByte0 op fin) payload s :=
  (if_neg (by simp [h])).trans (if_neg (by tauto))

/-- Settles O18: the opcode check, and then the encoder's two answers. -/
theorem createFrameResult : Obligations.CreateFrameResult := by
  intro s payload op fin hpresent
  refine ⟨fun h1 h2 => exec_createFrame_unsupported hpresent h1 h2 payload fin, fun hop hlong => ?_, fun hop hshort => ?_⟩
  · exact (exec_createFrame_supported hpresent hop payload fin).trans (encodeWith_tooLong hpresent hlong _)
  · rw [exec_createFrame_supported hpresent hop, encodeWith_bytes hpresent hshort, encoderByte0_eq_ofNat]
    rfl

/-! ## Payloads of 127 to 255 bytes -/

/-- The first bytes of a sequence that is long enough, by their positions. -/
theorem take_eq_map_getD {bs : List Byte} {n : Nat} (h : n ≤ bs.length) :
    bs.take n = (List.range n).map fun i => bs.getD i 0#8 := by
  refine List.ext_getElem (by simp [h]) fun i hi _ => ?_
  have hlt : i < bs.length := by rw [List.length_take] at hi; omega
  simp [hlt]

/-- The decoder reads as header whatever row the first bytes of the payload complete bytes 0 and 1 to. -/
theorem decodeHeader_of_taken {i : Instr} {b0 b1 : Byte} {payload : List Byte} {n : Nat} (hwf : i.wf = true)
    (hrow : headerRow i = true) (hi : encode i = b0 :: b1 :: payload.take n) :
    decodeHeader (b0 :: b1 :: payload) = .instr i (payload.drop n) := by
  have hd := formatRowsRoundTrip i (payload.drop n) hwf hrow
  rwa [hi, List.cons_append, List.cons_append, List.take_append_drop] at hd

/-- Settles O54: byte 1 is MASK and LEN7 of another format, and the payload's first bytes are the encoding of that format's fields. -/
theorem longEncodedFramesAreMisframed : Obligations.LongEncodedFramesAreMisframed := by
  intro s payload op fin hpresent hop hmin hmax len at' hi lo
  have hresult := (createFrameResult s payload op fin hpresent).2.2 hop (by omega)
  rw [if_neg (by omega)] at hresult
  refine ⟨_, hresult, rfl, ?_⟩
  rw [← encoderByte0_eq_ofNat, encoderByte0_eq_byte0]
  have hhi : bytes32 hi = [at' 0, at' 1, at' 2, at' 3] := bytes32_be32 _ _ _ _
  have hlo : bytes32 lo = [at' 4, at' 5, at' 6, at' 7] := bytes32_be32 _ _ _ _
  have hext : bytes16 (at' 0 ++ at' 1) = [at' 0, at' 1] := bytes16_be16 _ _
  have htake (n : Nat) (hn : n ≤ 127) : payload.take n = (List.range n).map at' := take_eq_map_getD (hn.trans hmin)
  have hhalves : payload.take 8 = bytes32 hi ++ bytes32 lo := by rw [hhi, hlo]; exact htake 8 (by omega)
  refine ⟨fun (hlen : payload.length = 127) hzero => ?_, fun (hlen : payload.length = 127) hne => ?_,
    fun (hlow : 128 ≤ payload.length) (hhigh : payload.length ≤ 253) => ?_, fun (hlen : payload.length = 254) => ?_,
    fun (hlen : payload.length = 255) hzero => ?_, fun (hlen : payload.length = 255) hne => ?_⟩
  · refine decodeHeader_of_taken rfl rfl ?_
    rw [hhalves, hzero, hlen]
    rfl
  · refine decodeHeader_of_taken (decide_eq_true hne) rfl ?_
    rw [hhalves, hlen]
    rfl
  · have hs7 : (BitVec.ofNat 7 (payload.length - 128)).toNat ≤ 125 := by rw [BitVec.toNat_ofNat, Nat.mod_eq_of_lt] <;> omega
    refine decodeHeader_of_taken (by rw [Instr.wf, decide_eq_true hs7]) rfl ?_
    rw [htake 4 (by omega), ofNat_eq_byte1_masked hlow (by omega)]
    rfl
  · refine decodeHeader_of_taken rfl rfl ?_
    rw [htake 6 (by omega), hlen, encode, headerBytes, formBytes, hext]
    rfl
  · refine decodeHeader_of_taken (n := 12) rfl rfl ?_
    rw [htake 12 (by omega), hlen, encode, headerBytes, formBytes, ← hzero, hhi, hlo]
    rfl
  · refine decodeHeader_of_taken (decide_eq_true hne) rfl ?_
    rw [hhalves, hlen]
    rfl

end Sys2Proof.Machine
end

section
/-! PROOFS. The round trip (R185): for 0 to 126 bytes the encoder's output is a complete frame as the decoder reads it, of format E16U
at 126 and S7U below, so FEED takes it as a stream of one. -/

namespace Sys2Proof.Machine

open Sys2Proof

/-- The format the encoder's length field makes for `n` bytes, `n` at most 126 (R177, R179). -/
def encodedForm (n : Nat) : HdrForm := if n = 126 then .e16u 126#16 else .s7u (BitVec.ofNat 7 n)

/-- The frame the encoder sends for a payload of at most 126 bytes. -/
def encodedFrame (payload : List Byte) (op : Nibble) (fin : Bool) : WireFrame := ⟨fin, op, encodedForm payload.length, payload⟩

/-- At 126 the length is extended; below it is LEN7 itself. -/
theorem encodedForm_cases {n : Nat} (h : n ≤ 126) :
    (n = 126 ∧ encodedForm n = .e16u 126#16) ∨ (n ≤ 125 ∧ encodedForm n = .s7u (BitVec.ofNat 7 n)) := by
  by_cases h126 : n = 126
  · exact .inl ⟨h126, if_pos h126⟩
  · exact .inr ⟨by omega, if_neg h126⟩

theorem encodedForm_wf {n : Nat} (h : n ≤ 126) : (encodedForm n).wf = true := by
  rcases encodedForm_cases h with ⟨-, hf⟩ | ⟨hle, hf⟩ <;> rw [hf]
  · rfl
  · refine decide_eq_true ?_
    rw [BitVec.toNat_ofNat, Nat.mod_eq_of_lt] <;> omega

section
variable {payload : List Byte} (hlen : payload.length ≤ 126) (op : Nibble) (fin : Bool)
include hlen

/-- The header the decoder assembles: unmasked, with the payload's own length (R85, R86). -/
theorem wireHeader_encodedFrame :
    (wireHeader (encodedFrame payload op fin)).mask = false ∧
    (wireHeader (encodedFrame payload op fin)).payloadLen = BitVec.ofNat 32 payload.length := by
  rw [wireHeader, encodedFrame]
  rcases encodedForm_cases hlen with ⟨h126, hf⟩ | ⟨hle, hf⟩ <;> rw [hf]
  · exact ⟨rfl, by rw [h126]; rfl⟩
  · have hfits : payload.length < 2 ^ 7 := by omega
    exact ⟨rfl, BitVec.setWidth_ofNat_of_le_of_lt (by omega) hfits⟩

/-- The encoder's output is the header of that frame and its payload (R177, R179, R180). -/
theorem encoderBytes_eq_wireBytes :
    encoderBytes (encoderByte0 op fin) payload = wireBytes (encodedFrame payload op fin) := by
  rw [encoderByte0_eq_byte0, wireBytes, encodedFrame, headerBytes]
  rcases encodedForm_cases hlen with ⟨h126, hf⟩ | ⟨hle, hf⟩ <;> rw [hf, encoderBytes]
  · rw [if_pos h126]
    rfl
  · rw [if_neg (by omega), ofNat_eq_byte1_plain (by omega)]
    rfl

/-- The output length of R180. -/
theorem wireBytes_encodedFrame_length :
    (wireBytes (encodedFrame payload op fin)).length = 2 + (if payload.length = 126 then 2 else 0) + payload.length := by
  rw [← encoderBytes_eq_wireBytes hlen, encoderBytes]
  split_ifs <;> simp only [List.length_append, List.length_cons, List.length_nil]

theorem encodedFrame_wireOk {cfg : Config} (hcap : payload.length ≤ cfg.payloadCap) : WireOk cfg (encodedFrame payload op fin) := by
  have hpayloadLen : (wireHeader (encodedFrame payload op fin)).payloadLen.toNat = payload.length := by
    rw [(wireHeader_encodedFrame hlen op fin).2, BitVec.toNat_ofNat, Nat.mod_eq_of_lt (by omega)]
  exact { form := encodedForm_wf hlen, length := hpayloadLen.symm, cap := hpayloadLen.trans_le hcap }

theorem wireDecoded_encodedFrame :
    wireDecoded (encodedFrame payload op fin) = ⟨fin, false, false, false, op, false, BitVec.ofNat 32 payload.length, payload,
      BitVec.ofNat 33 (wireBytes (encodedFrame payload op fin)).length⟩ := by
  obtain ⟨hmask, hpayloadLen⟩ := wireHeader_encodedFrame hlen op fin
  rw [wireDecoded, hmask, hpayloadLen]
  rfl

end

/-- Settles O53: the output is the frame's bytes, and by O50 a FEED of one complete frame queues the Frame it decodes to. -/
theorem encodedFrameDecodesBack : Obligations.EncodedFrameDecodesBack := by
  intro s payload op fin hi hst hq hroom hpresent hlen hcap hop hchunk
  let w := encodedFrame payload op fin
  have hlength : (wireBytes w).length = _ := wireBytes_encodedFrame_length hlen op fin
  have hencoded : exec (.createFrame payload op fin) s = .next (s.reply (.bytes (wireBytes w))) := by
    rw [exec_createFrame_supported hpresent hop, encodeWith_bytes hpresent (by omega), encoderBytes_eq_wireBytes hlen]
  have hstream : streamBytes [w] = wireBytes w := List.append_nil _
  have haccepts : Accepts s (wireBytes w) := by
    intro m hm
    have := hchunk m hm
    split_ifs at hlength <;> omega
  have hfed := streamOfFramesIsQueuedInOrder (s.reply (.bytes (wireBytes w))) [w] (hi.replied _) hst hroom
    (List.forall_mem_singleton.mpr (encodedFrame_wireOk hlen op fin hcap)) (hstream ▸ haccepts)
  rw [hstream, State.reply_q, hq, List.map_singleton, wireDecoded_encodedFrame hlen] at hfed
  exact ⟨wireBytes w, _, hencoded, rfl, hlength, hfed⟩

end Sys2Proof.Machine
end

section
/-! PROOFS. The limits of a legal header: a length above `PAYLOAD_CAP`, and a frame that completes while `Q` is full, in one DECODE or
over several (R202, R203, R206). -/

namespace Sys2Proof.Machine

open Sys2Proof

/-- A length above `PAYLOAD_CAP` is unsupported, whatever stands in `IN` (R202). -/
theorem takeHeader_unsupported {h : Header} {s : State} (hcap : s.cfg.payloadCap < h.payloadLen.toNat) :
    takeHeader h s = .next (s.raised (.unsupportedLength 0#32 h.payloadLen)) := if_pos hcap

/-- Settles O12: at a frame boundary a format row is its header taken, and either limit raises its error there. -/
theorem formatRowsRaiseAtTheLimits : Obligations.FormatRowsRaiseAtTheLimits := by
  intro s fin op f hs _
  rw [exec_hdrInstr_idle hs]
  exact ⟨takeHeader_unsupported, fun hcap hlen hfull => takeHeader_overflows ((queueFull_true_iff s).mpr hfull) hcap hlen⟩

/-- Settles O32: of what DECODE can do with a chunk that completes the pending frame, a full queue leaves the error. -/
theorem decodeIntoAFullQueueRaises : Obligations.DecodeIntoAFullQueueRaises := by
  intro s p chunk c hs hp ha hcap hlen hfull
  have hq : queueFull s = true := (queueFull_true_iff s).mpr ⟨c, hcap, hlen⟩
  rcases decodeChunk_payload_cases hs hp ha with ⟨hshort, -⟩ | ⟨-, -, hd⟩ | ⟨-, hroom, -⟩
  · omega
  · exact hd
  · rw [hq] at hroom; cases hroom

end Sys2Proof.Machine
end

section
/-! PROOFS. Every step completes but the encoder's where the unit is absent (R166, R204, R242). -/

namespace Sys2Proof.Machine

open Sys2Proof

/-- UNMASK completes in every state (R150, R155). -/
theorem exec_unmask_completes (raw : List Byte) (len : BitVec 32) (key : Key) (s : State) :
    ∃ t, exec (.unmask raw len key) s = .next t := by
  rcases Nat.lt_or_ge raw.length len.toNat with hshort | hlong
  · exact ⟨_, exec_unmask_short hshort key s⟩
  · exact ⟨_, exec_unmask_bytes hlong key s⟩

theorem encodeWith_completes {s : State} (h : s.cfg.encPresent = true) (b0 : Byte) (payload : List Byte) :
    ∃ t, encodeWith b0 payload s = .next t := by
  rcases Nat.lt_or_ge payload.length 256 with hshort | hlong
  · exact ⟨_, encodeWith_bytes h hshort b0⟩
  · exact ⟨_, encodeWith_tooLong h hlong b0⟩

/-- With the encoder unit CREATEFRAME completes, be it with a refusal (R187). -/
theorem exec_createFrame_completes {s : State} (h : s.cfg.encPresent = true) (payload : List Byte) (op : Nibble) (fin : Bool) :
    ∃ t, exec (.createFrame payload op fin) s = .next t := by
  by_cases hop : op = 0x1#4 ∨ op = 0x2#4
  · rw [exec_createFrame_supported h hop]
    exact encodeWith_completes h _ payload
  · obtain ⟨h1, h2⟩ := not_or.mp hop
    exact ⟨_, exec_createFrame_unsupported h h1 h2 payload fin⟩

/-- Every host operation completes from a state that meets the invariant, but CREATEFRAME without the unit. -/
theorem exec_issue_completes {s : State} (hi : Inv s) (op : HostOp) :
    (∃ t, exec (issue op) s = .next t) ∨
    s.cfg.encPresent = false ∧ (∃ payload opcode fin, op = .createFrame payload opcode fin) ∧
      exec (issue op) s = .refused .encoderAbsent := by
  cases op with
  | reset | qread | qclear | drain | status => exact .inl ⟨_, rfl⟩
  | feed chunk =>
    obtain ⟨t, ht, -⟩ := feedTerminates s chunk hi
    exact .inl ⟨t, ht⟩
  | decode chunk =>
    obtain ⟨t, ht, -⟩ := decodeChunk_result hi chunk
    exact .inl ⟨t, ht⟩
  | unmask raw len key => exact .inl (exec_unmask_completes raw len key s)
  | createFrame payload opcode fin =>
    cases hunit : s.cfg.encPresent with
    | true => exact .inl (exec_createFrame_completes hunit payload opcode fin)
    | false => exact .inr ⟨rfl, ⟨payload, opcode, fin, rfl⟩, exec_createFrame_absent hunit payload opcode fin⟩

/-- Settles O43: a step is the oldest host operation, or none. -/
theorem everyStepCompletes : Obligations.EveryStepCompletes := by
  intro s hi
  cases hpending : s.pending with
  | nil => exact .inl ⟨s, step_of_pending_nil hpending⟩
  | cons op ops =>
    rw [step_of_pending_cons hpending]
    refine (exec_issue_completes (hi.withPending ops) op).imp_right ?_
    rintro ⟨habsent, ⟨payload, opcode, fin, rfl⟩, hrefused⟩
    exact ⟨habsent, ⟨payload, opcode, fin, ops, rfl⟩, hrefused⟩

end Sys2Proof.Machine
end

section
/-! PROOFS. How an instruction ends: DECODE with an error, a refusal in ERROR, or a remainder; every other instruction but FEED, which
is told by its turns (R121), with an answer that is no error. -/

namespace Sys2Proof.Machine

open Sys2Proof

/-! ## The endings of DECODE -/

/-- What an error says of the state it leaves: the closure status code is the configured one, and an overflow leaves `Q` full (R203,
R210). -/
def ErrorCause (t : State) : ErrorInfo → Prop
  | .protocol _ code => code = t.cfg.protocolErrorCloseCode
  | .unsupportedLength _ _ => True
  | .queueOverflow => queueFull t = true

/-- How DECODE of accepted bytes ends from `s` (R110, R119, R206). -/
inductive DecodeEnding (s : State) : State → Prop where
  | raised {e : ErrorInfo} (live : s.st ≠ .error) (cause : ErrorCause (s.raised e) e) : DecodeEnding s (s.raised e)
  | dead (hs : s.st = .error) : DecodeEnding s (s.answer (.refused .dead))
  | remainder {t : State} {rem : List Byte} (live : s.st ≠ .error) (alive : t.st ≠ .error) (hr : t.result = .remainder rem) :
      DecodeEnding s t

/-- The ending does not tell what stood in `IN`. -/
theorem DecodeEnding.of_inp {s t : State} {bytes : List Byte} (h : DecodeEnding { s with inp := bytes } t) : DecodeEnding s t := by
  cases h with
  | raised live cause => exact .raised live cause
  | dead hs => exact .dead hs
  | remainder live alive hr => exact .remainder live alive hr

section
variable {s : State} (live : s.st ≠ .error)
include live

/-- EmitFrame in a state `u` that an error leaves as it leaves `s`. -/
theorem emitFrame_ending {u : State} (hu : u.raised .queueOverflow = s.raised .queueOverflow) (h : Header) (raw rem : List Byte) :
    Ends (DecodeEnding s) (emitFrame h raw rem u) := by
  rcases emitFrame_cases h raw rem u with ⟨hfull, he⟩ | ⟨_, he⟩ <;> rw [he]
  · have hcause : ErrorCause (u.raised .queueOverflow) .queueOverflow := hfull
    rw [hu] at hcause ⊢
    exact .raised live hcause
  · exact .remainder live (by simp) rfl

theorem acceptHeader_ending (h : Header) (rest : List Byte) : Ends (DecodeEnding s) (acceptHeader h rest s) := by
  rcases acceptHeader_cases h rest s with ⟨_, he⟩ | ⟨_, he⟩ <;> rw [he]
  · exact .remainder live (by simp) rfl
  · exact emitFrame_ending live (u := s.headerTaken rest) rfl h _ _

theorem takeHeader_ending (h : Header) : Ends (DecodeEnding s) (takeHeader h s) := by
  rcases takeHeader_cases h s with ⟨_, he⟩ | ⟨_, he⟩ <;> rw [he]
  · exact .raised live trivial
  · exact acceptHeader_ending live h s.inp

theorem startFrame_ending : Ends (DecodeEnding s) (startFrame s) := by
  rcases startFrame_cases s with ⟨_, he⟩ | ⟨_, e, hp, he⟩ | ⟨_, _, he⟩ | ⟨_, h, _, he⟩ <;> rw [he]
  · exact .remainder live live rfl
  · rcases parseHeader_error hp with rfl | ⟨hi, lo, rfl⟩
    · exact .raised live rfl
    · exact .raised live trivial
  · exact .remainder live (by simp) rfl
  · exact acceptHeader_ending live h _

theorem continuePayload_ending (p : PPF) : Ends (DecodeEnding s) (continuePayload p s) := by
  rcases continuePayload_cases p s with ⟨_, he⟩ | ⟨_, he⟩ <;> rw [he]
  · exact .remainder live live rfl
  · exact emitFrame_ending live (u := s.ppfDestroyed) rfl _ _ _

end

theorem decodeIn_ending (s : State) : Ends (DecodeEnding s) (decodeIn s) := by
  cases hst : s.st with
  | idle => rw [decodeIn_header (.inl hst)]; exact startFrame_ending (by simp [hst])
  | awaitHdr => rw [decodeIn_header (.inr hst)]; exact startFrame_ending (by simp [hst])
  | awaitPay =>
    cases hp : s.ppf with
    | none => rw [decodeIn_ppfAbsent hst hp]; trivial
    | some p => rw [decodeIn_payload hst hp]; exact continuePayload_ending (by simp [hst]) p
  | error => rw [decodeIn_error hst]; exact .dead hst

theorem decodeChunk_ending {s : State} {chunk : List Byte} (ha : Accepts s chunk) :
    Ends (DecodeEnding s) (decodeChunk chunk s) := by
  rw [decodeChunk_eq_decodeIn ha]
  exact (decodeIn_ending { s with inp := chunk }).mono fun _ => DecodeEnding.of_inp

/-- A row of the byte stream has its own effect at a frame boundary, and is DECODE of its bytes elsewhere. -/
theorem deliver_ending {s : State} {f : State → Out} (hf : s.st ≠ .error → Ends (DecodeEnding s) (f s)) (bytes : List Byte) :
    Ends (DecodeEnding s) (deliver bytes f s) := by
  by_cases hst : s.st = .idle
  · rw [deliver_idle hst]; exact hf (by simp [hst])
  · rw [deliver_elsewhere hst]; exact (decodeIn_ending { s with inp := bytes ++ s.inp }).mono fun _ => DecodeEnding.of_inp

theorem deliver_raise_ending {s : State} {e : ErrorInfo} (cause : ErrorCause (s.raised e) e) (bytes : List Byte) :
    Ends (DecodeEnding s) (deliver bytes (raise e) s) :=
  deliver_ending (f := raise e) (fun live => DecodeEnding.raised live cause) bytes

/-- Every row of the byte stream ends as a DECODE does (R110, R206). -/
theorem exec_row_ending {i : Instr} (hrow : headerRow i = true ∨ opcodeRow i = true) (s : State) :
    Ends (DecodeEnding s) (exec i s) := by
  have hrow' : (∃ fin op f, i = hdrInstr fin op f ∨ i = frameInstr fin op f) ∨
      (∃ b, i = .illRsv1 b ∨ i = .illRsv2 b ∨ i = .illRsv3 b) ∨ ∃ fin op mask hi lo, i = .illE64Hi fin op mask hi lo := by
    rcases hrow with hrow | hrow
    · exact (headerRow_cases i hrow).imp_left fun ⟨fin, op, f, hi⟩ => ⟨fin, op, f, .inl hi⟩
    · exact (opcodeRow_cases i hrow).imp_left fun ⟨fin, op, f, hi⟩ => ⟨fin, op, f, .inr hi⟩
  rcases hrow' with ⟨fin, op, f, rfl | rfl⟩ | ⟨b, hb⟩ | ⟨fin, op, mask, hi, lo, rfl⟩
  · rw [exec_hdrInstr]; exact deliver_ending (takeHeader_ending · _) _
  · rw [exec_frameInstr]; exact deliver_ending (takeHeader_ending · _) _
  · have hcause : ErrorCause (s.raised (.protocol b s.cfg.protocolErrorCloseCode)) (.protocol b s.cfg.protocolErrorCloseCode) := rfl
    rcases hb with rfl | rfl | rfl <;> exact deliver_raise_ending hcause _
  · exact deliver_raise_ending (e := .unsupportedLength hi lo) trivial _

/-! ## The endings of the other instructions -/

/-- The operation only delivers a result, and that is no error: outside DECODE there is none to raise (R200). -/
def Replied (s t : State) : Prop := ∃ r, (∀ e, r ≠ .error e) ∧ t = s.reply r

theorem replied_reply {s : State} {r : Result} (hr : ∀ e, r ≠ .error e) : Replied s (s.reply r) := ⟨r, hr, rfl⟩

theorem exec_unmask_replied (raw : List Byte) (len : BitVec 32) (key : Key) (s : State) :
    Ends (Replied s) (exec (.unmask raw len key) s) := by
  rcases Nat.lt_or_ge raw.length len.toNat with hshort | hlong
  · rw [exec_unmask_short hshort]; exact replied_reply nofun
  · rw [exec_unmask_bytes hlong]; exact replied_reply nofun

theorem encodeWith_replied (b0 : Byte) (payload : List Byte) (s : State) : Ends (Replied s) (encodeWith b0 payload s) := by
  cases hunit : s.cfg.encPresent with
  | false => rw [encodeWith_absent hunit]; trivial
  | true =>
    rcases Nat.lt_or_ge payload.length 256 with hshort | hlong
    · rw [encodeWith_bytes hunit hshort]; exact replied_reply nofun
    · rw [encodeWith_tooLong hunit hlong]; exact replied_reply nofun

theorem exec_createFrame_replied (payload : List Byte) (op : Nibble) (fin : Bool) (s : State) :
    Ends (Replied s) (exec (.createFrame payload op fin) s) := by
  cases hunit : s.cfg.encPresent with
  | false => rw [exec_createFrame_absent hunit]; trivial
  | true =>
    by_cases hop : op = 0x1#4 ∨ op = 0x2#4
    · rw [exec_createFrame_supported hunit hop]; exact encodeWith_replied _ payload s
    · obtain ⟨h1, h2⟩ := not_or.mp hop
      rw [exec_createFrame_unsupported hunit h1 h2]; exact replied_reply nofun

/-- How an instruction other than FEED ends from `s` (R100, R166). -/
inductive Ending (i : Instr) (s : State) : State → Prop where
  | decoded {t : State} (h : DecodeEnding s t) : Ending i s t
  | tooLong : Ending i s (s.answer (.refused .chunkTooLong))
  | replied {t : State} (h : Replied s t) : Ending i s t
  | cleared {r : Result} (hr : ¬ Stops r) : Ending i s (s.cleared.reply r)
  | restarted (hreset : i = .reset) : Ending i s s.restarted

/-- An instruction is a row of the byte stream, an encoder row, or a host operation (R100). -/
theorem instr_kinds (i : Instr) :
    (headerRow i = true ∨ opcodeRow i = true) ∨
    (∃ payload, i ∈ [Instr.encTextFin payload, .encTextNonfin payload, .encBinFin payload, .encBinNonfin payload]) ∨
    ∃ op, i = issue op := by
  cases i with
  | encTextFin p | encTextNonfin p | encBinFin p | encBinNonfin p => exact .inr (.inl ⟨p, by simp⟩)
  | reset => exact .inr (.inr ⟨.reset, rfl⟩)
  | feed chunk => exact .inr (.inr ⟨.feed chunk, rfl⟩)
  | decode chunk => exact .inr (.inr ⟨.decode chunk, rfl⟩)
  | qread => exact .inr (.inr ⟨.qread, rfl⟩)
  | qclear => exact .inr (.inr ⟨.qclear, rfl⟩)
  | drain => exact .inr (.inr ⟨.drain, rfl⟩)
  | status => exact .inr (.inr ⟨.status, rfl⟩)
  | unmask raw len key => exact .inr (.inr ⟨.unmask raw len key, rfl⟩)
  | createFrame p op fin => exact .inr (.inr ⟨.createFrame p op fin, rfl⟩)
  | _ => exact .inl (by simp [headerRow, opcodeRow])

theorem decode_ending (chunk : List Byte) (s : State) : Ends (Ending (.decode chunk) s) (exec (.decode chunk) s) := by
  by_cases ha : Accepts s chunk
  · exact (decodeChunk_ending ha).mono fun _ => .decoded
  have hlong : chunkTooLong s.cfg chunk = true := by
    rwa [← chunkTooLong_false_iff, Bool.not_eq_false] at ha
  by_cases hst : s.st = .error
  · rw [show exec (.decode chunk) s = _ from decodeChunk_error hst chunk]
    exact .decoded (.dead hst)
  · rw [show exec (.decode chunk) s = _ from decodeChunk_tooLong hst hlong]
    exact .tooLong

/-- Everything an instruction other than FEED can end with. -/
theorem exec_ending {i : Instr} (hfeed : ∀ chunk, i ≠ .feed chunk) (s : State) : Ends (Ending i s) (exec i s) := by
  rcases instr_kinds i with hrow | ⟨payload, henc⟩ | ⟨op, rfl⟩
  · exact (exec_row_ending hrow s).mono fun _ => .decoded
  · obtain ⟨b0, he⟩ := exec_encoderRow henc
    rw [he]; exact (encodeWith_replied b0 payload s).mono fun _ => .replied
  · cases op with
    | reset => exact .restarted rfl
    | feed chunk => exact absurd rfl (hfeed chunk)
    | decode chunk => exact decode_ending chunk s
    | qread | status => exact .replied (replied_reply nofun)
    | qclear | drain => exact .cleared (by simp [Stops])
    | unmask raw len key => exact (exec_unmask_replied raw len key s).mono fun _ => .replied
    | createFrame payload opcode fin => exact (exec_createFrame_replied payload opcode fin s).mono fun _ => .replied

end Sys2Proof.Machine
end

section
/-! PROOFS. ERROR: RESET alone leaves it (R208), and what an instruction that enters it leaves behind (R206), a FEED being told by
its turns (R121). -/

namespace Sys2Proof.Machine

open Sys2Proof

/-! ## ERROR is left by RESET alone -/

/-- Settles O44: FEED is refused in its first turn, and of the other endings those of DECODE but its refusal need a live decoder. -/
theorem onlyResetLeavesError : Obligations.OnlyResetLeavesError := by
  intro i s t hs ht
  refine ⟨fun hreset => ?_, ?_⟩
  · by_cases hfeed : ∃ chunk, i = .feed chunk
    · obtain ⟨chunk, rfl⟩ := hfeed
      rw [(decodeAndFeedRefusals s chunk (.feed chunk) (by simp)).1 hs] at ht
      cases ht
      exact ⟨hs, rfl, rfl, rfl, nofun⟩
    · cases (exec_ending (not_exists.mp hfeed) s).of_eq ht with
      | decoded h =>
        cases h with
        | raised live _ => exact absurd hs live
        | dead _ => exact ⟨hs, rfl, rfl, rfl, nofun⟩
        | remainder live _ _ => exact absurd hs live
      | tooLong => exact ⟨hs, rfl, rfl, rfl, nofun⟩
      | replied h => obtain ⟨r, hr, rfl⟩ := h; exact ⟨hs, rfl, rfl, rfl, hr⟩
      | cleared hr => exact ⟨hs, rfl, rfl, rfl, fun e he => hr (.inl ⟨e, he⟩)⟩
      | restarted h => exact absurd h hreset
  · rintro rfl
    cases ht
    exact ⟨rfl, rfl, rfl⟩

/-! ## The entry of an error -/

/-- An instruction other than FEED that ends with an error has raised it from the state it found (R206). -/
theorem exec_error_raised {i : Instr} {s t : State} {e : ErrorInfo} (hfeed : ∀ chunk, i ≠ .feed chunk) (ht : exec i s = .next t)
    (he : t.result = .error e) : t = s.raised e ∧ ErrorCause t e := by
  cases (exec_ending hfeed s).of_eq ht with
  | decoded h =>
    cases h with
    | raised _ cause => cases he; exact ⟨rfl, cause⟩
    | dead _ => cases he
    | remainder _ _ hr => rw [hr] at he; cases he
  | tooLong => cases he
  | replied h => obtain ⟨r, hr, rfl⟩ := h; exact absurd he (hr e)
  | cleared hr => exact absurd (.inl ⟨e, he⟩) hr
  | restarted _ => cases he

/-- A loop that ends with an error ends with the DECODE of one of its turns (R121). -/
theorem feedLoop_error_turn {n : Nat} {r : List Byte} {s t : State} {e : ErrorInfo} (ht : feedLoop n r s = .next t)
    (he : t.result = .error e) : ∃ r' u, FeedReaches r s r' u ∧ exec (.decode r') u = .next t := by
  induction n generalizing r s with
  | zero => cases ht
  | succ n ih =>
    cases hd : decodeChunk r s with
    | fault f => simp only [feedLoop, hd] at ht; cases ht
    | refused f => simp only [feedLoop, hd] at ht; cases ht
    | next v =>
      by_cases hrem : ∃ l, v.result = .remainder l
      · obtain ⟨l, hl⟩ := hrem
        cases l with
        | nil => rw [feedLoop_done hd hl] at ht; cases ht; cases he
        | cons b bs =>
          rw [feedLoop_more hd hl] at ht
          obtain ⟨r', u, hreach, hlast⟩ := ih ht
          exact ⟨r', u, .turn hd hl hreach, hlast⟩
      · rw [feedLoop_stop hd (not_exists.mp hrem)] at ht
        cases ht
        exact ⟨r, s, .start r s, hd⟩

/-- From a turn of a loop on, the loop is one of fewer turns (R121). -/
theorem feedLoop_of_feedReaches {r r' : List Byte} {s u t : State} (hreach : FeedReaches r s r' u) {n : Nat}
    (ht : feedLoop n r s = .next t) : ∃ m, feedLoop m r' u = .next t := by
  induction hreach generalizing n with
  | start r s => exact ⟨n, ht⟩
  | turn decoded left _ ih =>
    cases n with
    | zero => cases ht
    | succ n =>
      rw [feedLoop_more decoded left] at ht
      exact ih ht

/-- A FEED keeps every Frame that a turn of it found in `Q` (R27, R121). -/
theorem feedReaches_queue_prefix {chunk r : List Byte} {s u t : State} (hreach : FeedReaches chunk s r u)
    (ht : exec (.feed chunk) s = .next t) : u.q <+: t.q := by
  obtain ⟨m, hm⟩ := feedLoop_of_feedReaches hreach ht
  have hkeeps : Keeps (QueueStartsWith u.q) (feedLoop m r) :=
    keeps_feedLoop (fun c => (decodeChunk_emitsAtMostOne c).keeps_queue u.q) (fun _ _ hs => hs) m r
  exact (hkeeps u List.prefix_rfl).of_eq hm

/-- Whatever instruction ends with an error has raised it from a state `u`: the one it found, or, in a FEED, the one its last turn
found (R206). -/
theorem error_raised_from {i : Instr} {s t : State} {e : ErrorInfo} (ht : exec i s = .next t) (he : t.result = .error e) :
    ∃ u, t = u.raised e ∧ ErrorCause t e ∧ ((∀ chunk, i ≠ .feed chunk) → u = s) ∧
      ∀ chunk, i = .feed chunk → ∃ r, FeedReaches chunk s r u ∧ exec (.decode r) u = .next t := by
  by_cases hfeed : ∃ chunk, i = .feed chunk
  · obtain ⟨chunk, rfl⟩ := hfeed
    obtain ⟨r, u, hreach, hlast⟩ := feedLoop_error_turn ht he
    obtain ⟨hraised, hcause⟩ := exec_error_raised (i := .decode r) nofun hlast he
    refine ⟨u, hraised, hcause, fun h => absurd rfl (h chunk), fun c hc => ?_⟩
    cases hc
    exact ⟨r, hreach, hlast⟩
  · obtain ⟨hraised, hcause⟩ := exec_error_raised (not_exists.mp hfeed) ht he
    exact ⟨s, hraised, hcause, fun _ => rfl, fun c hc => absurd ⟨c, hc⟩ hfeed⟩

/-- Settles O45: the state is the error raised from the one the failing DECODE found, whose `Q` has every Frame queued before it. -/
theorem errorEntry : Obligations.ErrorEntry := by
  intro i s t e ht he
  obtain ⟨u, rfl, hcause, hother, hfeed⟩ := error_raised_from ht he
  have hcfg : u.cfg = s.cfg := (configurationIsFixed i s (u.raised e) ht).1
  have hkept {chunk r : List Byte} {v : State} (hi : i = .feed chunk) (hreach : FeedReaches chunk s r v) :
      v.q <+: (u.raised e).q := feedReaches_queue_prefix hreach (hi ▸ ht)
  refine ⟨rfl, rfl, rfl, ?_, fun h => by rw [State.raised_q, hother h], fun chunk hi => ⟨?_, fun r v => hkept hi⟩, ?_⟩
  · by_cases h : ∃ chunk, i = .feed chunk
    · obtain ⟨chunk, hi⟩ := h
      exact hkept hi (.start chunk s)
    · rw [State.raised_q, hother (not_exists.mp h)]
  · obtain ⟨r, hreach, hlast⟩ := hfeed chunk hi
    exact ⟨r, u, hreach, hlast, rfl⟩
  · rw [← hcfg]
    cases e with
    | protocol b0 code => exact ⟨rfl, hcause⟩
    | unsupportedLength hi lo => rfl
    | queueOverflow => exact ⟨rfl, (queueFull_true_iff _).mp hcause⟩

end Sys2Proof.Machine
end

section
/-! PROOFS. A refusal changes nothing (R219); a FEED is refused in its first turn or not at all (R119, R121). -/

namespace Sys2Proof.Machine

open Sys2Proof

/-- A FEED that a live decoder accepts is not refused later: by induction on its length, since what a turn leaves is shorter, and the
decoder is alive after it (R119, R122). -/
theorem feed_accepted_not_refused {s t : State} {chunk : List Byte} (hi : Inv s) (live : s.st ≠ .error) (ha : Accepts s chunk)
    (ht : exec (.feed chunk) s = .next t) (w : RefuseReason) : t.result ≠ .refused w := by
  induction hlen : chunk.length using Nat.strong_induction_on generalizing chunk s with
  | _ n ih =>
    obtain ⟨u, hd, hu, hres⟩ := decodeChunk_result hi chunk
    have hcfg : u.cfg = s.cfg := ((decodeChunk_keeps_hostSide chunk s ⟨rfl, rfl⟩).of_eq hd).1
    cases (decodeChunk_ending ha).of_eq hd with
    | @raised e _ _ =>
      rw [feed_stop hd (.inl ⟨e, rfl⟩)] at ht
      cases ht
      nofun
    | dead hs => exact absurd hs live
    | @remainder _ rem _ alive hr =>
      cases rem with
      | nil =>
        rw [feed_done hd hr] at ht
        cases ht
        nofun
      | cons b bs =>
        have hshort := (decodeResult_remainder (hr ▸ hres)).2 (by simp)
        rw [feed_more hi hd hr] at ht
        exact ih _ (hlen ▸ hshort) hu alive (ha.mono hcfg hshort.le) ht rfl

/-- So a FEED is refused in its first turn or not at all, and then nothing has changed (R119, R219). -/
theorem feed_refused {s t : State} {chunk : List Byte} {w : RefuseReason} (hi : Inv s) (ht : exec (.feed chunk) s = .next t)
    (hw : t.result = .refused w) : t = s.reply (.refused w) := by
  suffices h : ∃ w', exec (.feed chunk) s = .next (s.answer (.refused w')) by
    obtain ⟨w', h⟩ := h
    rw [h] at ht
    cases ht; cases hw
    exact State.answer_eq_reply hi.inp _
  obtain ⟨hdead, htooLong⟩ := decodeAndFeedRefusals s chunk (.feed chunk) (by simp)
  by_cases hst : s.st = .error
  · exact ⟨.dead, hdead hst⟩
  · have ha : ¬ Accepts s chunk := fun ha => feed_accepted_not_refused hi hst ha ht w hw
    rw [← chunkTooLong_false_iff, Bool.not_eq_false, chunkTooLong_true_iff] at ha
    obtain ⟨m, hm, hlong⟩ := ha
    exact ⟨.chunkTooLong, htooLong hst m hm hlong⟩

/-- Settles O46: a refusal is an answer in the state the instruction found, where `IN` is empty. -/
theorem refusalChangesNothing : Obligations.RefusalChangesNothing := by
  intro i s t w hi ht hw
  change t = s.reply (.refused w)
  by_cases hfeed : ∃ chunk, i = .feed chunk
  · obtain ⟨chunk, rfl⟩ := hfeed
    exact feed_refused hi ht hw
  · cases (exec_ending (not_exists.mp hfeed) s).of_eq ht with
    | decoded h =>
      cases h with
      | raised _ _ => cases hw
      | dead _ => cases hw; exact State.answer_eq_reply hi.inp _
      | remainder _ _ hr => rw [hr] at hw; cases hw
    | tooLong => cases hw; exact State.answer_eq_reply hi.inp _
    | replied h =>
      obtain ⟨r, -, rfl⟩ := h
      cases hw
      rfl
    | cleared hr => exact absurd (.inr ⟨w, hw⟩) hr
    | restarted _ => cases hw

end Sys2Proof.Machine
end

section
/-! PROOFS. An error is precise (R205, R207): FEED of complete frames and more is FEED of what follows them, with the frames queued. -/

namespace Sys2Proof.Machine

open Sys2Proof

/-- The state with the Frames of complete wire frames queued and nothing else changed but the result (R116). -/
def State.queued (ws : List WireFrame) (r : Result) (s : State) : State := { s with q := s.q ++ ws.map wireDecoded, result := r }

/-- From IDLE, FEED of complete frames with bytes after them is FEED of those bytes, the frames being queued: by induction over the
frames, of which a DECODE takes one (R114, R121). -/
theorem feed_streamBytes_append {s : State} {ws : List WireFrame} {rest : List Byte} (hi : Inv s) (hst : s.st = .idle)
    (hroom : RoomFor s ws.length) (hws : ∀ w ∈ ws, WireOk s.cfg w) (ha : Accepts s (streamBytes ws ++ rest)) :
    ∃ r, exec (.feed (streamBytes ws ++ rest)) s = exec (.feed rest) (s.queued ws r) := by
  induction ws generalizing s with
  | nil =>
    have hself : s.queued [] s.result = s := by rw [State.queued, List.map_nil, List.append_nil]
    exact ⟨s.result, by rw [hself]; rfl⟩
  | cons w ws ih =>
    have hbytes : streamBytes (w :: ws) ++ rest = wireBytes w ++ (streamBytes ws ++ rest) := List.append_assoc ..
    have hroom_first : Room s := fun c hc => by have := hroom c hc; rw [List.length_cons] at this; omega
    rw [hbytes] at ha ⊢
    have hd := decodeChunk_wireBytes hi hst hroom_first (hws w List.mem_cons_self) ha
    have hroom_later : RoomFor (s.queued [w] (.remainder (streamBytes ws ++ rest))) ws.length := by
      intro c hc
      have := hroom c hc
      simp only [State.queued, List.map_singleton, List.length_append, List.length_cons, List.length_nil] at this ⊢
      omega
    obtain ⟨r, hfeed⟩ := ih ((decodeChunk_keeps_inv _ s hi).of_eq hd) hst hroom_later
      (fun v hv => hws v (List.mem_cons_of_mem w hv)) (ha.mono rfl (by simp))
    have hqueued : (s.queued [w] (.remainder (streamBytes ws ++ rest))).queued ws r = s.queued (w :: ws) r := by
      simp only [State.queued, List.map_cons, List.map_nil, List.append_assoc, List.singleton_append]
    exact ⟨r, by rw [← hqueued, feed_remainder hi hd rfl (by simp [hst])]; exact hfeed⟩

/-- A header that ParseHeader rejects after complete frames raises its error, with those frames in `Q` (R205, R207). -/
theorem feed_streamBytes_error {s : State} {ws : List WireFrame} {bad : List Byte} {e : ErrorInfo} (hi : Inv s) (hst : s.st = .idle)
    (hroom : RoomFor s ws.length) (hws : ∀ w ∈ ws, WireOk s.cfg w) (ha : Accepts s (streamBytes ws ++ bad)) (hne : bad ≠ [])
    (hbad : parseHeader s.cfg bad = .error e) :
    exec (.feed (streamBytes ws ++ bad)) s = .next { s with
      q := s.q ++ ws.map wireDecoded, st := .error, err := errorCode e, result := .error e } := by
  obtain ⟨hhb, hppf, -⟩ := hi.idle hst
  obtain ⟨r, hfeed⟩ := feed_streamBytes_append hi hst hroom hws ha
  have hview : (s.queued ws r).hb ++ bad = bad := by rw [State.queued, hhb, List.nil_append]
  have hd : decodeChunk bad (s.queued ws r) = .next ((s.queued ws r).raised e) := by
    rw [decodeChunk_eq_startFrame (s := s.queued ws r) (.inl hst) (ha.mono rfl (by simp))]
    exact startFrame_error (s := { s.queued ws r with inp := bad }) (by rw [hview]; exact hne) (by rw [hview]; exact hbad)
  rw [hfeed, feed_stop hd (.inl ⟨e, rfl⟩), hhb, hppf, hi.inp]
  rfl

/-- Settles O51: ParseHeader rejects either header, whatever follows it. -/
theorem errorIsPreciseInAStream : Obligations.ErrorIsPreciseInAStream := by
  intro s ws after hi hst hroom hws
  refine ⟨fun b0 hrsv ha => ?_, fun fin op mask hi32 lo hne ha => ?_⟩
  · have hbad := parseHeader_rsv s.cfg b0 after (by rw [anyRsv_eq_mask]; exact decide_eq_true hrsv)
    exact feed_streamBytes_error hi hst hroom hws ha (List.cons_ne_nil b0 after) hbad
  · have hbad := parseHeader_illE64Hi s.cfg fin op mask hi32 lo hne after
    exact feed_streamBytes_error hi hst hroom hws ha (by simp [encode]) hbad

end Sys2Proof.Machine
end

section
/-! PROOFS. RESET (R230): the state it leaves, whatever the state it is given. -/

namespace Sys2Proof.Machine

open Sys2Proof

/-- Settles O27: RESET tests nothing, and `State.restarted` writes exactly the fields R38 lists, `IN` and the result. -/
theorem resetState : Obligations.ResetState := fun _ => rfl

end Sys2Proof.Machine
end
